-- ==== Sys2Proof/Word.lean ====
section
/-! DEFINITION. The bit-vector types of the HTB block, each at the width rule R6 or R20 gives it. -/

namespace Sys2Proof

/-- A host register or a command word: `REG_WIDTH` = 32 bits (R6, R80). -/
abbrev Word := BitVec 32

/-- A symbol, a character or an output byte: `SYM_WIDTH` = 8 bits (R6, R15). -/
abbrev Byte := BitVec 8

/-- A node index, a queue position or a node count: `IDX_WIDTH` = 9 bits (R6). -/
abbrev Idx := BitVec 9

/-- The container of a node weight: 40 bits, the largest `WEIGHT_WIDTH` (R25). -/
abbrev Weight := BitVec 40

/-- A byte offset in the 64-byte register space (R60). -/
abbrev Offset := BitVec 6

end Sys2Proof
end

