-- ==== Sys2Proof/Config.lean ====
section
/-! DEFINITION. The implementation parameters of rule R6: the fixed capacities, the type of the open parameter
`FREQ_WIDTH`, and the open parameters and free values that no rule gives a value. -/

namespace Sys2Proof.Config

/-- `NODE_CAP` of R6: the node store has 511 records, indices 0 to 510. -/
abbrev nodeCap : Nat := 511

/-- `NSYM` of R6: the alphabet has 256 symbols. -/
abbrev nsym : Nat := 256

/-- `MAX_CODE_LEN` of R6: no code is longer than 255 bits. -/
abbrev maxCodeLen : Nat := 255

/-- `FREQ_WIDTH` of R6, an integer from 1 to 32. It is the open parameter P1: a claim about every state is a claim
about every value of it (R7). -/
structure FreqWidth where
  bits : Nat
  pos : 1 ≤ bits
  le : bits ≤ 32
  deriving DecidableEq, Repr

/-- The default of R6: `FREQ_WIDTH` = 32. -/
def defaultFreqWidth : FreqWidth := ⟨32, by decide, by decide⟩

/-- `OUT_DEPTH` of R6 is at least 1; this constant with no body is `OUT_DEPTH` minus 1 (P2). -/
opaque outDepthLessOne : Nat

/-- `OUT_DEPTH`, the depth of the hardware output FIFO (R34). It affects timing only: no definition of the model
reads it (P2). -/
def outDepth : Nat := outDepthLessOne + 1

/-- The number of the 64-byte block that `HTB_BASE` names (P3, a constant with no body). -/
opaque htbBaseBlock : Nat

/-- `HTB_BASE`, the platform's 64-byte-aligned base address (R71). It never affects a result (P3). -/
def htbBase : Nat := 64 * htbBaseBlock

/-- `HOST_BYTE_ORDER`, the platform's byte-lane map, which no rule reads (R67, P4). -/
opaque hostByteOrder : Fin 4 → Fin 4

/-- The free value of a host read while reset is asserted: `reads return any value` (R240, U9). It is applied to the
model's counter `freeCount`, which the read advances. -/
opaque freeResetRead : Nat → Word

end Sys2Proof.Config
end

