-- ==== Sys2Proof/Syntax.lean ====
section
/-! DEFINITION. The HTB command set: one constructor for each row of the opcode map of rule R86, with the operand
fields of rule R81 at their exact widths, so that no term holds an operand its field cannot (R83). -/

namespace Sys2Proof

/-- The commands of R86, in the map's order. Every term is a legal command: the bounds of R83 are the operand types. -/
inductive Instr where
  /-- NOP (R100). -/
  | nop
  /-- CLEAR (R101). -/
  | clear
  /-- COUNT B (R110). -/
  | count (b : Byte)
  /-- FREQ_WR B (R112); its value is `DATA_IN`, latched at the CMD write (R66). -/
  | freqWr (b : Byte)
  /-- FREQ_RD B (R113). -/
  | freqRd (b : Byte)
  /-- BUILD_INIT (R122). -/
  | buildInit
  /-- MERGE_STEP (R124). -/
  | mergeStep
  /-- BUILD (R126). -/
  | build
  /-- NODE_RD IDX, SEL (R127). -/
  | nodeRd (idx : Idx) (sel : BitVec 2)
  /-- PQ_RD POS (R128). -/
  | pqRd (pos : Idx)
  /-- GEN_CODES (R150). -/
  | genCodes
  /-- CODE_INFO B (R156). -/
  | codeInfo (b : Byte)
  /-- CODE_RD B, CHUNK (R157). -/
  | codeRd (b : Byte) (chunk : BitVec 3)
  /-- HDR_ENC (R166). -/
  | hdrEnc
  /-- HDR_CHAR B (R172). -/
  | hdrChar (b : Byte)
  /-- ENC_BYTE B (R190). -/
  | encByte (b : Byte)
  /-- DEC_CHAR B (R192). -/
  | decChar (b : Byte)
  /-- DEC_END (R194). -/
  | decEnd
  /-- DEC_SINGLE (R195). -/
  | decSingle
  deriving DecidableEq, Repr

end Sys2Proof
end

