-- ==== Sys2Proof/WellFormed.lean ====
section
/-! DEFINITION. Well-formed command lines of the assembler (R90). A term of `Instr` is well-formed by its types, so the
check stands where a number can fail to fit its field: on a command line, whose operands are plain numbers. -/

namespace Sys2Proof

/-- The commands of format Z (R82). -/
inductive ZCommand where
  | nop | clear | buildInit | mergeStep | build | genCodes | hdrEnc | decEnd | decSingle
  deriving DecidableEq, Repr

/-- The commands of format B (R82). -/
inductive BCommand where
  | count | freqWr | freqRd | codeInfo | hdrChar | encByte | decChar
  deriving DecidableEq, Repr

/-- A command line of R90: a mnemonic with its operands as numbers, one constructor for each format of R82. -/
inductive Source where
  | z (c : ZCommand)
  | b (c : BCommand) (byte : Nat)
  | bc (byte chunk : Nat)
  | i (pos : Nat)
  | is (idx sel : Nat)
  deriving DecidableEq, Repr

/-- Every operand fits its field (R83: B is 0 to 255, IDX and POS are 0 to 511, SEL is 0 to 3 and CHUNK is 0 to 7). -/
def Source.wf : Source → Bool
  | .z _ => true
  | .b _ byte => decide (byte < 256)
  | .bc byte chunk => decide (byte < 256) && decide (chunk < 8)
  | .i pos => decide (pos < 512)
  | .is idx sel => decide (idx < 512) && decide (sel < 4)

/-- The command of a format Z line. -/
def ZCommand.instr : ZCommand → Instr
  | .nop => .nop
  | .clear => .clear
  | .buildInit => .buildInit
  | .mergeStep => .mergeStep
  | .build => .build
  | .genCodes => .genCodes
  | .hdrEnc => .hdrEnc
  | .decEnd => .decEnd
  | .decSingle => .decSingle

/-- The command of a format B line. -/
def BCommand.instr (c : BCommand) (byte : Byte) : Instr :=
  match c with
  | .count => .count byte
  | .freqWr => .freqWr byte
  | .freqRd => .freqRd byte
  | .codeInfo => .codeInfo byte
  | .hdrChar => .hdrChar byte
  | .encByte => .encByte byte
  | .decChar => .decChar byte

/-- The command a well-formed line stands for; none for an operand that does not fit its field, which is an
assembler error (R90). -/
def Source.assemble (l : Source) : Option Instr :=
  if l.wf then
    match l with
    | .z c => some c.instr
    | .b c byte => some (c.instr (BitVec.ofNat 8 byte))
    | .bc byte chunk => some (.codeRd (BitVec.ofNat 8 byte) (BitVec.ofNat 3 chunk))
    | .i pos => some (.pqRd (BitVec.ofNat 9 pos))
    | .is idx sel => some (.nodeRd (BitVec.ofNat 9 idx) (BitVec.ofNat 2 sel))
  else none

end Sys2Proof
end

