-- ==== Sys2Proof/Decode.lean ====
section
/-! DEFINITION. The decoder of rules R80 to R88 over the opcode map of R86, and after it the encoder, written from the
formats of R82. -/

namespace Sys2Proof

/-- One row of the opcode map (R86): a word `w` is this row's command iff `(w AND mask) = pattern` (R84), and `build`
reads its operand fields. -/
structure Row where
  pattern : Word
  mask : Word
  build : Word → Instr

/-- The operand `B = ARG[7:0]` of R81. -/
def fieldB (w : Word) : Byte := w.extractLsb' 0 8

/-- The operand `IDX = ARG[8:0]`, or `POS = ARG[8:0]`, of R81. -/
def fieldIdx (w : Word) : Idx := w.extractLsb' 0 9

/-- The operand `SEL = AUX[1:0]` of R81. -/
def fieldSel (w : Word) : BitVec 2 := w.extractLsb' 16 2

/-- The operand `CHUNK = AUX[2:0]` of R81. -/
def fieldChunk (w : Word) : BitVec 3 := w.extractLsb' 16 3

/-- The opcode field `OPC` = bits [31:24] (R81). -/
def fieldOpc (w : Word) : Byte := w.extractLsb' 24 8

/-- The complete opcode map of R86, row for row. -/
def opcodeMap : List Row :=
  [ ⟨0x00000000, 0xFFFFFFFF, fun _ => .nop⟩,
    ⟨0x01000000, 0xFFFFFFFF, fun _ => .clear⟩,
    ⟨0x08000000, 0xFFFFFF00, fun w => .count (fieldB w)⟩,
    ⟨0x09000000, 0xFFFFFF00, fun w => .freqWr (fieldB w)⟩,
    ⟨0x0A000000, 0xFFFFFF00, fun w => .freqRd (fieldB w)⟩,
    ⟨0x10000000, 0xFFFFFFFF, fun _ => .buildInit⟩,
    ⟨0x11000000, 0xFFFFFFFF, fun _ => .mergeStep⟩,
    ⟨0x12000000, 0xFFFFFFFF, fun _ => .build⟩,
    ⟨0x13000000, 0xFFFCFE00, fun w => .nodeRd (fieldIdx w) (fieldSel w)⟩,
    ⟨0x14000000, 0xFFFFFE00, fun w => .pqRd (fieldIdx w)⟩,
    ⟨0x20000000, 0xFFFFFFFF, fun _ => .genCodes⟩,
    ⟨0x21000000, 0xFFFFFF00, fun w => .codeInfo (fieldB w)⟩,
    ⟨0x22000000, 0xFFF8FF00, fun w => .codeRd (fieldB w) (fieldChunk w)⟩,
    ⟨0x30000000, 0xFFFFFFFF, fun _ => .hdrEnc⟩,
    ⟨0x31000000, 0xFFFFFF00, fun w => .hdrChar (fieldB w)⟩,
    ⟨0x40000000, 0xFFFFFF00, fun w => .encByte (fieldB w)⟩,
    ⟨0x41000000, 0xFFFFFF00, fun w => .decChar (fieldB w)⟩,
    ⟨0x42000000, 0xFFFFFFFF, fun _ => .decEnd⟩,
    ⟨0x43000000, 0xFFFFFFFF, fun _ => .decSingle⟩ ]

/-- `(w AND mask) = pattern`, the match of R84. -/
def Row.accepts (r : Row) (w : Word) : Bool := w &&& r.mask == r.pattern

/-- Why a word is illegal (R85): its OPC is not in the map, or its OPC is in the map and a must-be-zero bit is set. -/
inductive DecodeReject where
  | reservedOpcode
  | mustBeZero
  deriving DecidableEq, Repr

/-- The decoder of R84: the one row that accepts the word, or the reason why no row does (R85). -/
def decode (w : Word) : Except DecodeReject Instr :=
  match opcodeMap.find? (fun r => r.accepts w) with
  | some r => .ok (r.build w)
  | none =>
    if opcodeMap.any (fun r => fieldOpc r.pattern == fieldOpc w) then .error .mustBeZero
    else .error .reservedOpcode

/-- The word of a format Z command (R82). -/
def wordZ (opc : Byte) : Word := opc ++ 0#24

/-- The word of a format B command (R82). -/
def wordB (opc b : Byte) : Word := opc ++ 0#16 ++ b

/-- The word of a format BC command (R82). -/
def wordBC (opc : Byte) (chunk : BitVec 3) (b : Byte) : Word := opc ++ 0#5 ++ chunk ++ 0#8 ++ b

/-- The word of a format I command (R82). -/
def wordI (opc : Byte) (pos : Idx) : Word := opc ++ 0#15 ++ pos

/-- The word of a format IS command (R82). -/
def wordIS (opc : Byte) (sel : BitVec 2) (idx : Idx) : Word := opc ++ 0#6 ++ sel ++ 0#7 ++ idx

/-- The word of a command: its format of R82 with its OPC of R86. -/
def encode : Instr → Word
  | .nop => wordZ 0x00
  | .clear => wordZ 0x01
  | .count b => wordB 0x08 b
  | .freqWr b => wordB 0x09 b
  | .freqRd b => wordB 0x0A b
  | .buildInit => wordZ 0x10
  | .mergeStep => wordZ 0x11
  | .build => wordZ 0x12
  | .nodeRd idx sel => wordIS 0x13 sel idx
  | .pqRd pos => wordI 0x14 pos
  | .genCodes => wordZ 0x20
  | .codeInfo b => wordB 0x21 b
  | .codeRd b chunk => wordBC 0x22 chunk b
  | .hdrEnc => wordZ 0x30
  | .hdrChar b => wordB 0x31 b
  | .encByte b => wordB 0x40 b
  | .decChar b => wordB 0x41 b
  | .decEnd => wordZ 0x42
  | .decSingle => wordZ 0x43

/-- The command the decoder reads from an instruction whose bits, numbered as the opcode table numbers them, are `w`
and whose bits from `nbits` up are 0; none where the word is illegal. A command is one 32-bit word (R80). -/
def decodeTableWord (nbits w : Nat) : Option Instr :=
  match decode (BitVec.ofNat 32 (w % 2 ^ nbits)) with
  | .ok i => some i
  | .error _ => none

end Sys2Proof
end

