-- ==== Sys2Proof/Machine/State.lean ====
section
/-! DEFINITION. The state of the HTB: every element of rule R20 at its width, the hardwired CONFIG register (R47), and
the model's own record of the host and of the platform's reset input. It is plain data. -/

namespace Sys2Proof.Machine

/-- `TREE`, 2 bits (R31). -/
inductive TreeState where
  /-- 0: no build since reset or CLEAR. -/
  | none
  /-- 1: BUILD_INIT ran with at least two leaves; merges are pending. -/
  | building
  /-- 2: a build finished with no leaf. -/
  | empty
  /-- 3: a build finished and `ROOT_IDX` names the root. -/
  | built
  deriving DecidableEq, Repr

/-- `HP`, 3 bits (R33); the values 6 and 7 are never held, so they have no constructor. -/
inductive HdrState where
  /-- 0: no header character received since reset or CLEAR. -/
  | idle
  /-- 1: inside a symbol token. -/
  | sym
  /-- 2: after the SP that follows a symbol token. -/
  | sepF
  /-- 3: inside a frequency token. -/
  | freq
  /-- 4: after the SP that follows a frequency token. -/
  | sepS
  /-- 5: the terminating LF has been received. -/
  | done
  deriving DecidableEq, Repr

/-- `ERR`, 4 bits (R36), as the eight-valued type of R210; the codes 8 to 15 are reserved and never held (U12). -/
inductive ErrCode where
  /-- 0. -/
  | none
  /-- 1. -/
  | malformedHeader
  /-- 2. -/
  | corruptBitstream
  /-- 3. -/
  | overflow
  /-- 4. -/
  | illegalCommand
  /-- 5. -/
  | badArgument
  /-- 6. -/
  | sequence
  /-- 7. -/
  | noCode
  deriving DecidableEq, Repr

/-- The `kind` bit of a node record (R23). -/
inductive NodeKind where
  /-- 0. -/
  | leaf
  /-- 1. -/
  | internal
  deriving DecidableEq, Repr

/-- A node record (R23). The weight is held zero-extended to 40 bits. -/
structure NodeRec where
  kind : NodeKind
  symbol : Byte
  weight : Weight
  left : Idx
  right : Idx
  deriving DecidableEq, Repr

/-- One entry of the code table (R32): `CODE_VALID[s]`, `CODE_LEN[s]` and `CODE_BITS[s]`. -/
structure CodeEntry where
  valid : Bool
  len : BitVec 8
  bits : BitVec 255
  deriving DecidableEq, Repr

/-- What the host and the platform can do to the block (R231, R240). The write and read carry the access size in bytes,
since a narrow or misaligned access can be asked for and is refused (R62). -/
inductive HostEvent where
  /-- `MemWrite(HTB_BASE + off, size, v)` (R11). -/
  | write (off : Offset) (size : Nat) (v : Word)
  /-- `MemRead(HTB_BASE + off, size)` (R11). -/
  | read (off : Offset) (size : Nat)
  /-- The host leaves the block idle (R232). -/
  | idle
  /-- A reset during a run, as one step (R240). -/
  | reset
  /-- The platform asserts reset (R240). -/
  | assertReset
  /-- The platform deasserts reset (R240). -/
  | releaseReset
  deriving DecidableEq, Repr

/-- One value a host read returned, with the offset read: part (c) of a run's observation (R245). -/
structure ReadRecord where
  off : Offset
  value : Word
  deriving DecidableEq, Repr

/-- The state. The fields `freq` to `busy` are the elements of R20, `freqWidth` is what the hardwired CONFIG register
holds (R47), and the last four are the model's own: the platform's reset input (R240), the host's pending accesses,
the values its reads returned (R245) and the counter the free value of `Config.freeResetRead` is applied to. -/
structure State where
  /-- `FREQ` (R21), each entry held zero-extended to 32 bits. -/
  freq : Vector Word Config.nsym
  /-- `NODE` (R23). -/
  node : Vector NodeRec Config.nodeCap
  /-- `NODE_COUNT` (R26). -/
  nodeCount : Idx
  /-- `PQ` (R28). -/
  pq : List Idx
  /-- `ROOT_IDX` (R29). -/
  rootIdx : Idx
  /-- `LEAF_COUNT` (R30). -/
  leafCount : Idx
  /-- `TREE` (R31). -/
  tree : TreeState
  /-- `CODES_VALID` (R32). -/
  codesValid : Bool
  /-- `CODE_VALID`, `CODE_LEN` and `CODE_BITS` (R32). -/
  codes : Vector CodeEntry Config.nsym
  /-- `HP` (R33). -/
  hp : HdrState
  /-- `HACC` (R33), held zero-extended to 32 bits. -/
  hacc : Word
  /-- `HSYM` (R33). -/
  hsym : Byte
  /-- `OUT` (R34), oldest byte first. -/
  out : List Byte
  /-- `DEC_CUR` (R35). -/
  decCur : Idx
  /-- `ERR` (R36). -/
  err : ErrCode
  /-- `DATA_IN` (R37). -/
  dataIn : Word
  /-- `DATA_OUT` (R37). -/
  dataOut : Word
  /-- `BUSY` (R38); no step of the atomic model leaves it true. -/
  busy : Bool
  /-- `FREQ_WIDTH`, which CONFIG hardwires (R47); no step changes it. -/
  freqWidth : Config.FreqWidth
  /-- The platform holds reset asserted (R240). -/
  inReset : Bool
  /-- The accesses the host and the platform have still to make, the next one first (R73). -/
  host : List HostEvent
  /-- The values host reads returned, the first one first (R245). -/
  readLog : List ReadRecord
  /-- How many free values the run has used. -/
  freeCount : Nat
  deriving DecidableEq, Repr

/-- Why the machine can stop. Each one is raised only where the spec's own text makes no step possible: a primitive used
outside the condition the spec gives it, in a state that no run reaches. All are safe: the model stops. -/
inductive Fault where
  /-- MERGE_STEP and BUILD: a pop with `|PQ| < 2`, where R120 says a pop is only made with `|PQ| >= 2`. Safe. -/
  | queueUnderflow
  /-- MERGE_STEP and BUILD: a merge with `NODE_COUNT` = 511, past the capacity R132 says no command exceeds. Safe. -/
  | nodeStoreFull
  /-- MERGE_STEP and BUILD: a sum that does not fit `WEIGHT_WIDTH`, which R25 says no merge makes. Safe. -/
  | weightOverflow
  /-- MERGE_STEP, BUILD, GEN_CODES, DEC_CHAR and DEC_SINGLE: a record at an index from `NODE_COUNT` up, which R27 says
  no rule reads. Safe. -/
  | undefinedNode
  /-- GEN_CODES: a path longer than the 255 bits that R153 bounds every code by. Safe. -/
  | codeTooLong
  deriving DecidableEq, Repr

/-- Why the model has no meaning for a step. -/
inductive Refusal where
  /-- An instruction with no meaning yet; no arm of this model raises it. Safe. -/
  | notModelled (mnemonic : String)
  /-- A host access that is not a 32-bit access at a multiple of 4, which R62 says the model has no step for (U10).
  Raised by `hostStep`. Safe. -/
  | unmodelledAccess
  deriving DecidableEq, Repr

/-- A node record with every field 0, the value named for a record that holds no defined value (R27). -/
def NodeRec.blank : NodeRec := ⟨.leaf, 0, 0, 0, 0⟩

/-- A code entry with every element 0 (R32). -/
def CodeEntry.blank : CodeEntry := ⟨false, 0, 0⟩

/-- The machine right after reset: the values of R50, with the default `FREQ_WIDTH` of R6 and no host access pending. -/
def State.reset : State where
  freq := Vector.replicate _ 0
  node := Vector.replicate _ NodeRec.blank
  nodeCount := 0
  pq := []
  rootIdx := 0
  leafCount := 0
  tree := .none
  codesValid := false
  codes := Vector.replicate _ CodeEntry.blank
  hp := .idle
  hacc := 0
  hsym := 0
  out := []
  decCur := 0
  err := .none
  dataIn := 0
  dataOut := 0
  busy := false
  freqWidth := Config.defaultFreqWidth
  inReset := false
  host := []
  readLog := []
  freeCount := 0

end Sys2Proof.Machine
end

