-- ==== Sys2Proof/Machine/Ops.lean ====
section
/-! DEFINITION. The shared operations: error entry, the frequency table, the node store and its order, the priority
structure, the output queue, and reset. -/

namespace Sys2Proof.Machine

/-- What a command or a step answers. -/
abbrev Result := Host.Outcome State Fault Refusal

/-- Run `k` on the next state of `r`; a stop stays a stop. -/
def andThen (r : Result) (k : State → Result) : Result :=
  match r with
  | .next s => k s
  | .fault e => .fault e
  | .refused e => .refused e

/-- Error entry, `raise E(code)` (R12, R214): the command has no effect but `ERR <- code` if ERR was 0. There is no
mode, mask, vector or saved state to change (R217), and only CLEAR and reset end it (R218). -/
def raise (code : ErrCode) (s : State) : Result :=
  .next (if s.err = .none then { s with err := code } else s)

/-! ### Frequency table -/

/-- `FREQ_MAX` = 2^FREQ_WIDTH - 1 (R6). -/
def State.freqMax (s : State) : Nat := 2 ^ s.freqWidth.bits - 1

/-- `WEIGHT_WIDTH` = FREQ_WIDTH + 8 (R25). -/
def State.weightWidth (s : State) : Nat := s.freqWidth.bits + 8

/-- The entry of symbol `b` in a frequency table. -/
def tableAt (t : Vector Word Config.nsym) (b : Byte) : Word := t[b.toNat]'b.isLt

/-- `FREQ[b]` (R21). -/
def State.freqAt (s : State) (b : Byte) : Word := tableAt s.freq b

/-- `FREQ[b] <- v`. -/
def State.setFreq (s : State) (b : Byte) (v : Word) : State := { s with freq := s.freq.set b.toNat v b.isLt }

/-- `v[FREQ_WIDTH-1:0]`, the part of a value that a FREQ entry holds (R112, R177). -/
def State.freqBits (s : State) (v : Word) : Word := BitVec.ofNat 32 (v.toNat % 2 ^ s.freqWidth.bits)

/-- The frequency table with every entry 0. -/
def zeroTable : Vector Word Config.nsym := Vector.replicate _ 0

/-- The symbols 0 to 255, ascending. -/
def symbols : List Byte := (List.range Config.nsym).map (BitVec.ofNat 8)

/-- The symbols with a non-zero entry, ascending, each with its frequency: the order in which BUILD_INIT makes the
leaves (R122) and HDR_ENC writes the pairs (R166). -/
def listed (t : Vector Word Config.nsym) : List (Byte × Word) := (symbols.zip t.toList).filter fun p => p.2 ≠ 0

/-! ### Node store -/

/-- The record at index `i` of a node store; the 9-bit index 511 names no record and gives the blank one. -/
def storeAt (t : Vector NodeRec Config.nodeCap) (i : Idx) : NodeRec :=
  if h : i.toNat < Config.nodeCap then t[i.toNat] else NodeRec.blank

/-- The record at index `i`, whether or not it is defined. -/
def State.nodeAt (s : State) (i : Idx) : NodeRec := storeAt s.node i

/-- `NODE[i]` as a rule may read it: none from `NODE_COUNT` up, where a record holds no defined value (R27). -/
def State.node? (s : State) (i : Idx) : Option NodeRec := if i < s.nodeCount then some (s.nodeAt i) else none

/-- Write records one after another from index `k` up. -/
def writeNodes (t : Vector NodeRec Config.nodeCap) (k : Nat) : List NodeRec → Vector NodeRec Config.nodeCap
  | [] => t
  | r :: rs => writeNodes (t.setIfInBounds k r) (k + 1) rs

/-! ### Order and priority structure -/

/-- `key(a) <= key(b)` (R14, R120): the pairs (weight, symbol) in lexicographic order. -/
def keyLe (a b : NodeRec) : Bool := a.weight < b.weight || (a.weight == b.weight && a.symbol ≤ b.symbol)

/-- `key(a) < key(b)` (R14, R120). -/
def keyLt (a b : NodeRec) : Bool := a.weight < b.weight || (a.weight == b.weight && a.symbol < b.symbol)

/-- `pq_insert(k)` (R120): `k` goes behind every position whose key is at most its own, equal keys included (R121). -/
def pqInsert (t : Vector NodeRec Config.nodeCap) (pq : List Idx) (k : Idx) : List Idx :=
  let p := pq.countP fun e => keyLe (storeAt t e) (storeAt t k)
  pq.take p ++ [k] ++ pq.drop p

/-! ### Code table -/

/-- The code table with every element 0 (R32). -/
def blankCodes : Vector CodeEntry Config.nsym := Vector.replicate _ CodeEntry.blank

/-- The code table entry of symbol `b` (R32). -/
def State.codeAt (s : State) (b : Byte) : CodeEntry := s.codes[b.toNat]'b.isLt

/-- The number whose bit k is the k-th of the given bits. -/
def bitsValue : List Bool → Nat
  | [] => 0
  | b :: bs => b.toNat + 2 * bitsValue bs

/-- The bit vector whose bit k is the k-th of the given bits, and 0 past their end. -/
def ofBits (w : Nat) (bs : List Bool) : BitVec w := BitVec.ofNat w (bitsValue bs)

/-! ### Output and results -/

/-- `emit` of each of the bytes, in order (R10, R34). -/
def State.emit (s : State) (bs : List Byte) : State := { s with out := s.out ++ bs }

/-- `DATA_OUT <- v` (R37). -/
def State.setDataOut (s : State) (v : Word) : State := { s with dataOut := v }

/-! ### Reset -/

/-- Reset (R241): every element of the block at its value of R50. CONFIG is hardwired (R47), and what the host and the
platform have still to do, and the host has already read, is no state of the block. -/
def State.resetBlock (s : State) : State :=
  { State.reset with
    freqWidth := s.freqWidth, inReset := s.inReset, host := s.host, readLog := s.readLog, freeCount := s.freeCount }

end Sys2Proof.Machine
end

