-- ==== Sys2Proof/Machine/Flags.lean ====
section
/-! DEFINITION. The status fields and the read-only registers that show them: STATUS (R42), TREEINFO (R43), DECINFO
(R45), OUT_LEVEL (R46) and CONFIG (R47). -/

namespace Sys2Proof.Machine

/-- The value of TREE (R31). -/
def TreeState.code : TreeState → BitVec 2
  | .none => 0
  | .building => 1
  | .empty => 2
  | .built => 3

/-- The value of HP (R33). -/
def HdrState.code : HdrState → BitVec 3
  | .idle => 0
  | .sym => 1
  | .sepF => 2
  | .freq => 3
  | .sepS => 4
  | .done => 5

/-- The value of ERR (R210). -/
def ErrCode.code : ErrCode → BitVec 4
  | .none => 0
  | .malformedHeader => 1
  | .corruptBitstream => 2
  | .overflow => 3
  | .illegalCommand => 4
  | .badArgument => 5
  | .sequence => 6
  | .noCode => 7

/-- The `kind` bit of a node record (R23). -/
def NodeKind.code : NodeKind → BitVec 1
  | .leaf => 0
  | .internal => 1

/-- A finished build: `TREE` is EMPTY or BUILT. -/
def State.buildFinished (s : State) : Bool := s.tree == .empty || s.tree == .built

/-- No header is partly parsed: `HP` is IDLE or DONE. -/
def State.headerClosed (s : State) : Bool := s.hp == .idle || s.hp == .done

/-- FREQ may be written by COUNT and FREQ_WR: `TREE = NONE` and `HP = IDLE` (R22, R212). -/
def State.freqWritable (s : State) : Bool := s.tree == .none && s.hp == .idle

/-- AT_ROOT of DECINFO (R45). -/
def State.atRoot (s : State) : Bool := s.tree == .built && s.decCur == s.rootIdx

/-- STATUS (R42): BUSY, three reserved bits, LEAF_COUNT, PQ_SIZE, CODES_VALID, TREE, HP, ERR. -/
def State.status (s : State) : Word :=
  BitVec.ofBool s.busy ++ 0#3 ++ s.leafCount ++ BitVec.ofNat 9 s.pq.length ++ BitVec.ofBool s.codesValid ++
    s.tree.code ++ s.hp.code ++ s.err.code

/-- TREEINFO (R43): ROOT_IDX in bits [24:16] and NODE_COUNT in bits [8:0]. -/
def State.treeInfo (s : State) : Word := 0#7 ++ s.rootIdx ++ 0#7 ++ s.nodeCount

/-- DECINFO (R45): AT_ROOT in bit 31 and DEC_CUR in bits [8:0]. -/
def State.decInfo (s : State) : Word := BitVec.ofBool s.atRoot ++ 0#22 ++ s.decCur

/-- OUT_LEVEL (R46): the number of bytes in OUT, at most 0xFFFFFFFF. -/
def State.outLevel (s : State) : Word := BitVec.ofNat 32 (min s.out.length 0xFFFFFFFF)

/-- CONFIG (R47): FREQ_WIDTH in bits [5:0]. -/
def State.config (s : State) : Word := BitVec.ofNat 32 s.freqWidth.bits

end Sys2Proof.Machine
end

