-- ==== Sys2Proof/Machine/Operands.lean ====
section
/-! DEFINITION. The operands of the commands beyond the fields the decoder reads: the latched operand of FREQ_WR, the
classes of a character operand, and decimal text. -/

namespace Sys2Proof.Machine

/-- The byte of the character '0' (R10). -/
def charZero : Byte := 0x30

/-- The byte of the character '1' (R10). -/
def charOne : Byte := 0x31

/-- The byte SP (R10). -/
def charSp : Byte := 0x20

/-- The byte LF (R10). -/
def charLf : Byte := 0x0A

/-- The operand V of FREQ_WR: `DATA_IN` as latched at the CMD write, which is this same step (R66). -/
def State.latchedOperand (s : State) : Word := s.dataIn

/-- `isdig` of R172: 0x30 <= B <= 0x39. -/
def isDigit (b : Byte) : Bool := 0x30 ≤ b.toNat && b.toNat ≤ 0x39

/-- `dv` of R172: B - 0x30. -/
def digitValue (b : Byte) : Nat := b.toNat - 0x30

/-- The byte of the digit d, 0x30 + d (R167). -/
def digitByte (d : Nat) : Byte := BitVec.ofNat 8 (0x30 + d)

/-- The last `fuel` decimal digits of v, most significant first, with no leading zero but for 0 itself. -/
def digitsOf : (fuel : Nat) → (v : Nat) → List Byte
  | 0, _ => []
  | fuel + 1, v => if v < 10 then [digitByte v] else digitsOf fuel (v / 10) ++ [digitByte (v % 10)]

/-- `emit_dec(v)` (R167) as the bytes it emits. A 32-bit value has at most 10 digits. -/
def decimal (v : Nat) : List Byte := digitsOf 10 v

/-- The character a code bit is written as: 1 as '1' and 0 as '0' (R32, R190). -/
def bitChar (b : Bool) : Byte := if b then charOne else charZero

end Sys2Proof.Machine
end

