-- ==== Sys2Proof/Machine/CodeGenerator.lean ====
section
/-! DEFINITION. The code generator commands of 43_code_generator.md: GEN_CODES, CODE_INFO and CODE_RD. -/

namespace Sys2Proof.Machine

/-- The code table entry of a leaf reached by `path`, root first (R150): bit k of CODE_BITS is path[k], and the bits past
the path are 0 (R32). -/
def entryOfPath (path : List Bool) : CodeEntry :=
  ⟨true, BitVec.ofNat 8 path.length, ofBits Config.maxCodeLen path⟩

/-- `walk(i, path)` of R150, the right subtree first, into the table built so far. `fuel` is one more than the number of
levels left: no path is longer than 255 (R151, R153). -/
def walk (s : State) : (fuel : Nat) → Idx → List Bool → Vector CodeEntry Config.nsym →
    Except Fault (Vector CodeEntry Config.nsym)
  | 0, _, _, _ => .error .codeTooLong
  | fuel + 1, i, path, t =>
    match s.node? i with
    | none => .error .undefinedNode
    | some n =>
      match n.kind with
      | .leaf => .ok (t.set n.symbol.toNat (entryOfPath path) n.symbol.isLt)
      | .internal =>
        match walk s fuel n.right (path ++ [true]) t with
        | .error e => .error e
        | .ok t' => walk s fuel n.left (path ++ [false]) t'

/-- The code table of the finished tree (R150): the walk from the root, or no code for the empty tree (R155). -/
def State.generatedCodes (s : State) : Except Fault (Vector CodeEntry Config.nsym) :=
  if s.tree = .built then walk s (Config.maxCodeLen + 1) s.rootIdx [] blankCodes else .ok blankCodes

/-- GEN_CODES (R150). -/
def execGenCodes (s : State) : Result :=
  if !s.buildFinished then raise .sequence s
  else
    match s.generatedCodes with
    | .error e => .fault e
    | .ok t => .next { s with codes := t, codesValid := true }

/-- The word of CODE_INFO (R156): VALID in bit 31 and LEN in bits [7:0]. -/
def CodeEntry.info (e : CodeEntry) : Word := BitVec.ofBool e.valid ++ 0#23 ++ e.len

/-- CODE_INFO B (R156). -/
def execCodeInfo (b : Byte) (s : State) : Result :=
  if !s.codesValid then raise .sequence s else .next (s.setDataOut (s.codeAt b).info)

/-- Code character k of an entry, or 0 past its end: `(k < CODE_LEN[B]) ? CODE_BITS[B][k] : 0` (R157). -/
def CodeEntry.bitAt (e : CodeEntry) (k : Nat) : Bool := k < e.len.toNat && e.bits.getLsbD k

/-- Chunk `c` of a code (R157, R69): bit j is code character 32c + j. -/
def CodeEntry.chunk (e : CodeEntry) (c : BitVec 3) : Word :=
  ofBits 32 ((List.range 32).map fun j => e.bitAt (32 * c.toNat + j))

/-- CODE_RD B, CHUNK (R157). -/
def execCodeRd (b : Byte) (c : BitVec 3) (s : State) : Result :=
  if !s.codesValid then raise .sequence s else .next (s.setDataOut ((s.codeAt b).chunk c))

end Sys2Proof.Machine
end

