-- ==== Sys2Proof/Machine/Control.lean ====
section
/-! DEFINITION. The control commands of 40_control.md: NOP and CLEAR. -/

namespace Sys2Proof.Machine

/-- NOP (R100). -/
def execNop (s : State) : Result := .next s

/-- The state after CLEAR (R101). `OUT`, `DATA_IN`, the node records and CONFIG are not changed (R102). -/
def State.cleared (s : State) : State :=
  { s with
    freq := zeroTable, codes := blankCodes, nodeCount := 0, pq := [], rootIdx := 0, leafCount := 0, tree := .none,
    codesValid := false, hp := .idle, hacc := 0, hsym := 0, decCur := 0, dataOut := 0, err := .none }

/-- CLEAR (R101). -/
def execClear (s : State) : Result := .next s.cleared

end Sys2Proof.Machine
end

