-- ==== Sys2Proof/Machine/Frequency.lean ====
section
/-! DEFINITION. The frequency table commands of 41_frequency.md: COUNT, FREQ_WR and FREQ_RD. -/

namespace Sys2Proof.Machine

/-- COUNT B (R110). -/
def execCount (b : Byte) (s : State) : Result :=
  if !s.freqWritable then raise .sequence s
  else if (s.freqAt b).toNat = s.freqMax then raise .overflow s
  else .next (s.setFreq b (s.freqAt b + 1))

/-- FREQ_WR B (R112). -/
def execFreqWr (b : Byte) (s : State) : Result :=
  if !s.freqWritable then raise .sequence s
  else if s.freqMax < s.latchedOperand.toNat then raise .overflow s
  else .next (s.setFreq b (s.freqBits s.latchedOperand))

/-- FREQ_RD B (R113). -/
def execFreqRd (b : Byte) (s : State) : Result := .next (s.setDataOut (s.freqAt b))

end Sys2Proof.Machine
end

