-- ==== Sys2Proof/Machine/HeaderCodec.lean ====
section
/-! DEFINITION. The header codec commands of 44_header_codec.md: HDR_ENC and HDR_CHAR. -/

namespace Sys2Proof.Machine

/-! ### Encoder -/

/-- The text of one pair: the symbol, SP, the frequency (R165, R166). -/
def pairText (p : Byte × Word) : List Byte := decimal p.1.toNat ++ [charSp] ++ decimal p.2.toNat

/-- The pairs with one SP between each two (R166). -/
def pairsText : List (Byte × Word) → List Byte
  | [] => []
  | [p] => pairText p
  | p :: q :: ps => pairText p ++ [charSp] ++ pairsText (q :: ps)

/-- The header line of a frequency table (R165, R166); the empty table gives the single LF (R168). -/
def headerText (t : Vector Word Config.nsym) : List Byte := pairsText (listed t) ++ [charLf]

/-- HDR_ENC (R166). -/
def execHdrEnc (s : State) : Result :=
  if !s.headerClosed then raise .sequence s else .next (s.emit (headerText s.freq))

/-! ### Parser -/

/-- `HACC*10 + dv` for the digit `b`, as an exact number (R8). -/
def State.accumulate (s : State) (b : Byte) : Nat := s.hacc.toNat * 10 + digitValue b

/-- HDR_CHAR in state IDLE (R173): the first byte clears the table. -/
def hdrIdle (b : Byte) (s : State) : Result :=
  if isDigit b then .next { s with freq := zeroTable, hacc := BitVec.ofNat 32 (digitValue b), hp := .sym }
  else if b = charLf then .next { s with freq := zeroTable, hacc := 0, hp := .done }
  else raise .malformedHeader s

/-- HDR_CHAR in state SYM (R174). -/
def hdrSym (b : Byte) (s : State) : Result :=
  if isDigit b then
    if 255 < s.accumulate b then raise .malformedHeader s
    else .next { s with hacc := BitVec.ofNat 32 (s.accumulate b) }
  else if b = charSp then .next { s with hsym := s.hacc.setWidth 8, hacc := 0, hp := .sepF }
  else raise .malformedHeader s

/-- HDR_CHAR in state SEP_F (R175). A first digit above `FREQ_MAX`, which a FREQ_WIDTH of 1 to 3 admits, raises OVERFLOW, as
every digit that passes `FREQ_MAX` does (R211, 92_eei_decisions.md D26); DEDUCED, log 14. -/
def hdrSepF (b : Byte) (s : State) : Result :=
  if isDigit b then
    if s.freqMax < digitValue b then raise .overflow s
    else .next { s with hacc := BitVec.ofNat 32 (digitValue b), hp := .freq }
  else raise .malformedHeader s

/-- The pair commit of R177, and the parser state after it. -/
def hdrCommit (after : HdrState) (s : State) : Result :=
  if s.hacc = 0 then raise .malformedHeader s
  else if s.freqAt s.hsym ≠ 0 then raise .malformedHeader s
  else .next { s.setFreq s.hsym (s.freqBits s.hacc) with hacc := 0, hp := after }

/-- HDR_CHAR in state FREQ (R176). -/
def hdrFreq (b : Byte) (s : State) : Result :=
  if isDigit b then
    if s.freqMax < s.accumulate b then raise .overflow s
    else .next { s with hacc := BitVec.ofNat 32 (s.accumulate b) }
  else if b = charSp then hdrCommit .sepS s
  else if b = charLf then hdrCommit .done s
  else raise .malformedHeader s

/-- HDR_CHAR in state SEP_S (R178). -/
def hdrSepS (b : Byte) (s : State) : Result :=
  if isDigit b then .next { s with hacc := BitVec.ofNat 32 (digitValue b), hp := .sym }
  else raise .malformedHeader s

/-- HDR_CHAR B (R172). -/
def execHdrChar (b : Byte) (s : State) : Result :=
  if s.tree ≠ .none then raise .sequence s
  else
    match s.hp with
    | .idle => hdrIdle b s
    | .sym => hdrSym b s
    | .sepF => hdrSepF b s
    | .freq => hdrFreq b s
    | .sepS => hdrSepS b s
    | .done => raise .sequence s

end Sys2Proof.Machine
end

