-- ==== Sys2Proof/Machine/PayloadCodec.lean ====
section
/-! DEFINITION. The payload codec commands of 45_payload.md: ENC_BYTE, DEC_CHAR, DEC_END and DEC_SINGLE. -/

namespace Sys2Proof.Machine

/-! ### Encoder -/

/-- The characters of a code, root first (R68, R190). -/
def CodeEntry.text (e : CodeEntry) : List Byte :=
  (List.range e.len.toNat).map fun k => bitChar (e.bits.getLsbD k)

/-- ENC_BYTE B (R190). -/
def execEncByte (b : Byte) (s : State) : Result :=
  if !s.codesValid then raise .sequence s
  else if !(s.codeAt b).valid then raise .noCode s
  else .next (s.emit (s.codeAt b).text)

/-! ### Decoder -/

/-- The child a payload character selects (R193): '0' the left one, '1' the right one, no other character any. -/
def childFor (n : NodeRec) (b : Byte) : Option Idx :=
  if b = charZero then some n.left else if b = charOne then some n.right else none

/-- The move of the cursor to the child `nxt` (R192): a leaf emits its symbol and sends the cursor back to the root. -/
def decMove (nxt : Idx) (s : State) : Result :=
  match s.node? nxt with
  | none => .fault .undefinedNode
  | some n =>
    match n.kind with
    | .leaf => .next { s.emit [n.symbol] with decCur := s.rootIdx }
    | .internal => .next { s with decCur := nxt }

/-- DEC_CHAR on a finished tree whose root is internal (R192). -/
def decDescend (b : Byte) (s : State) : Result :=
  match s.node? s.decCur with
  | none => .fault .undefinedNode
  | some cur =>
    match childFor cur b with
    | none => raise .corruptBitstream s
    | some nxt => decMove nxt s

/-- DEC_CHAR B (R192). -/
def execDecChar (b : Byte) (s : State) : Result :=
  match s.tree with
  | .none => raise .sequence s
  | .building => raise .sequence s
  | .empty => raise .corruptBitstream s
  | .built =>
    match s.node? s.rootIdx with
    | none => .fault .undefinedNode
    | some root =>
      match root.kind with
      | .leaf => raise .corruptBitstream s
      | .internal => decDescend b s

/-- DEC_END (R194). -/
def execDecEnd (s : State) : Result :=
  if !s.buildFinished then raise .sequence s
  else if s.tree = .built ∧ s.decCur ≠ s.rootIdx then raise .corruptBitstream s
  else .next s

/-- DEC_SINGLE (R195). -/
def execDecSingle (s : State) : Result :=
  match s.tree with
  | .none => raise .sequence s
  | .building => raise .sequence s
  | .empty => .next s
  | .built =>
    match s.node? s.rootIdx with
    | none => .fault .undefinedNode
    | some root =>
      match root.kind with
      | .internal => raise .sequence s
      | .leaf => .next (s.emit (List.replicate root.weight.toNat root.symbol))

end Sys2Proof.Machine
end

