-- ==== Sys2Proof/Machine/TreeBuilder.lean ====
section
/-! DEFINITION. The priority structure and tree builder commands of 42_tree_builder.md: BUILD_INIT, MERGE_STEP, BUILD,
NODE_RD and PQ_RD. -/

namespace Sys2Proof.Machine

/-! ### BUILD_INIT -/

/-- The leaf of a listed symbol (R122): `left` and `right` are 0 (R23). -/
def leafOf (p : Byte × Word) : NodeRec := ⟨.leaf, p.1, p.2.setWidth 40, 0, 0⟩

/-- TREE after BUILD_INIT made `n` leaves (R122). -/
def treeAfterInit (n : Nat) : TreeState := if n = 0 then .empty else if n = 1 then .built else .building

/-- The node indices 0 to n - 1. -/
def indicesBelow (n : Nat) : List Idx := (List.range n).map (BitVec.ofNat 9)

/-- The state after the effect of BUILD_INIT (R122): the leaves in ascending symbol order, all of them queued, and no
codes. -/
def State.buildInit (s : State) : State :=
  let leaves := (listed s.freq).map leafOf
  let node := writeNodes s.node 0 leaves
  { s with
    node := node
    nodeCount := BitVec.ofNat 9 leaves.length
    leafCount := BitVec.ofNat 9 leaves.length
    pq := (indicesBelow leaves.length).foldl (pqInsert node) []
    rootIdx := 0
    decCur := 0
    codesValid := false
    codes := blankCodes
    tree := treeAfterInit leaves.length }

/-- BUILD_INIT (R122). -/
def execBuildInit (s : State) : Result :=
  if !s.headerClosed then raise .sequence s else .next s.buildInit

/-! ### MERGE_STEP -/

/-- The representative symbol of a merge (R124, 90_conflicts.md C1): the first symbol for equal weights, else the larger
one. -/
def repSymbol (f g : NodeRec) : Byte :=
  if g.weight = f.weight then f.symbol else if f.symbol ≤ g.symbol then g.symbol else f.symbol

/-- The record of a merge: the first popped node is the left child (R124). -/
def mergedNode (a b : Idx) (f g : NodeRec) : NodeRec :=
  ⟨.internal, repSymbol f g, f.weight + g.weight, a, b⟩

/-- The state after the merge of the popped `a` and `b`, with `rest` left in the queue (R124). The merge that leaves one
entry finishes the tree. -/
def State.merged (s : State) (a b : Idx) (rest : List Idx) : State :=
  let node := s.node.setIfInBounds s.nodeCount.toNat (mergedNode a b (s.nodeAt a) (s.nodeAt b))
  let pq := pqInsert node rest s.nodeCount
  let t := { s with node := node, nodeCount := s.nodeCount + 1, pq := pq }
  match pq with
  | [root] => { t with tree := .built, rootIdx := root, decCur := root }
  | _ => t

/-- One merge (R124). A queue with fewer than two entries or with an entry that names no defined record, a full node
store, and a sum past WEIGHT_WIDTH are outside what the rules give a meaning (R120, R27, R132, R25). -/
def mergeOnce (s : State) : Result :=
  match s.pq with
  | a :: b :: rest =>
    if !s.pq.all (fun e => e < s.nodeCount) then .fault .undefinedNode
    else if s.nodeCount.toNat = Config.nodeCap then .fault .nodeStoreFull
    else if 2 ^ s.weightWidth ≤ (s.nodeAt a).weight.toNat + (s.nodeAt b).weight.toNat then .fault .weightOverflow
    else .next (s.merged a b rest)
  | _ => .fault .queueUnderflow

/-- MERGE_STEP (R124). -/
def execMergeStep (s : State) : Result :=
  if s.tree ≠ .building then raise .sequence s else mergeOnce s

/-! ### BUILD -/

/-- `while TREE = BUILDING: MERGE_STEP` for at most `fuel` merges (R126). -/
def mergeLoop : (fuel : Nat) → State → Result
  | 0, s => .next s
  | fuel + 1, s => if s.tree = .building then andThen (mergeOnce s) (mergeLoop fuel) else .next s

/-- BUILD (R126): BUILD_INIT and then every merge; 256 leaves take 255 merges (R248). -/
def execBuild (s : State) : Result :=
  if !s.headerClosed then raise .sequence s else mergeLoop 255 s.buildInit

/-! ### Read-back -/

/-- The word of a node record that `SEL` selects (R127): weight[31:0], weight[WEIGHT_WIDTH-1:32], or
`{1'b1, kind, 4'b0000, right, left, symbol}`. -/
def NodeRec.word (n : NodeRec) (sel : BitVec 2) : Word :=
  if sel = 0 then n.weight.setWidth 32
  else if sel = 1 then (n.weight >>> 32).setWidth 32
  else 1#1 ++ n.kind.code ++ 0#4 ++ n.right ++ n.left ++ n.symbol

/-- NODE_RD IDX, SEL (R127). -/
def execNodeRd (idx : Idx) (sel : BitVec 2) (s : State) : Result :=
  if s.nodeCount ≤ idx ∨ sel = 3 then raise .badArgument s
  else .next (s.setDataOut ((s.nodeAt idx).word sel))

/-- PQ_RD POS (R128). -/
def execPqRd (pos : Idx) (s : State) : Result :=
  match s.pq[pos.toNat]? with
  | none => raise .badArgument s
  | some i => .next (s.setDataOut (i.setWidth 32))

end Sys2Proof.Machine
end

