-- ==== Sys2Proof/Machine/Dispatch.lean ====
section
/-! DEFINITION. The meaning of each command, one arm a constructor of `Instr`. -/

namespace Sys2Proof.Machine

def exec (i : Instr) (s : State) : Host.Outcome State Fault Refusal :=
  match i with
  -- 40_control.md
  | .nop => Sys2Proof.Machine.execNop s
  | .clear => Sys2Proof.Machine.execClear s
  -- 41_frequency.md
  | .count b => Sys2Proof.Machine.execCount b s
  | .freqWr b => Sys2Proof.Machine.execFreqWr b s
  | .freqRd b => Sys2Proof.Machine.execFreqRd b s
  -- 42_tree_builder.md
  | .buildInit => Sys2Proof.Machine.execBuildInit s
  | .mergeStep => Sys2Proof.Machine.execMergeStep s
  | .build => Sys2Proof.Machine.execBuild s
  | .nodeRd idx sel => Sys2Proof.Machine.execNodeRd idx sel s
  | .pqRd pos => Sys2Proof.Machine.execPqRd pos s
  -- 43_code_generator.md
  | .genCodes => Sys2Proof.Machine.execGenCodes s
  | .codeInfo b => Sys2Proof.Machine.execCodeInfo b s
  | .codeRd b chunk => Sys2Proof.Machine.execCodeRd b chunk s
  -- 44_header_codec.md
  | .hdrEnc => Sys2Proof.Machine.execHdrEnc s
  | .hdrChar b => Sys2Proof.Machine.execHdrChar b s
  -- 45_payload.md
  | .encByte b => Sys2Proof.Machine.execEncByte b s
  | .decChar b => Sys2Proof.Machine.execDecChar b s
  | .decEnd => Sys2Proof.Machine.execDecEnd s
  | .decSingle => Sys2Proof.Machine.execDecSingle s

end Sys2Proof.Machine
end

