-- ==== Sys2Proof/Machine/HostAccess.lean ====
section
/-! DEFINITION. The register space: what a host write, a host read and the platform's reset input do. -/

namespace Sys2Proof.Machine

/-! ### Register offsets (R60) -/

def offCmd : Offset := 0x00
def offDataIn : Offset := 0x04
def offDataOut : Offset := 0x08
def offStatus : Offset := 0x0C
def offTreeInfo : Offset := 0x10
def offDecInfo : Offset := 0x14
def offOutData : Offset := 0x18
def offOutLevel : Offset := 0x1C
def offConfig : Offset := 0x20

/-- The offset a bus address names, if it lies in the 64 bytes at `HTB_BASE` (R60, R71). -/
def offsetOf? (addr : Nat) : Option Offset :=
  if Config.htbBase ≤ addr ∧ addr < Config.htbBase + 64 then some (BitVec.ofNat 6 (addr - Config.htbBase)) else none

/-- The command word a block in error still executes is exactly NOP's or CLEAR's (R216). -/
def runsInError (w : Word) : Bool := w == 0x00000000 || w == 0x01000000

/-- A host write of `w` to CMD, in the order of R219: ignored while in error, illegal, or executed. DATA_IN is latched
in the same step (R39, R66). -/
def cmdWrite (w : Word) (s : State) : Result :=
  if s.err ≠ .none ∧ !runsInError w then .next s
  else
    match decode w with
    | .error _ => raise .illegalCommand s
    | .ok i => exec i s

/-- A 32-bit host write at an aligned offset (R60): CMD executes a command, DATA_IN takes the value, and every other
offset ignores it (R61). -/
def writeReg (off : Offset) (v : Word) (s : State) : Result :=
  if off = offCmd then cmdWrite v s
  else if off = offDataIn then .next { s with dataIn := v }
  else .next s

/-- The value OUT_DATA reads (R44): VALID and the first byte of OUT, or 0 if OUT is empty. -/
def State.outData (s : State) : Word :=
  match s.out with
  | [] => 0
  | b :: _ => 1#1 ++ 0#23 ++ b

/-- The value a 32-bit host read at an aligned offset returns (R39 to R47); CMD and the reserved offsets read 0 (R61). -/
def State.regValue (s : State) (off : Offset) : Word :=
  if off = offDataIn then s.dataIn
  else if off = offDataOut then s.dataOut
  else if off = offStatus then s.status
  else if off = offTreeInfo then s.treeInfo
  else if off = offDecInfo then s.decInfo
  else if off = offOutData then s.outData
  else if off = offOutLevel then s.outLevel
  else if off = offConfig then s.config
  else 0

/-- Record what a read returned (R245). -/
def State.logRead (s : State) (off : Offset) (v : Word) : State := { s with readLog := s.readLog ++ [⟨off, v⟩] }

/-- A 32-bit host read at an aligned offset: only OUT_DATA's has a side effect, the removal of its byte (R44, R64). -/
def readReg (off : Offset) (s : State) : State :=
  let t := s.logRead off (s.regValue off)
  if off = offOutData then { t with out := s.out.drop 1 } else t

/-- A host read while reset is asserted returns any value and does nothing else (R240, U9). -/
def readInReset (off : Offset) (s : State) : State :=
  { s.logRead off (Config.freeResetRead s.freeCount) with freeCount := s.freeCount + 1 }

/-- The accesses the model has a step for: 32 bits wide at a multiple of 4 (R62). -/
def aligned (off : Offset) (size : Nat) : Bool := size == 4 && off.toNat % 4 == 0

/-- One event of the host or the platform (R231, R240). While reset is asserted a write has no effect. -/
def hostStep (e : HostEvent) (s : State) : Result :=
  match e with
  | .write off size v =>
    if !aligned off size then .refused .unmodelledAccess else if s.inReset then .next s else writeReg off v s
  | .read off size =>
    if !aligned off size then .refused .unmodelledAccess
    else if s.inReset then .next (readInReset off s) else .next (readReg off s)
  | .idle => .next s
  | .reset => .next { s.resetBlock with inReset := false }
  | .assertReset => .next { s.resetBlock with inReset := true }
  | .releaseReset => .next (if s.inReset then { s.resetBlock with inReset := false } else s)

end Sys2Proof.Machine
end

