-- ==== Sys2Proof/Machine/Step.lean ====
section
/-! DEFINITION. One step: the next event of the host or the platform, or nothing if none is pending. -/

namespace Sys2Proof.Machine

/-- One step of the model is one host access (R18), taken in the order the host issues them (R73). With none pending the
block is idle, and idling changes no state (R230). -/
def step (s : State) : Host.Outcome State Fault Refusal :=
  match s.host with
  | [] => .next s
  | e :: rest => hostStep e { s with host := rest }

/-- The state in which the host's next access writes to CMD the word whose low `nbits` bits are `w`'s and whose other
bits are 0. The block fetches nothing (R76): a command comes to run because the host writes it, and the block takes a
write only while reset is not asserted (R240). -/
def State.withFetchWord (s : State) (nbits w : Nat) : State :=
  { s with host := .write offCmd 4 (BitVec.ofNat 32 (w % 2 ^ nbits)) :: s.host, inReset := false }

end Sys2Proof.Machine
end

