-- ==== Sys2Proof/Machine/HostProgram.lean ====
section
/-! DEFINITION. Host programs in the assembler form of rules R90 and R91: what accesses a line, and a pseudo-instruction,
stands for. They are what the host puts into State's list of accesses; no step reads this file. -/

namespace Sys2Proof.Machine

/-- The registers of R60 by name. -/
inductive Reg where
  | cmd | dataIn | dataOut | status | treeInfo | decInfo | outData | outLevel | config
  deriving DecidableEq, Repr

/-- The byte offset of a register (R60). -/
def Reg.offset : Reg → Offset
  | .cmd => offCmd
  | .dataIn => offDataIn
  | .dataOut => offDataOut
  | .status => offStatus
  | .treeInfo => offTreeInfo
  | .decInfo => offDecInfo
  | .outData => offOutData
  | .outLevel => offOutLevel
  | .config => offConfig

/-- One line of a host program (R90). -/
inductive HostLine where
  /-- `wr REG, v`. -/
  | wr (r : Reg) (v : Word)
  /-- `rd REG`. -/
  | rd (r : Reg)
  /-- A command with its operands. -/
  | command (l : Source)
  deriving DecidableEq, Repr

/-- The access a line stands for; none for an assembler error (R90). -/
def HostLine.event? : HostLine → Option HostEvent
  | .wr r v => some (.write r.offset 4 v)
  | .rd r => some (.read r.offset 4)
  | .command l => l.assemble.map fun i => .write offCmd 4 (encode i)

/-- `FREQ_SET B, v` (R91): the operand is written before the command (R250). -/
def freqSet (b : Byte) (v : Word) : List HostLine := [.wr .dataIn v, .command (.b .freqWr b.toNat)]

/-- One line of a format B command for each byte of a string, in order (R91). -/
def eachByte (c : BCommand) (text : List Byte) : List HostLine := text.map fun b => .command (.b c b.toNat)

/-- `COUNT_STR` (R91). -/
def countStr (text : List Byte) : List HostLine := eachByte .count text

/-- `HDR_LINE` (R91). -/
def hdrLine (text : List Byte) : List HostLine := eachByte .hdrChar text

/-- `ENC_STR` (R91). -/
def encStr (text : List Byte) : List HostLine := eachByte .encByte text

/-- `DEC_STR` (R91). -/
def decStr (text : List Byte) : List HostLine := eachByte .decChar text

/-- `DRAIN` of an OUT that holds `n` bytes (R91): the host reads until a read returns bit 31 = 0, which is the read after
the last byte (R44). -/
def drain (n : Nat) : List HostLine := List.replicate (n + 1) (.rd .outData)

/-- The encode procedure of R191 for the text `t`, before its DRAIN. -/
def encodeProcedure (t : List Byte) : List HostLine :=
  [.command (.z .clear)] ++ countStr t ++ [.command (.z .build), .command (.z .genCodes), .command (.z .hdrEnc)] ++
    encStr t

/-- The first part of the decode procedure of R196, whose last line is the host's read of STATUS. -/
def decodeProcedureHead (h : List Byte) : List HostLine :=
  [.command (.z .clear)] ++ hdrLine h ++ [.command (.z .build), .rd .status]

/-- LEAF_COUNT in a value read from STATUS, bits [27:19] (R42, R196). -/
def leafCountOf (status : Word) : Nat := (status.extractLsb' 19 9).toNat

/-- The rest of the decode procedure of R196 for the value the host read from STATUS, before its DRAIN. With at most one leaf
`P` must be empty; where it is not, the host issues `DEC_STR P`, whose first DEC_CHAR raises CORRUPT_BITSTREAM, in place of
DEC_SINGLE; DEDUCED, log 15. -/
def decodeProcedureTail (status : Word) (p : List Byte) : List HostLine :=
  if leafCountOf status ≤ 1 then (if p.isEmpty then [.command (.z .decSingle)] else decStr p)
  else decStr p ++ [.command (.z .decEnd)]

/-- The accesses of a program with no assembler error. -/
def eventsOf (p : List HostLine) : List HostEvent := p.filterMap HostLine.event?

end Sys2Proof.Machine
end

