-- ==== Sys2Proof/Safety.lean ====
section
/-! DEFINITION. The terms claims use: which commands a state allows, the invariants of the block, a run that never
faults, what a run shows, and when two trees are equal. -/

namespace Sys2Proof.Machine

/-! ### Preconditions and error codes -/

/-- The states in which a command is allowed: the table of R212. -/
def allowed (i : Instr) (s : State) : Bool :=
  match i with
  | .nop => true
  | .clear => true
  | .count _ => s.freqWritable
  | .freqWr _ => s.freqWritable
  | .freqRd _ => true
  | .buildInit => s.headerClosed
  | .mergeStep => s.tree == .building
  | .build => s.headerClosed
  | .nodeRd _ _ => true
  | .pqRd _ => true
  | .genCodes => s.buildFinished
  | .codeInfo _ => s.codesValid
  | .codeRd _ _ => s.codesValid
  | .hdrEnc => s.headerClosed
  | .hdrChar _ => s.tree == .none && s.hp != .done
  | .encByte _ => s.codesValid
  | .decChar _ => s.buildFinished
  | .decEnd => s.buildFinished
  | .decSingle => s.buildFinished && !(s.tree == .built && (s.nodeAt s.rootIdx).kind == .internal)

/-- The error codes a command may raise: the last column of R210, read by command. -/
def mayRaise : Instr → List ErrCode
  | .nop => []
  | .clear => []
  | .count _ => [.sequence, .overflow]
  | .freqWr _ => [.sequence, .overflow]
  | .freqRd _ => []
  | .buildInit => [.sequence]
  | .mergeStep => [.sequence]
  | .build => [.sequence]
  | .nodeRd _ _ => [.badArgument]
  | .pqRd _ => [.badArgument]
  | .genCodes => [.sequence]
  | .codeInfo _ => [.sequence]
  | .codeRd _ _ => [.sequence]
  | .hdrEnc => [.sequence]
  | .hdrChar _ => [.sequence, .malformedHeader, .overflow]
  | .encByte _ => [.sequence, .noCode]
  | .decChar _ => [.sequence, .corruptBitstream]
  | .decEnd => [.sequence, .corruptBitstream]
  | .decSingle => [.sequence]

/-! ### Invariants -/

/-- What the frequency table and the header parser hold in every run. -/
structure HeaderInv (s : State) : Prop where
  /-- Every entry of FREQ holds a value from 0 to FREQ_MAX (R21). -/
  freq_le : ∀ b, (s.freqAt b).toNat ≤ s.freqMax
  /-- HACC fits max(FREQ_WIDTH, 8) bits (R33). -/
  hacc_le : s.hacc.toNat ≤ max s.freqMax 255
  /-- A symbol token is at most 255 (R174). -/
  sym_le : s.hp = .sym → s.hacc.toNat ≤ 255
  /-- A frequency token is at most FREQ_MAX (R211), so that the commit of R177 cuts nothing off. -/
  token_le : s.hp = .freq → s.hacc.toNat ≤ s.freqMax
  /-- A build only starts with no header partly parsed, and then no header byte is accepted (R122, R172). -/
  closed : s.tree ≠ .none → s.headerClosed = true

/-- The leaves that BUILD_INIT makes from FREQ (R122). -/
def State.leaves (s : State) : List NodeRec := (listed s.freq).map leafOf

/-- The record at `i` is the merge of two earlier records (R24 (b), R124). -/
structure IsMerge (s : State) (i : Idx) : Prop where
  kind : (s.nodeAt i).kind = .internal
  left_lt : (s.nodeAt i).left.toNat < i.toNat
  right_lt : (s.nodeAt i).right.toNat < i.toNat
  weight : (s.nodeAt i).weight.toNat =
    (s.nodeAt (s.nodeAt i).left).weight.toNat + (s.nodeAt (s.nodeAt i).right).weight.toNat
  symbol : (s.nodeAt i).symbol = repSymbol (s.nodeAt (s.nodeAt i).left) (s.nodeAt (s.nodeAt i).right)

/-- The indices of the internal nodes, LEAF_COUNT to NODE_COUNT - 1 (R131). -/
def State.internalIdx (s : State) : List Idx :=
  (List.range' s.leafCount.toNat (s.nodeCount.toNat - s.leafCount.toNat)).map (BitVec.ofNat 9)

/-- The children of the internal nodes. -/
def State.children (s : State) : List Idx :=
  s.internalIdx.flatMap fun i => [(s.nodeAt i).left, (s.nodeAt i).right]

/-- What the node store, the queue and the tree registers hold in every run (R24, R28 to R31, R130 to R132). -/
structure TreeInv (s : State) : Prop where
  none_shape : s.tree = .none → s.nodeCount = 0 ∧ s.pq = [] ∧ s.leafCount = 0
  empty_shape : s.tree = .empty → s.nodeCount = 0 ∧ s.pq = [] ∧ s.leafCount = 0
  /-- BUILDING means that merges are pending (R31). -/
  building_len : s.tree = .building → 2 ≤ s.pq.length
  /-- BUILT means that the queue holds the root alone (R131). -/
  built_queue : s.tree = .built → s.pq = [s.rootIdx]
  /-- In every other tree state ROOT_IDX is 0 (R29), and so is DEC_CUR. -/
  unbuilt_regs : s.tree ≠ .built → s.rootIdx = 0 ∧ s.decCur = 0
  /-- There is one leaf for each symbol with non-zero frequency (R24 (d), R30). -/
  leaf_count : s.tree ≠ .none → s.leafCount.toNat = s.leaves.length
  /-- The first records are the leaves, in ascending symbol order (R24 (a), R131). -/
  leaf_recs : s.tree ≠ .none → ∀ i (h : i < s.leaves.length), s.nodeAt (BitVec.ofNat 9 i) = s.leaves[i]
  /-- Each merge adds a record and takes an entry from the queue (R123). -/
  count : s.nodeCount.toNat + s.pq.length = 2 * s.leafCount.toNat
  /-- Every other record is a merge of two earlier ones (R24 (b)). -/
  merges : ∀ i : Idx, s.leafCount.toNat ≤ i.toNat → i.toNat < s.nodeCount.toNat → IsMerge s i
  pq_defined : ∀ k ∈ s.pq, k.toNat < s.nodeCount.toNat
  /-- The queued nodes carry pairwise distinct symbols (R130 (c)). -/
  pq_symbols : (s.pq.map fun k => (s.nodeAt k).symbol).Nodup
  /-- The queue is strictly ascending by key (R28). -/
  pq_sorted : s.pq.Pairwise fun a b => keyLt (s.nodeAt a) (s.nodeAt b) = true
  /-- Merging keeps the sum of the queued weights, which is the sum of the frequencies (R131). -/
  pq_weight : s.tree ≠ .none →
    (s.pq.map fun k => (s.nodeAt k).weight.toNat).sum = (s.leaves.map fun n => n.weight.toNat).sum
  /-- No node is queued twice, is queued and a child, or is the child of two nodes (R24 (c), R130 (a)). -/
  once : (s.pq ++ s.children).Nodup
  /-- The decoder stands at the root or at an internal node (R192). -/
  cursor : s.tree = .built →
    s.decCur = s.rootIdx ∨ (s.decCur.toNat < s.nodeCount.toNat ∧ (s.nodeAt s.decCur).kind = .internal)

/-- What the code table holds in every run (R32, R150). -/
structure CodeInv (s : State) : Prop where
  invalid : s.codesValid = false → s.codes = blankCodes
  valid : s.codesValid = true → s.buildFinished = true ∧ s.generatedCodes = .ok s.codes

/-- The invariant of the block. -/
structure Inv (s : State) : Prop where
  header : HeaderInv s
  tree : TreeInv s
  codes : CodeInv s
  /-- BUSY reads 0 between steps (R38). -/
  idle : s.busy = false

/-- A state from which the next step is no fault. -/
def StepSafe (s : State) : Prop := ∀ e, step s ≠ .fault e

/-! ### Runs -/

/-- The clean-entry state of a run (R244). -/
structure CleanEntry (s : State) : Prop where
  err : s.err = .none
  tree : s.tree = .none
  hp : s.hp = .idle
  codesValid : s.codesValid = false
  nodeCount : s.nodeCount = 0
  pq : s.pq = []
  freq : ∀ b, s.freqAt b = 0
  out : s.out = []

/-- The byte a read of OUT_DATA returned with VALID = 1 (R44). -/
def ReadRecord.outByte? (r : ReadRecord) : Option Byte :=
  if r.off = offOutData ∧ r.value.getLsbD 31 then some (r.value.setWidth 8) else none

/-- Part (a) of a run's observation (R245): the bytes its OUT_DATA reads returned, followed by what is left in OUT. What
an access while reset is asserted returned means nothing there (R245). -/
def State.output (s : State) : List Byte := s.readLog.filterMap ReadRecord.outByte? ++ s.out

/-- Run commands one after another by their meanings, from a state with no error, until one does not answer a next
state. -/
def execAll : List Instr → State → Result
  | [], s => .next s
  | i :: is, s => andThen (exec i s) (execAll is)

/-! ### Trees -/

/-- A tree with no node indices, the source's TreeNode (R23, R51). -/
inductive Tree where
  | leaf (symbol : Byte) (weight : Nat)
  | node (symbol : Byte) (weight : Nat) (left right : Tree)
  deriving DecidableEq, Repr

/-- The subtree at a node index, if its records are defined and it is at most `fuel` levels deep. Two trees are equal
in the sense of R51 iff these values are equal. -/
def State.subtree? (s : State) : (fuel : Nat) → Idx → Option Tree
  | 0, _ => none
  | fuel + 1, i =>
    match s.node? i with
    | none => none
    | some n =>
      match n.kind with
      | .leaf => some (.leaf n.symbol n.weight.toNat)
      | .internal =>
        match s.subtree? fuel n.left, s.subtree? fuel n.right with
        | some l, some r => some (.node n.symbol n.weight.toNat l r)
        | _, _ => none

/-- The finished tree of a state. -/
def State.tree? (s : State) : Option Tree :=
  if s.tree = .built then s.subtree? (Config.maxCodeLen + 1) s.rootIdx else none

/-- The node that the branch bits `path` lead to from node `i`: 1 is right and 0 is left (R152, R193). -/
def State.follow (s : State) : List Bool → Idx → Option Idx
  | [], i => some i
  | b :: bs, i =>
    match s.node? i with
    | none => none
    | some n =>
      match n.kind with
      | .leaf => none
      | .internal => s.follow bs (if b then n.right else n.left)

/-- The characters of a code as bits, root first: bit k of CODE_BITS for k < CODE_LEN (R32). -/
def CodeEntry.path (e : CodeEntry) : List Bool := (List.range e.len.toNat).map fun k => e.bits.getLsbD k

/-- Two states that differ at most in node records that hold no defined value (R27). -/
structure SameDefined (s t : State) : Prop where
  rest : t = { s with node := t.node }
  recs : ∀ i : Idx, i.toNat < s.nodeCount.toNat → t.nodeAt i = s.nodeAt i

end Sys2Proof.Machine
end

