-- ==== Sys2Proof/Certificates/Slice0/Obligations.lean ====
section
/-! DEFINITION. The statements about the model, each from the rules its docstring names. A statement about a meaning
takes ERR = 0 where the rule speaks of an error, since a command that runs at all with ERR not 0 is NOP or CLEAR (R216). -/

open Sys2Proof Sys2Proof.Machine

/-! ### Encoding (30_encoding.md) -/

/-- R82, R84, R86: decoding the word of any command gives that command, with every operand at every value. -/
def Obligations.DecodeOfEncodeIsIdentity : Prop :=
  ∀ i : Instr, decode (encode i) = .ok i

/-- R84: `(w AND mask) = match` finds the command of a word, no word is accepted by two rows, since each row fixes OPC, and
a word that decodes to a command is that command's only word. -/
def Obligations.OneRowDecidesAWord : Prop :=
  (∀ r ∈ opcodeMap, r.mask.extractLsb' 24 8 = 0xFF) ∧
  (opcodeMap.Pairwise fun r q => ∀ w, ¬ (w &&& r.mask = r.pattern ∧ w &&& q.mask = q.pattern)) ∧
  (∀ (w : Word) (i : Instr), decode w = .ok i ↔ ∃ r ∈ opcodeMap, w &&& r.mask = r.pattern ∧ i = r.build w) ∧
  ∀ (w : Word) (i : Instr), decode w = .ok i → encode i = w

/-- R92: the example words that R92 writes out decode to their commands, and its illegal words to none. -/
def Obligations.ExampleWordsDecode : Prop :=
  decode 0x00000000 = .ok .nop ∧ decode 0x01000000 = .ok .clear ∧ decode 0x08000020 = .ok (.count 0x20) ∧
  decode 0x09000064 = .ok (.freqWr 0x64) ∧ decode 0x0A0000FF = .ok (.freqRd 255) ∧
  decode 0x10000000 = .ok .buildInit ∧ decode 0x11000000 = .ok .mergeStep ∧ decode 0x12000000 = .ok .build ∧
  decode 0x13020008 = .ok (.nodeRd 8 2) ∧ decode 0x130101FE = .ok (.nodeRd 510 1) ∧
  decode 0x140000FF = .ok (.pqRd 255) ∧ decode 0x20000000 = .ok .genCodes ∧ decode 0x21000061 = .ok (.codeInfo 0x61) ∧
  decode 0x22070000 = .ok (.codeRd 0 7) ∧ decode 0x30000000 = .ok .hdrEnc ∧ decode 0x3100000A = .ok (.hdrChar 0x0A) ∧
  decode 0x40000062 = .ok (.encByte 0x62) ∧ decode 0x41000031 = .ok (.decChar 0x31) ∧
  decode 0x42000000 = .ok .decEnd ∧ decode 0x43000000 = .ok .decSingle ∧
  decode 0x08000100 = .error .mustBeZero ∧ decode 0x13040000 = .error .mustBeZero ∧
  decode 0x22080000 = .error .mustBeZero ∧ decode 0x00000001 = .error .mustBeZero ∧
  decode 0x02000000 = .error .reservedOpcode

/-- R83, R90: a command line assembles to its mnemonic's command with the line's operands exactly if B is below 256, CHUNK
below 8, POS and IDX below 512 and SEL below 4, and no word it assembles to is illegal. -/
def Obligations.AssemblerEmitsNoIllegalWord : Prop :=
  ((Source.z .nop).assemble = some .nop ∧ (Source.z .clear).assemble = some .clear ∧
    (Source.z .buildInit).assemble = some .buildInit ∧ (Source.z .mergeStep).assemble = some .mergeStep ∧
    (Source.z .build).assemble = some .build ∧ (Source.z .genCodes).assemble = some .genCodes ∧
    (Source.z .hdrEnc).assemble = some .hdrEnc ∧ (Source.z .decEnd).assemble = some .decEnd ∧
    (Source.z .decSingle).assemble = some .decSingle) ∧
  (∀ n, n < 256 → ∃ b : Byte, b.toNat = n ∧
    (Source.b .count n).assemble = some (.count b) ∧ (Source.b .freqWr n).assemble = some (.freqWr b) ∧
    (Source.b .freqRd n).assemble = some (.freqRd b) ∧ (Source.b .codeInfo n).assemble = some (.codeInfo b) ∧
    (Source.b .hdrChar n).assemble = some (.hdrChar b) ∧ (Source.b .encByte n).assemble = some (.encByte b) ∧
    (Source.b .decChar n).assemble = some (.decChar b)) ∧
  (∀ c n, 256 ≤ n → (Source.b c n).assemble = none) ∧
  (∀ n k, n < 256 → k < 8 → ∃ (b : Byte) (c : BitVec 3), b.toNat = n ∧ c.toNat = k ∧
    (Source.bc n k).assemble = some (.codeRd b c)) ∧
  (∀ n k, 256 ≤ n ∨ 8 ≤ k → (Source.bc n k).assemble = none) ∧
  (∀ n, n < 512 → ∃ p : Idx, p.toNat = n ∧ (Source.i n).assemble = some (.pqRd p)) ∧
  (∀ n, 512 ≤ n → (Source.i n).assemble = none) ∧
  (∀ n k, n < 512 → k < 4 → ∃ (i : Idx) (c : BitVec 2), i.toNat = n ∧ c.toNat = k ∧
    (Source.is n k).assemble = some (.nodeRd i c)) ∧
  (∀ n k, 512 ≤ n ∨ 4 ≤ k → (Source.is n k).assemble = none) ∧
  ∀ (l : Source) (i : Instr), l.assemble = some i → decode (encode i) = .ok i

/-! ### The CMD register (10_state.md R39, 60_exceptions.md R216, R219) -/

/-- R39, R84: a CMD write runs the command its word decodes to, in the state with that access taken from the host's
list; the block keeps no program counter. While ERR is not 0 this holds of NOP and CLEAR (R216). -/
def Obligations.StepRunsDecodedCommand : Prop :=
  ∀ (s : State) (w : Word) (i : Instr) (rest : List HostEvent),
    s.host = .write offCmd 4 w :: rest → s.inReset = false → decode w = .ok i →
    (s.err = .none ∨ i = .nop ∨ i = .clear) → step s = exec i { s with host := rest }

/-- R85, R216: a word that matches no row raises ILLEGAL_COMMAND and has no other effect; while ERR is not 0 every word
but the words of NOP and CLEAR, legal or illegal, is ignored with no effect at all. -/
def Obligations.IllegalAndIgnoredWords : Prop :=
  ∀ (s : State) (w : Word) (rest : List HostEvent), s.host = .write offCmd 4 w :: rest → s.inReset = false →
    (s.err = .none → (∀ r ∈ opcodeMap, w &&& r.mask ≠ r.pattern) →
      step s = .next { s with host := rest, err := .illegalCommand }) ∧
    (s.err ≠ .none → w ≠ 0x00000000 → w ≠ 0x01000000 → step s = .next { s with host := rest })

/-! ### The other registers (10_state.md R40 to R47, 20_memory.md) -/

/-- R42, R43, R45: the fields of STATUS, TREEINFO and DECINFO, with every unnamed bit 0; R23, R31, R33, R210: the numbers
that the node kinds, the tree states, the header states and the error codes read as. -/
def Obligations.StatusRegistersShowTheirFields : Prop :=
  (∀ s : State, s.pq.length ≤ 256 →
    s.status.extractLsb' 0 4 = s.err.code ∧ s.status.extractLsb' 4 3 = s.hp.code ∧
    s.status.extractLsb' 7 2 = s.tree.code ∧ s.status.getLsbD 9 = s.codesValid ∧
    (s.status.extractLsb' 10 9).toNat = s.pq.length ∧ s.status.extractLsb' 19 9 = s.leafCount ∧
    s.status.extractLsb' 28 3 = 0 ∧ s.status.getLsbD 31 = s.busy ∧
    s.treeInfo.extractLsb' 0 9 = s.nodeCount ∧ s.treeInfo.extractLsb' 9 7 = 0 ∧
    s.treeInfo.extractLsb' 16 9 = s.rootIdx ∧ s.treeInfo.extractLsb' 25 7 = 0 ∧
    s.decInfo.extractLsb' 0 9 = s.decCur ∧ s.decInfo.extractLsb' 9 22 = 0 ∧
    (s.decInfo.getLsbD 31 = true ↔ s.tree = .built ∧ s.decCur = s.rootIdx)) ∧
  (NodeKind.leaf.code = 0 ∧ NodeKind.internal.code = 1) ∧
  (TreeState.none.code = 0 ∧ TreeState.building.code = 1 ∧ TreeState.empty.code = 2 ∧ TreeState.built.code = 3) ∧
  (HdrState.idle.code = 0 ∧ HdrState.sym.code = 1 ∧ HdrState.sepF.code = 2 ∧ HdrState.freq.code = 3 ∧
    HdrState.sepS.code = 4 ∧ HdrState.done.code = 5) ∧
  (ErrCode.none.code = 0 ∧ ErrCode.malformedHeader.code = 1 ∧ ErrCode.corruptBitstream.code = 2 ∧
    ErrCode.overflow.code = 3 ∧ ErrCode.illegalCommand.code = 4 ∧ ErrCode.badArgument.code = 5 ∧
    ErrCode.sequence.code = 6 ∧ ErrCode.noCode.code = 7)

/-- R39 to R43, R45 to R47, R61, R64: a read of any register but OUT_DATA returns its value, 0 for CMD and the reserved
offsets, and changes nothing but the record of what was read. -/
def Obligations.ReadsReturnTheRegister : Prop :=
  ∀ (s : State) (off : Offset) (rest : List HostEvent),
    s.host = .read off 4 :: rest → s.inReset = false → off.toNat % 4 = 0 → off ≠ offOutData →
    ∃ v : Word, step s = .next { s with host := rest, readLog := s.readLog ++ [⟨off, v⟩] } ∧
      (off = 0x00 → v = 0) ∧ (off = 0x04 → v = s.dataIn) ∧ (off = 0x08 → v = s.dataOut) ∧
      (off = 0x0C → v = s.status) ∧ (off = 0x10 → v = s.treeInfo) ∧ (off = 0x14 → v = s.decInfo) ∧
      (off = 0x1C → v.toNat = min s.out.length 0xFFFFFFFF) ∧ (off = 0x20 → v.toNat = s.freqWidth.bits) ∧
      (0x24 ≤ off.toNat → v = 0)

/-- R44: a read of OUT_DATA returns VALID and the first byte of OUT and removes it, or returns 0 and removes nothing. -/
def Obligations.OutDataReadTakesTheFirstByte : Prop :=
  ∀ (s : State) (rest : List HostEvent), s.host = .read 0x18 4 :: rest → s.inReset = false →
    (s.out = [] → step s = .next { s with host := rest, readLog := s.readLog ++ [⟨0x18, 0⟩] }) ∧
    ∀ (b : Byte) (bs : List Byte), s.out = b :: bs →
      ∃ v : Word, step s = .next { s with host := rest, out := bs, readLog := s.readLog ++ [⟨0x18, v⟩] } ∧
        v.getLsbD 31 = true ∧ v.extractLsb' 8 23 = 0 ∧ v.extractLsb' 0 8 = b

/-- R40, R61: a write to DATA_IN is stored, and a write to a read-only register or a reserved offset has no effect. -/
def Obligations.WritesOutsideCmd : Prop :=
  ∀ (s : State) (off : Offset) (v : Word) (rest : List HostEvent),
    s.host = .write off 4 v :: rest → s.inReset = false → off.toNat % 4 = 0 →
    (off = 0x04 → step s = .next { s with host := rest, dataIn := v }) ∧
    (off ≠ 0x00 → off ≠ 0x04 → step s = .next { s with host := rest })

/-- R62: the model has no step for an access that is not 32 bits wide at a multiple of 4. That it refuses one by the name
`unmodelledAccess`, in reset as well, is the model's choice (log 10). -/
def Obligations.NarrowOrMisalignedAccessIsRefused : Prop :=
  ∀ (s : State) (off : Offset) (size : Nat) (v : Word) (rest : List HostEvent),
    (size ≠ 4 ∨ off.toNat % 4 ≠ 0) →
    (s.host = .write off size v :: rest → step s = .refused .unmodelledAccess) ∧
    (s.host = .read off size :: rest → step s = .refused .unmodelledAccess)

/-! ### Reset (70_reset_and_hazards.md) -/

/-- R241: what the host-visible registers read after reset, and that no error, tree, header or code is left, for every
FREQ_WIDTH (R7) and whatever the node records hold (R27). The reset state of the model itself has the default FREQ_WIDTH of
R6 (log 1) and zero records (log 3). -/
def Obligations.ResetRegisterValues : Prop :=
  (∀ (w : Config.FreqWidth) (v : Vector NodeRec Config.nodeCap),
    let s := { State.reset with freqWidth := w, node := v }
    s.regValue offCmd = 0 ∧ s.dataIn = 0 ∧ s.dataOut = 0 ∧ s.status = 0 ∧ s.treeInfo = 0 ∧ s.decInfo = 0 ∧
      s.outData = 0 ∧ s.outLevel = 0 ∧ s.config.toNat = w.bits ∧ (∀ b, s.freqAt b = 0) ∧
      (∀ b, s.codeAt b = ⟨false, 0, 0⟩) ∧ s.hacc = 0 ∧ s.hsym = 0) ∧
  State.reset.config = 0x00000020

/-- R240, R241: a reset during a run is one step that gives every element of the block its reset value, whatever the
block was doing, and so are the assertion of reset and its release; CONFIG is hardwired. While reset is asserted a host write
has no effect, and a host read returns some value and does nothing else. The node records are left out: R241 gives them no
value (log 3). The flag `inReset`, the counter `freeCount` and that a release with reset not asserted does nothing are the
model's own (log 7). -/
def Obligations.ResetSetsTheResetState : Prop :=
  ∀ (s : State) (rest : List HostEvent),
    (s.host = .reset :: rest → ∃ t, step s = .next t ∧
      t = { State.reset with node := t.node, freqWidth := s.freqWidth, host := rest, readLog := s.readLog,
                             freeCount := s.freeCount }) ∧
    (s.host = .assertReset :: rest → ∃ t, step s = .next t ∧
      t = { State.reset with node := t.node, freqWidth := s.freqWidth, host := rest, readLog := s.readLog,
                             freeCount := s.freeCount, inReset := true }) ∧
    (s.host = .releaseReset :: rest → (s.inReset = true → ∃ t, step s = .next t ∧
      t = { State.reset with node := t.node, freqWidth := s.freqWidth, host := rest, readLog := s.readLog,
                             freeCount := s.freeCount }) ∧
      (s.inReset = false → step s = .next { s with host := rest })) ∧
    ∀ (off : Offset) (v : Word), s.inReset = true → off.toNat % 4 = 0 →
      (s.host = .write off 4 v :: rest → step s = .next { s with host := rest }) ∧
      (s.host = .read off 4 :: rest →
        ∃ u n, step s = .next { s with host := rest, readLog := s.readLog ++ [⟨off, u⟩], freeCount := n })

/-! ### Errors (60_exceptions.md) -/

/-- R210, R214: a command that raises an error changes nothing but ERR, and raises only a code that the table of R210
lists it for. -/
def Obligations.ErrorsChangeOnlyErr : Prop :=
  ∀ (i : Instr) (s t : State), s.err = .none → exec i s = .next t → t.err ≠ .none →
    t = { s with err := t.err } ∧ t.err ∈ mayRaise i

/-- R212: a command is answered with SEQUENCE exactly in the states where the table of R212 does not allow it. -/
def Obligations.SequenceExactlyWhenNotAllowed : Prop :=
  ∀ (i : Instr) (s : State), TreeInv s → s.err = .none →
    (allowed i s = false → exec i s = .next { s with err := .sequence }) ∧
    (allowed i s = true → ∀ t, exec i s = .next t → t.err ≠ .sequence)

/-- R218: CLEAR and reset are the only ways to make ERR 0. -/
def Obligations.OnlyClearAndResetEndAnError : Prop :=
  ∀ s t : State, s.err ≠ .none → step s = .next t → t.err = .none →
    ∃ e rest, s.host = e :: rest ∧
      (e = .reset ∨ e = .assertReset ∨ e = .releaseReset ∨ e = .write offCmd 4 0x01000000)

/-! ### Control commands (40_control.md) -/

/-- R100: NOP writes no state, and executes even while ERR is not 0. -/
def Obligations.NopChangesNothing : Prop :=
  (∀ s : State, exec .nop s = .next s) ∧
  ∀ (s : State) (rest : List HostEvent), s.host = .write offCmd 4 0x00000000 :: rest → s.inReset = false →
    step s = .next { s with host := rest }

/-- R101, R102: CLEAR discards all per-input state and the error, and changes nothing else: not OUT, DATA_IN, the node
records or CONFIG. -/
def Obligations.ClearDiscardsTheInputState : Prop :=
  ∀ s : State, ∃ t, exec .clear s = .next t ∧
    t = { s with freq := t.freq, codes := t.codes, nodeCount := 0, pq := [], rootIdx := 0, leafCount := 0,
                 tree := .none, codesValid := false, hp := .idle, hacc := 0, hsym := 0, decCur := 0, dataOut := 0,
                 err := .none } ∧
    (∀ b, t.freqAt b = 0 ∧ t.codeAt b = ⟨false, 0, 0⟩) ∧
    (s.busy = false → t.status = 0 ∧ t.treeInfo = 0 ∧ t.decInfo = 0)

/-- R103, R244: CLEAR and reset differ in exactly OUT and DATA_IN, and both leave a clean-entry state, CLEAR once OUT is
drained; the node records hold no defined value after either (R27). -/
def Obligations.ClearAgainstReset : Prop :=
  ∀ (s : State) (rest : List HostEvent), s.busy = false → s.inReset = false → s.host = .reset :: rest →
    ∃ t u, exec .clear { s with host := rest } = .next t ∧ step s = .next u ∧
      u = { t with out := [], dataIn := 0, node := u.node } ∧ CleanEntry u ∧ CleanEntry { t with out := [] }

/-! ### Frequency table commands (41_frequency.md) -/

/-- R110: COUNT adds one to FREQ[B] and changes nothing else, or raises SEQUENCE or OVERFLOW. -/
def Obligations.CountAddsOne : Prop :=
  ∀ (b : Byte) (s : State), HeaderInv s → s.err = .none →
    ((s.tree ≠ .none ∨ s.hp ≠ .idle) → exec (.count b) s = .next { s with err := .sequence }) ∧
    (s.tree = .none → s.hp = .idle → (s.freqAt b).toNat = s.freqMax →
      exec (.count b) s = .next { s with err := .overflow }) ∧
    (s.tree = .none → s.hp = .idle → (s.freqAt b).toNat ≠ s.freqMax →
      ∃ t, exec (.count b) s = .next t ∧ t = { s with freq := t.freq } ∧
        (t.freqAt b).toNat = (s.freqAt b).toNat + 1 ∧ ∀ c, c ≠ b → t.freqAt c = s.freqAt c)

/-- R111: after CLEAR, n COUNT commands with no error leave a table that sums to n. -/
def Obligations.CountsSumToTheirNumber : Prop :=
  ∀ (s t : State) (bs : List Byte), execAll (.clear :: bs.map .count) s = .next t → t.err = .none →
    (symbols.map fun b => (t.freqAt b).toNat).sum = bs.length

/-- R112: FREQ_WR writes DATA_IN to FREQ[B] and changes nothing else, or raises SEQUENCE or OVERFLOW. -/
def Obligations.FreqWrWritesDataIn : Prop :=
  ∀ (b : Byte) (s : State), s.err = .none →
    ((s.tree ≠ .none ∨ s.hp ≠ .idle) → exec (.freqWr b) s = .next { s with err := .sequence }) ∧
    (s.tree = .none → s.hp = .idle → s.freqMax < s.dataIn.toNat →
      exec (.freqWr b) s = .next { s with err := .overflow }) ∧
    (s.tree = .none → s.hp = .idle → s.dataIn.toNat ≤ s.freqMax →
      ∃ t, exec (.freqWr b) s = .next t ∧ t = { s with freq := t.freq } ∧
        t.freqAt b = s.dataIn ∧ ∀ c, c ≠ b → t.freqAt c = s.freqAt c)

/-- R113: FREQ_RD reads FREQ[B] into DATA_OUT in every TREE and HP state and changes nothing else. -/
def Obligations.FreqRdReadsTheEntry : Prop :=
  ∀ (b : Byte) (s : State), exec (.freqRd b) s = .next { s with dataOut := s.freqAt b }

/-! ### Tree builder (42_tree_builder.md) -/

/-- R122: BUILD_INIT makes a leaf of each symbol with non-zero frequency, in ascending symbol order, queues them all in
ascending key order, and discards the codes; with n leaves TREE is EMPTY, BUILT or BUILDING. -/
def Obligations.BuildInitMakesTheLeaves : Prop :=
  ∀ s : State, s.err = .none →
    (s.headerClosed = false → exec .buildInit s = .next { s with err := .sequence }) ∧
    (s.headerClosed = true → ∃ t, exec .buildInit s = .next t ∧
      let syms := symbols.filter fun b => s.freqAt b ≠ 0
      t = { s with node := t.node, nodeCount := BitVec.ofNat 9 syms.length, leafCount := BitVec.ofNat 9 syms.length,
                   pq := t.pq, rootIdx := 0, decCur := 0, codesValid := false, codes := t.codes, tree := t.tree } ∧
      t.nodeCount.toNat = syms.length ∧
      (∀ i : Idx, (t.nodeAt i) = if h : i.toNat < syms.length
        then ⟨.leaf, syms[i.toNat], (s.freqAt syms[i.toNat]).setWidth 40, 0, 0⟩ else s.nodeAt i) ∧
      t.pq.Perm (indicesBelow syms.length) ∧ (t.pq.Pairwise fun a b => keyLt (t.nodeAt a) (t.nodeAt b) = true) ∧
      (∀ b, t.codeAt b = ⟨false, 0, 0⟩) ∧
      (syms.length = 0 → t.tree = .empty) ∧ (syms.length = 1 → t.tree = .built) ∧
      (2 ≤ syms.length → t.tree = .building))

/-- R124: MERGE_STEP pops the two least nodes and queues their merge, the first popped one the left child, with the
representative symbol of R124 (90_conflicts.md C1); the merge that leaves one entry finishes the tree. -/
def Obligations.MergeStepMergesTheTwoLeast : Prop :=
  ∀ s : State, HeaderInv s → TreeInv s → s.err = .none →
    (s.tree ≠ .building → exec .mergeStep s = .next { s with err := .sequence }) ∧
    (s.tree = .building → ∃ a b rest t, s.pq = a :: b :: rest ∧ exec .mergeStep s = .next t ∧
      t = { s with node := t.node, nodeCount := t.nodeCount, pq := t.pq, tree := t.tree, rootIdx := t.rootIdx,
                   decCur := t.decCur } ∧
      t.nodeCount.toNat = s.nodeCount.toNat + 1 ∧
      (∀ i : Idx, i ≠ s.nodeCount → t.nodeAt i = s.nodeAt i) ∧
      (t.nodeAt s.nodeCount).kind = .internal ∧
      (t.nodeAt s.nodeCount).weight.toNat = (s.nodeAt a).weight.toNat + (s.nodeAt b).weight.toNat ∧
      (t.nodeAt s.nodeCount).left = a ∧ (t.nodeAt s.nodeCount).right = b ∧
      ((s.nodeAt b).weight = (s.nodeAt a).weight → (t.nodeAt s.nodeCount).symbol = (s.nodeAt a).symbol) ∧
      ((s.nodeAt b).weight ≠ (s.nodeAt a).weight →
        (t.nodeAt s.nodeCount).symbol.toNat = max (s.nodeAt a).symbol.toNat (s.nodeAt b).symbol.toNat) ∧
      t.pq.Perm (s.nodeCount :: rest) ∧ (t.pq.Pairwise fun x y => keyLt (t.nodeAt x) (t.nodeAt y) = true) ∧
      (rest = [] → t.tree = .built ∧ t.rootIdx = s.nodeCount ∧ t.decCur = s.nodeCount) ∧
      (rest ≠ [] → t.tree = .building ∧ t.rootIdx = s.rootIdx ∧ t.decCur = s.decCur))

/-- R126: BUILD gives the state that BUILD_INIT followed by n - 1 MERGE_STEP commands gives, with TREE EMPTY or BUILT, and
writes what they write. -/
def Obligations.BuildIsInitThenMerges : Prop :=
  ∀ s : State, HeaderInv s → s.err = .none →
    (s.headerClosed = false → exec .build s = .next { s with err := .sequence }) ∧
    (s.headerClosed = true → ∃ t, exec .build s = .next t ∧ (t.tree = .empty ∨ t.tree = .built) ∧
      t = { s with node := t.node, nodeCount := t.nodeCount, leafCount := t.leafCount, pq := t.pq, rootIdx := t.rootIdx,
                   decCur := t.decCur, codesValid := false, codes := t.codes, tree := t.tree } ∧
      execAll (.buildInit :: List.replicate ((symbols.filter fun b => s.freqAt b ≠ 0).length - 1) .mergeStep) s =
        .next t)

/-- R127: NODE_RD reads the selected word of a defined record into DATA_OUT, or raises BAD_ARGUMENT. -/
def Obligations.NodeRdReadsTheRecord : Prop :=
  ∀ (idx : Idx) (sel : BitVec 2) (s : State), s.err = .none →
    ((s.nodeCount.toNat ≤ idx.toNat ∨ sel = 3) → exec (.nodeRd idx sel) s = .next { s with err := .badArgument }) ∧
    (idx.toNat < s.nodeCount.toNat → sel ≠ 3 → ∃ v, exec (.nodeRd idx sel) s = .next { s with dataOut := v } ∧
      (sel = 0 → v = (s.nodeAt idx).weight.extractLsb' 0 32) ∧
      (sel = 1 → v.toNat = (s.nodeAt idx).weight.toNat / 2 ^ 32) ∧
      (sel = 2 → v.getLsbD 31 = true ∧ v.extractLsb' 30 1 = (s.nodeAt idx).kind.code ∧ v.extractLsb' 26 4 = 0 ∧
        v.extractLsb' 17 9 = (s.nodeAt idx).right ∧ v.extractLsb' 8 9 = (s.nodeAt idx).left ∧
        v.extractLsb' 0 8 = (s.nodeAt idx).symbol))

/-- R128: PQ_RD reads the node index at a queue position into DATA_OUT, or raises BAD_ARGUMENT. -/
def Obligations.PqRdReadsThePosition : Prop :=
  ∀ (pos : Idx) (s : State), s.err = .none →
    (s.pq.length ≤ pos.toNat → exec (.pqRd pos) s = .next { s with err := .badArgument }) ∧
    ∀ h : pos.toNat < s.pq.length, exec (.pqRd pos) s = .next { s with dataOut := (s.pq[pos.toNat]).setWidth 32 }

/-- R131, R35: the shape of a finished build, and the decoder at its root. -/
def Obligations.FinishedBuildShape : Prop :=
  ∀ s t : State, HeaderInv s → s.err = .none → s.headerClosed = true → exec .build s = .next t →
    let syms := symbols.filter fun b => s.freqAt b ≠ 0
    (syms.length = 0 → t.nodeCount = 0 ∧ t.pq = [] ∧ t.tree = .empty) ∧
    (1 ≤ syms.length → t.tree = .built ∧ t.nodeCount.toNat = 2 * syms.length - 1 ∧
      t.rootIdx.toNat = 2 * syms.length - 2 ∧ t.pq = [t.rootIdx] ∧ t.decCur = t.rootIdx ∧
      (t.nodeAt t.rootIdx).weight.toNat = (symbols.map fun b => (s.freqAt b).toNat).sum ∧
      (∀ i : Idx, i.toNat < syms.length → (t.nodeAt i).kind = .leaf ∧ some (t.nodeAt i).symbol = syms[i.toNat]?) ∧
      ∀ i : Idx, syms.length ≤ i.toNat → i.toNat < t.nodeCount.toNat → (t.nodeAt i).kind = .internal)

/-- R131: every leaf of a finished tree is reachable from the root, and along exactly one path. -/
def Obligations.EveryLeafIsReachedOnce : Prop :=
  ∀ (s : State) (i : Idx), TreeInv s → s.tree = .built → i.toNat < s.leafCount.toNat →
    ∃ path, s.follow path s.rootIdx = some i ∧ ∀ q, s.follow q s.rootIdx = some i → q = path

/-- R129: two builds from equal FREQ contents give identical records, queue and root, hence equal trees (R51). -/
def Obligations.BuildIsDeterministic : Prop :=
  ∀ s s' t t' : State, HeaderInv s → s.freq = s'.freq → s.freqWidth = s'.freqWidth → s.err = .none →
    s'.err = .none → s.headerClosed = true → s'.headerClosed = true →
    exec .build s = .next t → exec .build s' = .next t' →
    t.nodeCount = t'.nodeCount ∧ (∀ i : Idx, i.toNat < t.nodeCount.toNat → t.nodeAt i = t'.nodeAt i) ∧ t.pq = t'.pq ∧
      t.rootIdx = t'.rootIdx ∧ t.tree? = t'.tree?

/-! ### Code generator (43_code_generator.md) -/

/-- R150, R152, R155: GEN_CODES gives each leaf's symbol the bits of a path from the root to that leaf and every other
symbol no code; it sets CODES_VALID and changes nothing else. -/
def Obligations.GenCodesRecordsRootPaths : Prop :=
  ∀ s : State, TreeInv s → s.err = .none →
    ((s.tree = .none ∨ s.tree = .building) → exec .genCodes s = .next { s with err := .sequence }) ∧
    (s.tree = .empty → ∃ t, exec .genCodes s = .next t ∧ t = { s with codes := t.codes, codesValid := true } ∧
      ∀ b, t.codeAt b = ⟨false, 0, 0⟩) ∧
    (s.tree = .built → ∃ t, exec .genCodes s = .next t ∧ t = { s with codes := t.codes, codesValid := true } ∧
      (∀ path i, s.follow path s.rootIdx = some i → (s.nodeAt i).kind = .leaf →
        (t.codeAt (s.nodeAt i).symbol).valid = true ∧ (t.codeAt (s.nodeAt i).symbol).len.toNat = path.length ∧
        ∀ k, (t.codeAt (s.nodeAt i).symbol).bits.getLsbD k = path.getD k false) ∧
      ∀ b, (∀ path i, s.follow path s.rootIdx = some i → (s.nodeAt i).kind = .leaf → (s.nodeAt i).symbol ≠ b) →
        t.codeAt b = ⟨false, 0, 0⟩)

/-- R153, R154: with n >= 2 leaves every code has length from 1 to n - 1; the code of a single leaf is empty. -/
def Obligations.CodeLengthsAreBounded : Prop :=
  ∀ (s : State) (b : Byte), Inv s → s.codesValid = true → (s.codeAt b).valid = true →
    (2 ≤ s.leafCount.toNat → 1 ≤ (s.codeAt b).len.toNat ∧ (s.codeAt b).len.toNat ≤ s.leafCount.toNat - 1) ∧
    (s.leafCount.toNat = 1 → (s.codeAt b).len = 0)

/-- R156: CODE_INFO reads the presence and the length of a code into DATA_OUT, or raises SEQUENCE. -/
def Obligations.CodeInfoReadsPresenceAndLength : Prop :=
  ∀ (b : Byte) (s : State), s.err = .none →
    (s.codesValid = false → exec (.codeInfo b) s = .next { s with err := .sequence }) ∧
    (s.codesValid = true → ∃ v, exec (.codeInfo b) s = .next { s with dataOut := v } ∧
      v.getLsbD 31 = (s.codeAt b).valid ∧ v.extractLsb' 8 23 = 0 ∧ v.extractLsb' 0 8 = (s.codeAt b).len)

/-- R157, R69: CODE_RD reads 32 characters of a code into DATA_OUT, bit j of chunk k being character 32k + j and 0 past
the code's end, or raises SEQUENCE. -/
def Obligations.CodeRdReadsAChunk : Prop :=
  ∀ (b : Byte) (c : BitVec 3) (s : State), s.err = .none →
    (s.codesValid = false → exec (.codeRd b c) s = .next { s with err := .sequence }) ∧
    (s.codesValid = true → ∃ v, exec (.codeRd b c) s = .next { s with dataOut := v } ∧
      ∀ j, j < 32 → v.getLsbD j =
        if 32 * c.toNat + j < (s.codeAt b).len.toNat then (s.codeAt b).bits.getLsbD (32 * c.toNat + j) else false)

/-- R158: with n >= 2 leaves no valid code is a prefix of another valid code. -/
def Obligations.CodesArePrefixFree : Prop :=
  ∀ (s : State) (b c : Byte), Inv s → s.codesValid = true → (s.codeAt b).valid = true → (s.codeAt c).valid = true →
    b ≠ c → ¬ (s.codeAt b).path <+: (s.codeAt c).path

/-- R159: with n >= 2 leaves the sum of 2^(-CODE_LEN) over the valid symbols is 1, here scaled by 2^255. -/
def Obligations.CodesMeetKraftEquality : Prop :=
  ∀ s : State, Inv s → s.codesValid = true → 2 ≤ s.leafCount.toNat →
    (symbols.map fun b => if (s.codeAt b).valid then 2 ^ (255 - (s.codeAt b).len.toNat) else 0).sum = 2 ^ 255

/-! ### Header codec (44_header_codec.md) -/

/-- R166, R168: HDR_ENC appends the pairs of the non-zero entries in ascending symbol order, one SP between numbers and
one LF at the end, and changes nothing else; with no such entry it appends the single LF. -/
def Obligations.HdrEncAppendsTheHeader : Prop :=
  ∀ s : State, s.err = .none →
    (s.headerClosed = false → exec .hdrEnc s = .next { s with err := .sequence }) ∧
    (s.headerClosed = true →
      ∃ text : List Byte, exec .hdrEnc s = .next { s with out := s.out ++ text } ∧
        text = [0x20].intercalate ((symbols.filter fun b => s.freqAt b ≠ 0).map fun b =>
          decimal b.toNat ++ [0x20] ++ decimal (s.freqAt b).toNat) ++ [0x0A])

/-- R167: the decimal form has only digits, no leading zero but for 0 itself, at most 3 digits for a symbol and 10 for a
frequency, and the value written. -/
def Obligations.DecimalFormIsCanonical : Prop :=
  ∀ v : Nat, v < 2 ^ 32 →
    (∀ c ∈ decimal v, 0x30 ≤ c.toNat ∧ c.toNat ≤ 0x39) ∧ 1 ≤ (decimal v).length ∧ (decimal v).length ≤ 10 ∧
    (v < 256 → (decimal v).length ≤ 3) ∧
    (v ≠ 0 → (decimal v).head? ≠ some 0x30) ∧ (v = 0 → decimal v = [0x30]) ∧
    (decimal v).foldl (fun a c => a * 10 + (c.toNat - 0x30)) 0 = v

/-- R172, R173: HDR_CHAR after a build or a complete header raises SEQUENCE; the first byte of a header clears FREQ and
starts a symbol token or completes the empty header, and any other byte is malformed. -/
def Obligations.HdrCharFirstByte : Prop :=
  ∀ (b : Byte) (s : State), s.err = .none →
    ((s.tree ≠ .none ∨ s.hp = .done) → exec (.hdrChar b) s = .next { s with err := .sequence }) ∧
    (s.tree = .none → s.hp = .idle →
      (isDigit b = true → ∃ t, exec (.hdrChar b) s = .next t ∧
        t = { s with freq := t.freq, hacc := b.setWidth 32 - 0x30, hp := .sym } ∧ ∀ c, t.freqAt c = 0) ∧
      (b = 0x0A → ∃ t, exec (.hdrChar b) s = .next t ∧
        t = { s with freq := t.freq, hacc := 0, hp := .done } ∧ ∀ c, t.freqAt c = 0) ∧
      (isDigit b = false → b ≠ 0x0A → exec (.hdrChar b) s = .next { s with err := .malformedHeader }))

/-- R174: HDR_CHAR inside a symbol token. -/
def Obligations.HdrCharInSymbol : Prop :=
  ∀ (b : Byte) (s : State), HeaderInv s → s.err = .none → s.tree = .none → s.hp = .sym →
    (isDigit b = true → 255 < s.hacc.toNat * 10 + (b.toNat - 0x30) →
      exec (.hdrChar b) s = .next { s with err := .malformedHeader }) ∧
    (isDigit b = true → s.hacc.toNat * 10 + (b.toNat - 0x30) ≤ 255 →
      ∃ v, exec (.hdrChar b) s = .next { s with hacc := v } ∧ v.toNat = s.hacc.toNat * 10 + (b.toNat - 0x30)) ∧
    (b = 0x20 → ∃ v, exec (.hdrChar b) s = .next { s with hsym := v, hacc := 0, hp := .sepF } ∧
      v.toNat = s.hacc.toNat) ∧
    (isDigit b = false → b ≠ 0x20 → exec (.hdrChar b) s = .next { s with err := .malformedHeader })

/-- R175, R178: HDR_CHAR after a separator takes a digit, which starts the next token, and nothing else. That a first
frequency digit above FREQ_MAX raises OVERFLOW is R211's and 92_eei_decisions.md D26's, and not in the text of R175
(log 14). -/
def Obligations.HdrCharAfterSeparator : Prop :=
  ∀ (b : Byte) (s : State), s.err = .none → s.tree = .none →
    (s.hp = .sepF → isDigit b = true → b.toNat - 0x30 ≤ s.freqMax →
      exec (.hdrChar b) s = .next { s with hacc := b.setWidth 32 - 0x30, hp := .freq }) ∧
    (s.hp = .sepF → isDigit b = true → s.freqMax < b.toNat - 0x30 →
      exec (.hdrChar b) s = .next { s with err := .overflow }) ∧
    (s.hp = .sepS → isDigit b = true →
      exec (.hdrChar b) s = .next { s with hacc := b.setWidth 32 - 0x30, hp := .sym }) ∧
    ((s.hp = .sepF ∨ s.hp = .sepS) → isDigit b = false →
      exec (.hdrChar b) s = .next { s with err := .malformedHeader })

/-- R176, R177: HDR_CHAR inside a frequency token, and the pair commit at SP or LF. -/
def Obligations.HdrCharInFrequency : Prop :=
  ∀ (b : Byte) (s : State), s.err = .none → s.tree = .none → s.hp = .freq →
    (isDigit b = true → s.freqMax < s.hacc.toNat * 10 + (b.toNat - 0x30) →
      exec (.hdrChar b) s = .next { s with err := .overflow }) ∧
    (isDigit b = true → s.hacc.toNat * 10 + (b.toNat - 0x30) ≤ s.freqMax →
      ∃ v, exec (.hdrChar b) s = .next { s with hacc := v } ∧ v.toNat = s.hacc.toNat * 10 + (b.toNat - 0x30)) ∧
    ((b = 0x20 ∨ b = 0x0A) → (s.hacc = 0 ∨ s.freqAt s.hsym ≠ 0) →
      exec (.hdrChar b) s = .next { s with err := .malformedHeader }) ∧
    ((b = 0x20 ∨ b = 0x0A) → s.hacc ≠ 0 → s.freqAt s.hsym = 0 →
      ∃ t, exec (.hdrChar b) s = .next t ∧
        t = { s with freq := t.freq, hacc := 0, hp := if b = 0x20 then .sepS else .done } ∧
        (t.freqAt s.hsym).toNat = s.hacc.toNat % 2 ^ s.freqWidth.bits ∧
        ∀ c, c ≠ s.hsym → t.freqAt c = s.freqAt c) ∧
    (isDigit b = false → b ≠ 0x20 → b ≠ 0x0A → exec (.hdrChar b) s = .next { s with err := .malformedHeader })

/-- R180: the bytes HDR_ENC appends, fed after CLEAR through HDR_CHAR one by one, end with HP = DONE, the same FREQ and
no error. -/
def Obligations.HeaderRoundTrip : Prop :=
  ∀ s t : State, HeaderInv s → s.err = .none → s.headerClosed = true → exec .hdrEnc s = .next t →
    ∃ text u, t.out = s.out ++ text ∧ execAll (.clear :: text.map .hdrChar) t = .next u ∧
      u.hp = .done ∧ u.err = .none ∧ ∀ b, u.freqAt b = s.freqAt b

/-! ### Payload codec (45_payload.md) -/

/-- R190: ENC_BYTE appends the characters of the code of B, root first, and changes nothing else, or raises SEQUENCE or
NO_CODE. -/
def Obligations.EncByteAppendsTheCode : Prop :=
  ∀ (b : Byte) (s : State), s.err = .none →
    (s.codesValid = false → exec (.encByte b) s = .next { s with err := .sequence }) ∧
    (s.codesValid = true → (s.codeAt b).valid = false → exec (.encByte b) s = .next { s with err := .noCode }) ∧
    (s.codesValid = true → (s.codeAt b).valid = true →
      ∃ text : List Byte, exec (.encByte b) s = .next { s with out := s.out ++ text } ∧
        text = (List.range (s.codeAt b).len.toNat).map fun k => if (s.codeAt b).bits.getLsbD k then 0x31 else 0x30)

/-- R192: DEC_CHAR moves the cursor to the child that '0' or '1' selects; at a leaf it emits the leaf's symbol and the
cursor returns to the root. -/
def Obligations.DecCharDescends : Prop :=
  ∀ (b : Byte) (s : State), TreeInv s → s.err = .none →
    ((s.tree = .none ∨ s.tree = .building) → exec (.decChar b) s = .next { s with err := .sequence }) ∧
    ((s.tree = .empty ∨ (s.tree = .built ∧ ((s.nodeAt s.rootIdx).kind = .leaf ∨ (b ≠ 0x30 ∧ b ≠ 0x31)))) →
      exec (.decChar b) s = .next { s with err := .corruptBitstream }) ∧
    (s.tree = .built → (s.nodeAt s.rootIdx).kind = .internal → (b = 0x30 ∨ b = 0x31) →
      ∃ nxt, nxt = (if b = 0x30 then (s.nodeAt s.decCur).left else (s.nodeAt s.decCur).right) ∧
        ((s.nodeAt nxt).kind = .leaf → exec (.decChar b) s =
          .next { s with out := s.out ++ [(s.nodeAt nxt).symbol], decCur := s.rootIdx }) ∧
        ((s.nodeAt nxt).kind = .internal → exec (.decChar b) s = .next { s with decCur := nxt }))

/-- R193: the characters of a valid code, from the root, emit exactly its symbol and return to the root, and no proper
prefix of them emits anything. -/
def Obligations.DecodingACodeEmitsItsSymbol : Prop :=
  ∀ (s : State) (b : Byte), Inv s → s.err = .none → s.codesValid = true → 2 ≤ s.leafCount.toNat →
    s.decCur = s.rootIdx → (s.codeAt b).valid = true →
    execAll ((s.codeAt b).text.map .decChar) s = .next { s with out := s.out ++ [b] } ∧
    ∀ q, q <+: (s.codeAt b).text → q ≠ (s.codeAt b).text →
      ∃ t, execAll (q.map .decChar) s = .next t ∧ t.out = s.out

/-- R194: DEC_END checks that the decoder stands at the root, and writes no state. -/
def Obligations.DecEndChecksTheBoundary : Prop :=
  ∀ s : State, s.err = .none →
    ((s.tree = .none ∨ s.tree = .building) → exec .decEnd s = .next { s with err := .sequence }) ∧
    (s.tree = .built → s.decCur ≠ s.rootIdx → exec .decEnd s = .next { s with err := .corruptBitstream }) ∧
    ((s.tree = .empty ∨ (s.tree = .built ∧ s.decCur = s.rootIdx)) → exec .decEnd s = .next s)

/-- R195: DEC_SINGLE emits the symbol of a single leaf as often as its weight says, and nothing for the empty tree. -/
def Obligations.DecSingleRepeatsTheSymbol : Prop :=
  ∀ s : State, TreeInv s → s.err = .none →
    ((s.tree = .none ∨ s.tree = .building ∨ (s.tree = .built ∧ (s.nodeAt s.rootIdx).kind = .internal)) →
      exec .decSingle s = .next { s with err := .sequence }) ∧
    (s.tree = .empty → exec .decSingle s = .next s) ∧
    (s.tree = .built → (s.nodeAt s.rootIdx).kind = .leaf →
      ∃ text : List Byte, exec .decSingle s = .next { s with out := s.out ++ text } ∧
        text = List.replicate (s.nodeAt s.rootIdx).weight.toNat (s.nodeAt s.rootIdx).symbol)

/-- R197: for every byte string whose byte counts are at most FREQ_MAX, the encode procedure of R191 followed by the decode
procedure of R196 on the header line and the payload it emitted ends with no error and gives the string back. -/
def Obligations.EncodeThenDecodeGivesTheTextBack : Prop :=
  ∀ (s : State) (text : List Byte), (∀ b, text.count b ≤ s.freqMax) →
    ∃ t line payload u v,
      execAll ([.clear] ++ text.map .count ++ [.build, .genCodes, .hdrEnc] ++ text.map .encByte) s = .next t ∧
      t.err = .none ∧ t.out = s.out ++ (line ++ [0x0A]) ++ payload ∧ 0x0A ∉ line ∧
      execAll ([.clear] ++ (line ++ [0x0A]).map .hdrChar ++ [.build]) { t with out := [] } = .next u ∧
      (if u.leafCount.toNat ≤ 1 then payload = [] ∧ execAll [.decSingle] u = .next v
        else execAll (payload.map .decChar ++ [.decEnd]) u = .next v) ∧
      v.err = .none ∧ v.out = text

/-! ### Whole-machine rules -/

/-- R22, R37: FREQ is written by COUNT and FREQ_WR with TREE = NONE and HP = IDLE, by HDR_CHAR with TREE = NONE, and by CLEAR
and reset; DATA_OUT is written by the five read commands, CLEAR and reset. No other command and no other access writes
either. -/
def Obligations.WhoWritesFreqAndDataOut : Prop :=
  (∀ (i : Instr) (s t : State), i ≠ .clear → exec i s = .next t →
    (t.freq ≠ s.freq → s.tree = .none ∧
      ((s.hp = .idle ∧ ∃ b, i = .count b ∨ i = .freqWr b) ∨ ∃ b, i = .hdrChar b)) ∧
    (t.dataOut ≠ s.dataOut → (∃ b, i = .freqRd b) ∨ (∃ k e, i = .nodeRd k e) ∨ (∃ p, i = .pqRd p) ∨
      (∃ b, i = .codeInfo b) ∨ ∃ b c, i = .codeRd b c)) ∧
  ∀ s t : State, step s = .next t → (t.freq ≠ s.freq ∨ t.dataOut ≠ s.dataOut) →
    ∃ e rest, s.host = e :: rest ∧ (e = .reset ∨ e = .assertReset ∨ e = .releaseReset ∨
      ∃ w i, e = .write offCmd 4 w ∧ decode w = .ok i ∧ exec i { s with host := rest } = .next t)

/-- R244, R66: DATA_IN is read only by FREQ_WR: no other command's effect depends on it, and no command writes it. -/
def Obligations.DataInIsReadOnlyByFreqWr : Prop :=
  ∀ (i : Instr) (s : State) (v : Word), (∀ b, i ≠ .freqWr b) →
    (∀ t, exec i s = .next t → t.dataIn = s.dataIn ∧ exec i { s with dataIn := v } = .next { t with dataIn := v }) ∧
    ∀ e, exec i s = .fault e → exec i { s with dataIn := v } = .fault e

/-- R27: no rule reads a record at an index from NODE_COUNT up: two states that differ only there take steps that answer
alike and again differ only there. -/
def Obligations.UndefinedRecordsAreNotObservable : Prop :=
  ∀ s t : State, TreeInv s → SameDefined s t →
    (∀ s', step s = .next s' → ∃ t', step t = .next t' ∧ SameDefined s' t') ∧
    (∀ e, step s = .fault e → step t = .fault e) ∧ ∀ e, step s = .refused e → step t = .refused e

/-- R34, R44, R245: no byte of the output is lost, changed or reordered: outside reset, a step only adds to the bytes the
host has read and the block still holds. -/
def Obligations.OutputOnlyGrows : Prop :=
  ∀ s t : State, s.inReset = false → (∀ rest, s.host ≠ .reset :: rest) → (∀ rest, s.host ≠ .assertReset :: rest) →
    step s = .next t → s.output <+: t.output

/-- R38, R47: BUSY reads 0 between steps, and no step changes what CONFIG reads. -/
def Obligations.BusyStaysLowAndConfigIsHardwired : Prop :=
  ∀ s t : State, s.busy = false → step s = .next t → t.busy = false ∧ t.config = s.config

/-- R21, R33: every step keeps the bounds of FREQ, HACC and the header parser. -/
def Obligations.StepKeepsHeaderInv : Prop :=
  ∀ s t : State, HeaderInv s → step s = .next t → HeaderInv t

/-- R24, R28 to R31, R130 to R132: every step keeps the tree invariant. -/
def Obligations.StepKeepsTreeInv : Prop :=
  ∀ s t : State, TreeInv s → step s = .next t → TreeInv t

/-- R32, R254: every step keeps the code table in agreement with the tree. -/
def Obligations.StepKeepsCodeInv : Prop :=
  ∀ s t : State, CodeInv s → step s = .next t → CodeInv t

/-- R50, R241: the state after reset meets the invariant of the block, for every FREQ_WIDTH (R7; the model's own reset state
has the default, log 1) and whatever the node records hold (R27; the model's own hold zeros, log 3). -/
def Obligations.ResetMeetsTheInvariant : Prop :=
  ∀ (w : Config.FreqWidth) (v : Vector NodeRec Config.nodeCap), Inv { State.reset with freqWidth := w, node := v }

/-- R25, R27, R132, R153: from a state that meets the invariant no step is a fault: no pop of a short queue, no read of an
undefined record, no full node store, no weight overflow and no code that is too long. -/
def Obligations.InvariantStatesNeverFault : Prop :=
  ∀ s : State, Inv s → StepSafe s
end

