-- ==== Sys2Proof/Laws/State.lean ====
section
/-! SUPPORT. One lemma per field for each named update of State, true by rfl, so that no proof unfolds a record update. -/

namespace Sys2Proof.Machine

/-! ### `State.setFreq` -/

@[simp] theorem State.setFreq_freq (s : State) (b : Byte) (v : Word) : (s.setFreq b v).freq = s.freq.set b.toNat v b.isLt := rfl
@[simp] theorem State.setFreq_node (s : State) (b : Byte) (v : Word) : (s.setFreq b v).node = s.node := rfl
@[simp] theorem State.setFreq_nodeCount (s : State) (b : Byte) (v : Word) : (s.setFreq b v).nodeCount = s.nodeCount := rfl
@[simp] theorem State.setFreq_pq (s : State) (b : Byte) (v : Word) : (s.setFreq b v).pq = s.pq := rfl
@[simp] theorem State.setFreq_rootIdx (s : State) (b : Byte) (v : Word) : (s.setFreq b v).rootIdx = s.rootIdx := rfl
@[simp] theorem State.setFreq_leafCount (s : State) (b : Byte) (v : Word) : (s.setFreq b v).leafCount = s.leafCount := rfl
@[simp] theorem State.setFreq_tree (s : State) (b : Byte) (v : Word) : (s.setFreq b v).tree = s.tree := rfl
@[simp] theorem State.setFreq_codesValid (s : State) (b : Byte) (v : Word) : (s.setFreq b v).codesValid = s.codesValid := rfl
@[simp] theorem State.setFreq_codes (s : State) (b : Byte) (v : Word) : (s.setFreq b v).codes = s.codes := rfl
@[simp] theorem State.setFreq_hp (s : State) (b : Byte) (v : Word) : (s.setFreq b v).hp = s.hp := rfl
@[simp] theorem State.setFreq_hacc (s : State) (b : Byte) (v : Word) : (s.setFreq b v).hacc = s.hacc := rfl
@[simp] theorem State.setFreq_hsym (s : State) (b : Byte) (v : Word) : (s.setFreq b v).hsym = s.hsym := rfl
@[simp] theorem State.setFreq_out (s : State) (b : Byte) (v : Word) : (s.setFreq b v).out = s.out := rfl
@[simp] theorem State.setFreq_decCur (s : State) (b : Byte) (v : Word) : (s.setFreq b v).decCur = s.decCur := rfl
@[simp] theorem State.setFreq_err (s : State) (b : Byte) (v : Word) : (s.setFreq b v).err = s.err := rfl
@[simp] theorem State.setFreq_dataIn (s : State) (b : Byte) (v : Word) : (s.setFreq b v).dataIn = s.dataIn := rfl
@[simp] theorem State.setFreq_dataOut (s : State) (b : Byte) (v : Word) : (s.setFreq b v).dataOut = s.dataOut := rfl
@[simp] theorem State.setFreq_busy (s : State) (b : Byte) (v : Word) : (s.setFreq b v).busy = s.busy := rfl
@[simp] theorem State.setFreq_freqWidth (s : State) (b : Byte) (v : Word) : (s.setFreq b v).freqWidth = s.freqWidth := rfl
@[simp] theorem State.setFreq_inReset (s : State) (b : Byte) (v : Word) : (s.setFreq b v).inReset = s.inReset := rfl
@[simp] theorem State.setFreq_host (s : State) (b : Byte) (v : Word) : (s.setFreq b v).host = s.host := rfl
@[simp] theorem State.setFreq_readLog (s : State) (b : Byte) (v : Word) : (s.setFreq b v).readLog = s.readLog := rfl
@[simp] theorem State.setFreq_freeCount (s : State) (b : Byte) (v : Word) : (s.setFreq b v).freeCount = s.freeCount := rfl

/-! ### `State.emit` -/

@[simp] theorem State.emit_freq (s : State) (bs : List Byte) : (s.emit bs).freq = s.freq := rfl
@[simp] theorem State.emit_node (s : State) (bs : List Byte) : (s.emit bs).node = s.node := rfl
@[simp] theorem State.emit_nodeCount (s : State) (bs : List Byte) : (s.emit bs).nodeCount = s.nodeCount := rfl
@[simp] theorem State.emit_pq (s : State) (bs : List Byte) : (s.emit bs).pq = s.pq := rfl
@[simp] theorem State.emit_rootIdx (s : State) (bs : List Byte) : (s.emit bs).rootIdx = s.rootIdx := rfl
@[simp] theorem State.emit_leafCount (s : State) (bs : List Byte) : (s.emit bs).leafCount = s.leafCount := rfl
@[simp] theorem State.emit_tree (s : State) (bs : List Byte) : (s.emit bs).tree = s.tree := rfl
@[simp] theorem State.emit_codesValid (s : State) (bs : List Byte) : (s.emit bs).codesValid = s.codesValid := rfl
@[simp] theorem State.emit_codes (s : State) (bs : List Byte) : (s.emit bs).codes = s.codes := rfl
@[simp] theorem State.emit_hp (s : State) (bs : List Byte) : (s.emit bs).hp = s.hp := rfl
@[simp] theorem State.emit_hacc (s : State) (bs : List Byte) : (s.emit bs).hacc = s.hacc := rfl
@[simp] theorem State.emit_hsym (s : State) (bs : List Byte) : (s.emit bs).hsym = s.hsym := rfl
@[simp] theorem State.emit_out (s : State) (bs : List Byte) : (s.emit bs).out = s.out ++ bs := rfl
@[simp] theorem State.emit_decCur (s : State) (bs : List Byte) : (s.emit bs).decCur = s.decCur := rfl
@[simp] theorem State.emit_err (s : State) (bs : List Byte) : (s.emit bs).err = s.err := rfl
@[simp] theorem State.emit_dataIn (s : State) (bs : List Byte) : (s.emit bs).dataIn = s.dataIn := rfl
@[simp] theorem State.emit_dataOut (s : State) (bs : List Byte) : (s.emit bs).dataOut = s.dataOut := rfl
@[simp] theorem State.emit_busy (s : State) (bs : List Byte) : (s.emit bs).busy = s.busy := rfl
@[simp] theorem State.emit_freqWidth (s : State) (bs : List Byte) : (s.emit bs).freqWidth = s.freqWidth := rfl
@[simp] theorem State.emit_inReset (s : State) (bs : List Byte) : (s.emit bs).inReset = s.inReset := rfl
@[simp] theorem State.emit_host (s : State) (bs : List Byte) : (s.emit bs).host = s.host := rfl
@[simp] theorem State.emit_readLog (s : State) (bs : List Byte) : (s.emit bs).readLog = s.readLog := rfl
@[simp] theorem State.emit_freeCount (s : State) (bs : List Byte) : (s.emit bs).freeCount = s.freeCount := rfl

/-! ### `State.setDataOut` -/

@[simp] theorem State.setDataOut_freq (s : State) (v : Word) : (s.setDataOut v).freq = s.freq := rfl
@[simp] theorem State.setDataOut_node (s : State) (v : Word) : (s.setDataOut v).node = s.node := rfl
@[simp] theorem State.setDataOut_nodeCount (s : State) (v : Word) : (s.setDataOut v).nodeCount = s.nodeCount := rfl
@[simp] theorem State.setDataOut_pq (s : State) (v : Word) : (s.setDataOut v).pq = s.pq := rfl
@[simp] theorem State.setDataOut_rootIdx (s : State) (v : Word) : (s.setDataOut v).rootIdx = s.rootIdx := rfl
@[simp] theorem State.setDataOut_leafCount (s : State) (v : Word) : (s.setDataOut v).leafCount = s.leafCount := rfl
@[simp] theorem State.setDataOut_tree (s : State) (v : Word) : (s.setDataOut v).tree = s.tree := rfl
@[simp] theorem State.setDataOut_codesValid (s : State) (v : Word) : (s.setDataOut v).codesValid = s.codesValid := rfl
@[simp] theorem State.setDataOut_codes (s : State) (v : Word) : (s.setDataOut v).codes = s.codes := rfl
@[simp] theorem State.setDataOut_hp (s : State) (v : Word) : (s.setDataOut v).hp = s.hp := rfl
@[simp] theorem State.setDataOut_hacc (s : State) (v : Word) : (s.setDataOut v).hacc = s.hacc := rfl
@[simp] theorem State.setDataOut_hsym (s : State) (v : Word) : (s.setDataOut v).hsym = s.hsym := rfl
@[simp] theorem State.setDataOut_out (s : State) (v : Word) : (s.setDataOut v).out = s.out := rfl
@[simp] theorem State.setDataOut_decCur (s : State) (v : Word) : (s.setDataOut v).decCur = s.decCur := rfl
@[simp] theorem State.setDataOut_err (s : State) (v : Word) : (s.setDataOut v).err = s.err := rfl
@[simp] theorem State.setDataOut_dataIn (s : State) (v : Word) : (s.setDataOut v).dataIn = s.dataIn := rfl
@[simp] theorem State.setDataOut_dataOut (s : State) (v : Word) : (s.setDataOut v).dataOut = v := rfl
@[simp] theorem State.setDataOut_busy (s : State) (v : Word) : (s.setDataOut v).busy = s.busy := rfl
@[simp] theorem State.setDataOut_freqWidth (s : State) (v : Word) : (s.setDataOut v).freqWidth = s.freqWidth := rfl
@[simp] theorem State.setDataOut_inReset (s : State) (v : Word) : (s.setDataOut v).inReset = s.inReset := rfl
@[simp] theorem State.setDataOut_host (s : State) (v : Word) : (s.setDataOut v).host = s.host := rfl
@[simp] theorem State.setDataOut_readLog (s : State) (v : Word) : (s.setDataOut v).readLog = s.readLog := rfl
@[simp] theorem State.setDataOut_freeCount (s : State) (v : Word) : (s.setDataOut v).freeCount = s.freeCount := rfl

/-! ### `State.logRead` -/

@[simp] theorem State.logRead_freq (s : State) (off : Offset) (v : Word) : (s.logRead off v).freq = s.freq := rfl
@[simp] theorem State.logRead_node (s : State) (off : Offset) (v : Word) : (s.logRead off v).node = s.node := rfl
@[simp] theorem State.logRead_nodeCount (s : State) (off : Offset) (v : Word) : (s.logRead off v).nodeCount = s.nodeCount := rfl
@[simp] theorem State.logRead_pq (s : State) (off : Offset) (v : Word) : (s.logRead off v).pq = s.pq := rfl
@[simp] theorem State.logRead_rootIdx (s : State) (off : Offset) (v : Word) : (s.logRead off v).rootIdx = s.rootIdx := rfl
@[simp] theorem State.logRead_leafCount (s : State) (off : Offset) (v : Word) : (s.logRead off v).leafCount = s.leafCount := rfl
@[simp] theorem State.logRead_tree (s : State) (off : Offset) (v : Word) : (s.logRead off v).tree = s.tree := rfl
@[simp] theorem State.logRead_codesValid (s : State) (off : Offset) (v : Word) : (s.logRead off v).codesValid = s.codesValid := rfl
@[simp] theorem State.logRead_codes (s : State) (off : Offset) (v : Word) : (s.logRead off v).codes = s.codes := rfl
@[simp] theorem State.logRead_hp (s : State) (off : Offset) (v : Word) : (s.logRead off v).hp = s.hp := rfl
@[simp] theorem State.logRead_hacc (s : State) (off : Offset) (v : Word) : (s.logRead off v).hacc = s.hacc := rfl
@[simp] theorem State.logRead_hsym (s : State) (off : Offset) (v : Word) : (s.logRead off v).hsym = s.hsym := rfl
@[simp] theorem State.logRead_out (s : State) (off : Offset) (v : Word) : (s.logRead off v).out = s.out := rfl
@[simp] theorem State.logRead_decCur (s : State) (off : Offset) (v : Word) : (s.logRead off v).decCur = s.decCur := rfl
@[simp] theorem State.logRead_err (s : State) (off : Offset) (v : Word) : (s.logRead off v).err = s.err := rfl
@[simp] theorem State.logRead_dataIn (s : State) (off : Offset) (v : Word) : (s.logRead off v).dataIn = s.dataIn := rfl
@[simp] theorem State.logRead_dataOut (s : State) (off : Offset) (v : Word) : (s.logRead off v).dataOut = s.dataOut := rfl
@[simp] theorem State.logRead_busy (s : State) (off : Offset) (v : Word) : (s.logRead off v).busy = s.busy := rfl
@[simp] theorem State.logRead_freqWidth (s : State) (off : Offset) (v : Word) : (s.logRead off v).freqWidth = s.freqWidth := rfl
@[simp] theorem State.logRead_inReset (s : State) (off : Offset) (v : Word) : (s.logRead off v).inReset = s.inReset := rfl
@[simp] theorem State.logRead_host (s : State) (off : Offset) (v : Word) : (s.logRead off v).host = s.host := rfl
@[simp] theorem State.logRead_readLog (s : State) (off : Offset) (v : Word) : (s.logRead off v).readLog = s.readLog ++ [⟨off, v⟩] := rfl
@[simp] theorem State.logRead_freeCount (s : State) (off : Offset) (v : Word) : (s.logRead off v).freeCount = s.freeCount := rfl

/-! ### `State.cleared` -/

@[simp] theorem State.cleared_freq (s : State) : (s.cleared).freq = zeroTable := rfl
@[simp] theorem State.cleared_node (s : State) : (s.cleared).node = s.node := rfl
@[simp] theorem State.cleared_nodeCount (s : State) : (s.cleared).nodeCount = 0 := rfl
@[simp] theorem State.cleared_pq (s : State) : (s.cleared).pq = [] := rfl
@[simp] theorem State.cleared_rootIdx (s : State) : (s.cleared).rootIdx = 0 := rfl
@[simp] theorem State.cleared_leafCount (s : State) : (s.cleared).leafCount = 0 := rfl
@[simp] theorem State.cleared_tree (s : State) : (s.cleared).tree = .none := rfl
@[simp] theorem State.cleared_codesValid (s : State) : (s.cleared).codesValid = false := rfl
@[simp] theorem State.cleared_codes (s : State) : (s.cleared).codes = blankCodes := rfl
@[simp] theorem State.cleared_hp (s : State) : (s.cleared).hp = .idle := rfl
@[simp] theorem State.cleared_hacc (s : State) : (s.cleared).hacc = 0 := rfl
@[simp] theorem State.cleared_hsym (s : State) : (s.cleared).hsym = 0 := rfl
@[simp] theorem State.cleared_out (s : State) : (s.cleared).out = s.out := rfl
@[simp] theorem State.cleared_decCur (s : State) : (s.cleared).decCur = 0 := rfl
@[simp] theorem State.cleared_err (s : State) : (s.cleared).err = .none := rfl
@[simp] theorem State.cleared_dataIn (s : State) : (s.cleared).dataIn = s.dataIn := rfl
@[simp] theorem State.cleared_dataOut (s : State) : (s.cleared).dataOut = 0 := rfl
@[simp] theorem State.cleared_busy (s : State) : (s.cleared).busy = s.busy := rfl
@[simp] theorem State.cleared_freqWidth (s : State) : (s.cleared).freqWidth = s.freqWidth := rfl
@[simp] theorem State.cleared_inReset (s : State) : (s.cleared).inReset = s.inReset := rfl
@[simp] theorem State.cleared_host (s : State) : (s.cleared).host = s.host := rfl
@[simp] theorem State.cleared_readLog (s : State) : (s.cleared).readLog = s.readLog := rfl
@[simp] theorem State.cleared_freeCount (s : State) : (s.cleared).freeCount = s.freeCount := rfl

/-! ### `State.resetBlock` -/

@[simp] theorem State.resetBlock_freq (s : State) : (s.resetBlock).freq = zeroTable := rfl
@[simp] theorem State.resetBlock_node (s : State) : (s.resetBlock).node = Vector.replicate _ NodeRec.blank := rfl
@[simp] theorem State.resetBlock_nodeCount (s : State) : (s.resetBlock).nodeCount = 0 := rfl
@[simp] theorem State.resetBlock_pq (s : State) : (s.resetBlock).pq = [] := rfl
@[simp] theorem State.resetBlock_rootIdx (s : State) : (s.resetBlock).rootIdx = 0 := rfl
@[simp] theorem State.resetBlock_leafCount (s : State) : (s.resetBlock).leafCount = 0 := rfl
@[simp] theorem State.resetBlock_tree (s : State) : (s.resetBlock).tree = .none := rfl
@[simp] theorem State.resetBlock_codesValid (s : State) : (s.resetBlock).codesValid = false := rfl
@[simp] theorem State.resetBlock_codes (s : State) : (s.resetBlock).codes = blankCodes := rfl
@[simp] theorem State.resetBlock_hp (s : State) : (s.resetBlock).hp = .idle := rfl
@[simp] theorem State.resetBlock_hacc (s : State) : (s.resetBlock).hacc = 0 := rfl
@[simp] theorem State.resetBlock_hsym (s : State) : (s.resetBlock).hsym = 0 := rfl
@[simp] theorem State.resetBlock_out (s : State) : (s.resetBlock).out = [] := rfl
@[simp] theorem State.resetBlock_decCur (s : State) : (s.resetBlock).decCur = 0 := rfl
@[simp] theorem State.resetBlock_err (s : State) : (s.resetBlock).err = .none := rfl
@[simp] theorem State.resetBlock_dataIn (s : State) : (s.resetBlock).dataIn = 0 := rfl
@[simp] theorem State.resetBlock_dataOut (s : State) : (s.resetBlock).dataOut = 0 := rfl
@[simp] theorem State.resetBlock_busy (s : State) : (s.resetBlock).busy = false := rfl
@[simp] theorem State.resetBlock_freqWidth (s : State) : (s.resetBlock).freqWidth = s.freqWidth := rfl
@[simp] theorem State.resetBlock_inReset (s : State) : (s.resetBlock).inReset = s.inReset := rfl
@[simp] theorem State.resetBlock_host (s : State) : (s.resetBlock).host = s.host := rfl
@[simp] theorem State.resetBlock_readLog (s : State) : (s.resetBlock).readLog = s.readLog := rfl
@[simp] theorem State.resetBlock_freeCount (s : State) : (s.resetBlock).freeCount = s.freeCount := rfl

/-! ### `State.buildInit` -/

@[simp] theorem State.buildInit_freq (s : State) : (s.buildInit).freq = s.freq := rfl
@[simp] theorem State.buildInit_node (s : State) : (s.buildInit).node = writeNodes s.node 0 ((listed s.freq).map leafOf) := rfl
@[simp] theorem State.buildInit_nodeCount (s : State) : (s.buildInit).nodeCount = BitVec.ofNat 9 ((listed s.freq).map leafOf).length := rfl
@[simp] theorem State.buildInit_pq (s : State) : (s.buildInit).pq = (indicesBelow ((listed s.freq).map leafOf).length).foldl (pqInsert (writeNodes s.node 0 ((listed s.freq).map leafOf))) [] := rfl
@[simp] theorem State.buildInit_rootIdx (s : State) : (s.buildInit).rootIdx = 0 := rfl
@[simp] theorem State.buildInit_leafCount (s : State) : (s.buildInit).leafCount = BitVec.ofNat 9 ((listed s.freq).map leafOf).length := rfl
@[simp] theorem State.buildInit_tree (s : State) : (s.buildInit).tree = treeAfterInit ((listed s.freq).map leafOf).length := rfl
@[simp] theorem State.buildInit_codesValid (s : State) : (s.buildInit).codesValid = false := rfl
@[simp] theorem State.buildInit_codes (s : State) : (s.buildInit).codes = blankCodes := rfl
@[simp] theorem State.buildInit_hp (s : State) : (s.buildInit).hp = s.hp := rfl
@[simp] theorem State.buildInit_hacc (s : State) : (s.buildInit).hacc = s.hacc := rfl
@[simp] theorem State.buildInit_hsym (s : State) : (s.buildInit).hsym = s.hsym := rfl
@[simp] theorem State.buildInit_out (s : State) : (s.buildInit).out = s.out := rfl
@[simp] theorem State.buildInit_decCur (s : State) : (s.buildInit).decCur = 0 := rfl
@[simp] theorem State.buildInit_err (s : State) : (s.buildInit).err = s.err := rfl
@[simp] theorem State.buildInit_dataIn (s : State) : (s.buildInit).dataIn = s.dataIn := rfl
@[simp] theorem State.buildInit_dataOut (s : State) : (s.buildInit).dataOut = s.dataOut := rfl
@[simp] theorem State.buildInit_busy (s : State) : (s.buildInit).busy = s.busy := rfl
@[simp] theorem State.buildInit_freqWidth (s : State) : (s.buildInit).freqWidth = s.freqWidth := rfl
@[simp] theorem State.buildInit_inReset (s : State) : (s.buildInit).inReset = s.inReset := rfl
@[simp] theorem State.buildInit_host (s : State) : (s.buildInit).host = s.host := rfl
@[simp] theorem State.buildInit_readLog (s : State) : (s.buildInit).readLog = s.readLog := rfl
@[simp] theorem State.buildInit_freeCount (s : State) : (s.buildInit).freeCount = s.freeCount := rfl

/-! ### `State.merged`: the fields a merge never writes, and the ones every merge writes -/

@[simp] theorem State.merged_freq (s : State) (a b : Idx) (rest : List Idx) :
    (s.merged a b rest).freq = s.freq := by
  unfold State.merged; dsimp only; split <;> simp_all
@[simp] theorem State.merged_node (s : State) (a b : Idx) (rest : List Idx) :
    (s.merged a b rest).node = s.node.setIfInBounds s.nodeCount.toNat (mergedNode a b (s.nodeAt a) (s.nodeAt b)) := by
  unfold State.merged; dsimp only; split <;> simp_all
@[simp] theorem State.merged_nodeCount (s : State) (a b : Idx) (rest : List Idx) :
    (s.merged a b rest).nodeCount = s.nodeCount + 1 := by
  unfold State.merged; dsimp only; split <;> simp_all
@[simp] theorem State.merged_pq (s : State) (a b : Idx) (rest : List Idx) :
    (s.merged a b rest).pq = pqInsert (s.node.setIfInBounds s.nodeCount.toNat (mergedNode a b (s.nodeAt a) (s.nodeAt b))) rest s.nodeCount := by
  unfold State.merged; dsimp only; split <;> simp_all
@[simp] theorem State.merged_leafCount (s : State) (a b : Idx) (rest : List Idx) :
    (s.merged a b rest).leafCount = s.leafCount := by
  unfold State.merged; dsimp only; split <;> simp_all
@[simp] theorem State.merged_codesValid (s : State) (a b : Idx) (rest : List Idx) :
    (s.merged a b rest).codesValid = s.codesValid := by
  unfold State.merged; dsimp only; split <;> simp_all
@[simp] theorem State.merged_codes (s : State) (a b : Idx) (rest : List Idx) :
    (s.merged a b rest).codes = s.codes := by
  unfold State.merged; dsimp only; split <;> simp_all
@[simp] theorem State.merged_hp (s : State) (a b : Idx) (rest : List Idx) :
    (s.merged a b rest).hp = s.hp := by
  unfold State.merged; dsimp only; split <;> simp_all
@[simp] theorem State.merged_hacc (s : State) (a b : Idx) (rest : List Idx) :
    (s.merged a b rest).hacc = s.hacc := by
  unfold State.merged; dsimp only; split <;> simp_all
@[simp] theorem State.merged_hsym (s : State) (a b : Idx) (rest : List Idx) :
    (s.merged a b rest).hsym = s.hsym := by
  unfold State.merged; dsimp only; split <;> simp_all
@[simp] theorem State.merged_out (s : State) (a b : Idx) (rest : List Idx) :
    (s.merged a b rest).out = s.out := by
  unfold State.merged; dsimp only; split <;> simp_all
@[simp] theorem State.merged_err (s : State) (a b : Idx) (rest : List Idx) :
    (s.merged a b rest).err = s.err := by
  unfold State.merged; dsimp only; split <;> simp_all
@[simp] theorem State.merged_dataIn (s : State) (a b : Idx) (rest : List Idx) :
    (s.merged a b rest).dataIn = s.dataIn := by
  unfold State.merged; dsimp only; split <;> simp_all
@[simp] theorem State.merged_dataOut (s : State) (a b : Idx) (rest : List Idx) :
    (s.merged a b rest).dataOut = s.dataOut := by
  unfold State.merged; dsimp only; split <;> simp_all
@[simp] theorem State.merged_busy (s : State) (a b : Idx) (rest : List Idx) :
    (s.merged a b rest).busy = s.busy := by
  unfold State.merged; dsimp only; split <;> simp_all
@[simp] theorem State.merged_freqWidth (s : State) (a b : Idx) (rest : List Idx) :
    (s.merged a b rest).freqWidth = s.freqWidth := by
  unfold State.merged; dsimp only; split <;> simp_all
@[simp] theorem State.merged_inReset (s : State) (a b : Idx) (rest : List Idx) :
    (s.merged a b rest).inReset = s.inReset := by
  unfold State.merged; dsimp only; split <;> simp_all
@[simp] theorem State.merged_host (s : State) (a b : Idx) (rest : List Idx) :
    (s.merged a b rest).host = s.host := by
  unfold State.merged; dsimp only; split <;> simp_all
@[simp] theorem State.merged_readLog (s : State) (a b : Idx) (rest : List Idx) :
    (s.merged a b rest).readLog = s.readLog := by
  unfold State.merged; dsimp only; split <;> simp_all
@[simp] theorem State.merged_freeCount (s : State) (a b : Idx) (rest : List Idx) :
    (s.merged a b rest).freeCount = s.freeCount := by
  unfold State.merged; dsimp only; split <;> simp_all

end Sys2Proof.Machine
end

