-- ==== Sys2Proof/Laws/Ops.lean ====
section
/-! SUPPORT. One lemma for each shared operation, saying once everything it can do; later proofs cite these and unfold
nothing. -/

namespace Sys2Proof.Machine

/-! ### Results -/

@[simp] theorem andThen_next (s : State) (k : State → Result) : andThen (.next s) k = k s := rfl
@[simp] theorem andThen_fault (e : Fault) (k : State → Result) : andThen (.fault e) k = .fault e := rfl
@[simp] theorem andThen_refused (e : Refusal) (k : State → Result) : andThen (.refused e) k = .refused e := rfl

theorem andThen_eq_next {r : Result} {k : State → Result} {t : State} :
    andThen r k = .next t ↔ ∃ s, r = .next s ∧ k s = .next t := by
  cases r <;> simp

theorem andThen_eq_fault {r : Result} {k : State → Result} {e : Fault} :
    andThen r k = .fault e ↔ r = .fault e ∨ ∃ s, r = .next s ∧ k s = .fault e := by
  cases r <;> simp

theorem andThen_assoc (r : Result) (j k : State → Result) :
    andThen (andThen r j) k = andThen r fun s => andThen (j s) k := by
  cases r <;> rfl

/-- Error entry always answers a next state, which differs at most in ERR. -/
theorem raise_eq (c : ErrCode) (s : State) :
    raise c s = .next { s with err := if s.err = .none then c else s.err } := by
  unfold raise; split <;> simp_all

theorem raise_of_noError {c : ErrCode} {s : State} (h : s.err = .none) : raise c s = .next { s with err := c } := by
  simp [raise, h]

theorem raise_eq_next {c : ErrCode} {s t : State} :
    raise c s = .next t ↔ t = { s with err := if s.err = .none then c else s.err } := by
  rw [raise_eq]; constructor <;> intro h
  · cases h; rfl
  · rw [h]

theorem raise_ne_fault {c : ErrCode} {s : State} {e : Fault} : raise c s ≠ .fault e := by simp [raise]
theorem raise_ne_refused {c : ErrCode} {s : State} {e : Refusal} : raise c s ≠ .refused e := by simp [raise]

/-! ### Frequency table -/

theorem freqMax_lt (s : State) : s.freqMax < 2 ^ 32 := by
  have h := Nat.pow_le_pow_right (n := 2) (by decide) s.freqWidth.le
  have := Nat.two_pow_pos s.freqWidth.bits
  unfold State.freqMax; omega

theorem freqMax_succ (s : State) : s.freqMax + 1 = 2 ^ s.freqWidth.bits := by
  have := Nat.two_pow_pos s.freqWidth.bits
  unfold State.freqMax; omega

theorem freqMax_pos (s : State) : 1 ≤ s.freqMax := by
  have h := Nat.pow_le_pow_right (n := 2) (by decide) s.freqWidth.pos
  unfold State.freqMax; omega

theorem tableAt_set (t : Vector Word Config.nsym) (b c : Byte) (v : Word) :
    tableAt (t.set b.toNat v b.isLt) c = if c = b then v else tableAt t c := by
  unfold tableAt
  rw [Vector.getElem_set]
  by_cases h : c = b
  · simp [h]
  · have : b.toNat ≠ c.toNat := fun e => h (BitVec.eq_of_toNat_eq e.symm)
    simp [h, this]

@[simp] theorem tableAt_zeroTable (b : Byte) : tableAt zeroTable b = 0 := by simp [tableAt, zeroTable]

theorem freqAt_setFreq (s : State) (b c : Byte) (v : Word) :
    (s.setFreq b v).freqAt c = if c = b then v else s.freqAt c := tableAt_set s.freq b c v

/-- Two frequency tables with equal entries are equal. -/
theorem table_ext {t u : Vector Word Config.nsym} (h : ∀ b, tableAt t b = tableAt u b) : t = u := by
  apply Vector.ext
  intro i hi
  have := h (BitVec.ofNat 8 i)
  simpa [tableAt, BitVec.toNat_ofNat, Nat.mod_eq_of_lt hi] using this

theorem freqBits_toNat (s : State) (v : Word) : (s.freqBits v).toNat = v.toNat % 2 ^ s.freqWidth.bits := by
  have h := Nat.pow_le_pow_right (n := 2) (by decide) s.freqWidth.le
  have := Nat.mod_lt v.toNat (Nat.two_pow_pos s.freqWidth.bits)
  simp only [State.freqBits, BitVec.toNat_ofNat]
  omega

theorem freqBits_le (s : State) (v : Word) : (s.freqBits v).toNat ≤ s.freqMax := by
  have := Nat.mod_lt v.toNat (Nat.two_pow_pos s.freqWidth.bits)
  have := freqMax_succ s
  rw [freqBits_toNat]; omega

theorem freqBits_of_le {s : State} {v : Word} (h : v.toNat ≤ s.freqMax) : s.freqBits v = v := by
  apply BitVec.eq_of_toNat_eq
  have := freqMax_succ s
  rw [freqBits_toNat, Nat.mod_eq_of_lt (by omega)]

/-! ### Symbols and listed entries -/

theorem mem_symbols (b : Byte) : b ∈ symbols := by
  simp only [symbols, List.mem_map, List.mem_range]
  exact ⟨b.toNat, b.isLt, by simp⟩

theorem symbols_pairwise : symbols.Pairwise (fun a b => a.toNat < b.toNat) := by
  unfold symbols
  rw [List.pairwise_map]
  refine List.Pairwise.imp_of_mem ?_ List.pairwise_lt_range
  intro a b ha hb hab
  simp only [List.mem_range] at ha hb
  simp [BitVec.toNat_ofNat, Nat.mod_eq_of_lt ha, Nat.mod_eq_of_lt hb, hab]

theorem listed_eq (t : Vector Word Config.nsym) :
    listed t = (symbols.filter fun b => tableAt t b ≠ 0).map fun b => (b, tableAt t b) := by
  have h : symbols.zip t.toList = symbols.map fun b => (b, tableAt t b) := by
    refine List.ext_getElem (by simp [symbols]) ?_
    intro i h1 h2
    have hi : i < 256 := by simpa [symbols] using h2
    simp [symbols, tableAt, Nat.mod_eq_of_lt hi]
  rw [listed, h, List.filter_map]
  rfl

theorem mem_listed {t : Vector Word Config.nsym} {p : Byte × Word} :
    p ∈ listed t ↔ tableAt t p.1 = p.2 ∧ p.2 ≠ 0 := by
  rw [listed_eq]
  simp only [List.mem_map, List.mem_filter, mem_symbols, true_and, decide_eq_true_eq]
  constructor
  · rintro ⟨b, hb, rfl⟩; exact ⟨rfl, hb⟩
  · rintro ⟨h1, h2⟩; exact ⟨p.1, by rw [h1]; exact h2, by rw [h1]⟩

theorem listed_pairwise (t : Vector Word Config.nsym) : (listed t).Pairwise (fun a b => a.1.toNat < b.1.toNat) := by
  rw [listed_eq, List.pairwise_map]
  exact symbols_pairwise.filter _

theorem listed_length_le (t : Vector Word Config.nsym) : (listed t).length ≤ 256 := by
  rw [listed_eq, List.length_map]
  exact (List.length_filter_le _ _).trans (by simp [symbols])

theorem listed_nodup (t : Vector Word Config.nsym) : ((listed t).map Prod.fst).Nodup := by
  rw [List.nodup_iff_pairwise_ne, List.pairwise_map]
  exact (listed_pairwise t).imp fun h e => by rw [e] at h; exact Nat.lt_irrefl _ h

@[simp] theorem listed_zeroTable : listed zeroTable = [] := by
  rw [listed_eq, List.map_eq_nil_iff, List.filter_eq_nil_iff]; simp

/-! ### Node store -/

theorem storeAt_setIfInBounds (t : Vector NodeRec Config.nodeCap) (k i : Idx) (r : NodeRec) (h : k.toNat < 511) :
    storeAt (t.setIfInBounds k.toNat r) i = if i = k then r else storeAt t i := by
  unfold storeAt
  by_cases hi : i.toNat < Config.nodeCap
  · simp only [hi, dite_true, Vector.getElem_setIfInBounds]
    by_cases e : i = k
    · simp [e]
    · have : k.toNat ≠ i.toNat := fun h => e (BitVec.eq_of_toNat_eq h.symm)
      simp [e, this]
  · have : i ≠ k := by rintro rfl; exact hi h
    simp [hi, this]

theorem node?_eq_some {s : State} {i : Idx} {n : NodeRec} :
    s.node? i = some n ↔ i.toNat < s.nodeCount.toNat ∧ s.nodeAt i = n := by
  unfold State.node?; simp only [BitVec.lt_def]; split <;> simp_all

theorem node?_eq_none {s : State} {i : Idx} : s.node? i = none ↔ s.nodeCount.toNat ≤ i.toNat := by
  unfold State.node?; simp only [BitVec.lt_def]; split <;> simp_all

theorem node?_of_lt {s : State} {i : Idx} (h : i.toNat < s.nodeCount.toNat) : s.node? i = some (s.nodeAt i) :=
  node?_eq_some.2 ⟨h, rfl⟩

theorem writeNodes_at (t : Vector NodeRec Config.nodeCap) (k : Nat) (rs : List NodeRec) (i : Idx)
    (h : k + rs.length ≤ 511) :
    storeAt (writeNodes t k rs) i =
      if h : k ≤ i.toNat ∧ i.toNat < k + rs.length then rs[i.toNat - k]'(by omega) else storeAt t i := by
  induction rs generalizing t k with
  | nil =>
    simp [writeNodes]
  | cons r rs ih =>
    simp only [List.length_cons] at h
    have hk : (BitVec.ofNat 9 k).toNat = k := by rw [BitVec.toNat_ofNat]; omega
    have hset := storeAt_setIfInBounds t (BitVec.ofNat 9 k) i r (by omega)
    rw [hk] at hset
    rw [writeNodes, ih _ _ (by omega), hset]
    by_cases e : i = BitVec.ofNat 9 k
    · have : i.toNat = k := by rw [e, hk]
      simp [e, hk]
    · have : i.toNat ≠ k := fun e' => e (BitVec.eq_of_toNat_eq (by rw [hk, e']))
      by_cases h1 : k + 1 ≤ i.toNat ∧ i.toNat < k + 1 + rs.length
      · have h2 : k ≤ i.toNat ∧ i.toNat < k + (r :: rs).length := by simp; omega
        rw [dif_pos h1, dif_pos h2]
        have : i.toNat - k = (i.toNat - (k + 1)) + 1 := by omega
        simp [this]
      · have h2 : ¬ (k ≤ i.toNat ∧ i.toNat < k + (r :: rs).length) := by simp; omega
        rw [dif_neg h1, dif_neg h2, if_neg e]

/-! ### Order and priority structure -/

/-- The lexicographic order of R14 as the order of one number. -/
def keyNum (n : NodeRec) : Nat := n.weight.toNat * 256 + n.symbol.toNat

theorem keyLe_iff (a b : NodeRec) : keyLe a b = true ↔ keyNum a ≤ keyNum b := by
  have ha := a.symbol.isLt
  have hb := b.symbol.isLt
  unfold keyLe keyNum
  simp only [Bool.or_eq_true, Bool.and_eq_true, decide_eq_true_eq, beq_iff_eq, BitVec.lt_def, BitVec.le_def,
    ← BitVec.toNat_inj]
  omega

theorem keyLt_iff (a b : NodeRec) : keyLt a b = true ↔ keyNum a < keyNum b := by
  have ha := a.symbol.isLt
  have hb := b.symbol.isLt
  unfold keyLt keyNum
  simp only [Bool.or_eq_true, Bool.and_eq_true, decide_eq_true_eq, beq_iff_eq, BitVec.lt_def,
    ← BitVec.toNat_inj]
  omega

theorem keyNum_inj_symbol {a b : NodeRec} (h : keyNum a = keyNum b) : a.symbol = b.symbol := by
  have ha := a.symbol.isLt
  have hb := b.symbol.isLt
  unfold keyNum at h
  apply BitVec.eq_of_toNat_eq; omega

theorem pqInsert_perm (t : Vector NodeRec Config.nodeCap) (pq : List Idx) (k : Idx) :
    (pqInsert t pq k).Perm (k :: pq) := by
  unfold pqInsert
  generalize pq.countP _ = p
  rw [List.append_assoc, List.singleton_append]
  exact List.perm_middle.trans (by rw [List.take_append_drop])

@[simp] theorem pqInsert_length (t : Vector NodeRec Config.nodeCap) (pq : List Idx) (k : Idx) :
    (pqInsert t pq k).length = pq.length + 1 := by
  rw [(pqInsert_perm t pq k).length_eq]; rfl

@[simp] theorem mem_pqInsert {t : Vector NodeRec Config.nodeCap} {pq : List Idx} {k e : Idx} :
    e ∈ pqInsert t pq k ↔ e = k ∨ e ∈ pq := by
  rw [(pqInsert_perm t pq k).mem_iff]; simp

/-- On an ascending list, the elements up to `x` are a prefix of it. -/
theorem take_countP_of_sorted (f : Idx → Nat) (l : List Idx) (x : Nat) (h : l.Pairwise fun a b => f a < f b) :
    (∀ e ∈ l.take (l.countP fun e => decide (f e ≤ x)), f e ≤ x) ∧
      ∀ e ∈ l.drop (l.countP fun e => decide (f e ≤ x)), x < f e := by
  induction l with
  | nil => simp
  | cons a l ih =>
    obtain ⟨h1, h2⟩ := List.pairwise_cons.1 h
    by_cases ha : f a ≤ x
    · obtain ⟨i1, i2⟩ := ih h2
      simp [ha]; exact ⟨i1, i2⟩
    · have hz : l.countP (fun e => decide (f e ≤ x)) = 0 := by
        rw [List.countP_eq_zero]; intro e he; have := h1 e he; simp; omega
      simp only [List.countP_cons, hz, ha, decide_false, Bool.false_eq_true, if_false, Nat.add_zero, List.take_zero,
        List.drop_zero, List.not_mem_nil, false_implies, implies_true, List.mem_cons, forall_eq_or_imp, true_and]
      exact ⟨by omega, fun e he => by have := h1 e he; omega⟩

/-- Inserting a node whose key is in no queued node keeps the queue strictly ascending (R120). -/
theorem pqInsert_sorted {t : Vector NodeRec Config.nodeCap} {pq : List Idx} {k : Idx}
    (h : pq.Pairwise fun a b => keyLt (storeAt t a) (storeAt t b) = true)
    (hk : ∀ e ∈ pq, keyNum (storeAt t e) ≠ keyNum (storeAt t k)) :
    (pqInsert t pq k).Pairwise fun a b => keyLt (storeAt t a) (storeAt t b) = true := by
  simp only [keyLt_iff] at h ⊢
  have hc := take_countP_of_sorted (fun e => keyNum (storeAt t e)) pq (keyNum (storeAt t k)) h
  have he : (fun e => keyLe (storeAt t e) (storeAt t k)) =
      fun e => decide (keyNum (storeAt t e) ≤ keyNum (storeAt t k)) := by
    funext e; rw [Bool.eq_iff_iff, keyLe_iff, decide_eq_true_iff]
  unfold pqInsert
  rw [he]
  revert hc
  generalize hp : pq.countP (fun e => decide (keyNum (storeAt t e) ≤ keyNum (storeAt t k))) = p
  intro ⟨h1, h2⟩
  have hs := (List.take_append_drop p pq).symm ▸ h
  rw [List.pairwise_append] at hs
  rw [List.append_assoc, List.pairwise_append]
  refine ⟨hs.1, ?_, ?_⟩
  · rw [List.singleton_append, List.pairwise_cons]
    exact ⟨h2, hs.2.1⟩
  · intro a ha b hb
    have l1 := h1 a ha
    have l2 := hk a (List.mem_of_mem_take ha)
    rcases List.mem_append.1 hb with hb | hb
    · rw [List.mem_singleton.1 hb]; omega
    · exact hs.2.2 a ha b hb

theorem mem_indicesBelow {n : Nat} {i : Idx} (h : n ≤ 512) : i ∈ indicesBelow n ↔ i.toNat < n := by
  simp only [indicesBelow, List.mem_map, List.mem_range]
  constructor
  · rintro ⟨a, ha, rfl⟩; rw [BitVec.toNat_ofNat]; omega
  · intro hi; exact ⟨i.toNat, hi, by simp⟩

/-! ### Bits of a code -/

theorem bitsValue_testBit (bs : List Bool) (k : Nat) : (bitsValue bs).testBit k = bs.getD k false := by
  induction bs generalizing k with
  | nil => simp [bitsValue]
  | cons b bs ih =>
    cases k with
    | zero => cases b <;> simp [bitsValue, Nat.testBit_zero]
    | succ k =>
      have : (b.toNat + 2 * bitsValue bs) / 2 = bitsValue bs := by cases b <;> simp; omega
      rw [bitsValue, Nat.testBit_succ, this, ih]; simp

@[simp] theorem ofBits_getLsbD (w : Nat) (bs : List Bool) (k : Nat) :
    (ofBits w bs).getLsbD k = (decide (k < w) && bs.getD k false) := by
  rw [ofBits, BitVec.getLsbD_ofNat, bitsValue_testBit]

end Sys2Proof.Machine
end

