-- ==== Sys2Proof/Laws/Tree.lean ====
section
/-! SUPPORT. The tree builder keeps the tree invariant: what BUILD_INIT establishes, what a merge keeps, and what follows
from the invariant about the sizes of the store and the queue. -/

namespace Sys2Proof.Machine

/-! ### Inserting many nodes -/

theorem foldl_pqInsert (t : Vector NodeRec Config.nodeCap) (ks acc : List Idx)
    (hs : acc.Pairwise fun a b => keyLt (storeAt t a) (storeAt t b) = true)
    (hd : ((acc ++ ks).map fun k => (storeAt t k).symbol).Nodup) :
    (ks.foldl (pqInsert t) acc).Perm (acc ++ ks) ∧
      (ks.foldl (pqInsert t) acc).Pairwise fun a b => keyLt (storeAt t a) (storeAt t b) = true := by
  induction ks generalizing acc with
  | nil => simpa using hs
  | cons k ks ih =>
    have hp : (pqInsert t acc k ++ ks).Perm (acc ++ k :: ks) :=
      ((pqInsert_perm t acc k).append_right ks).trans List.perm_middle.symm
    have hk : ∀ e ∈ acc, keyNum (storeAt t e) ≠ keyNum (storeAt t k) := by
      intro e he hkey
      rw [List.map_append, List.nodup_append] at hd
      exact hd.2.2 _ (List.mem_map_of_mem he) _ (List.mem_map_of_mem (List.mem_cons_self)) (keyNum_inj_symbol hkey)
    obtain ⟨h1, h2⟩ := ih (pqInsert t acc k) (pqInsert_sorted hs hk) ((hp.map _).nodup_iff.2 hd)
    exact ⟨h1.trans hp, h2⟩

/-! ### Leaves -/

@[simp] theorem leaves_length (s : State) : s.leaves.length = (listed s.freq).length := by simp [State.leaves]

theorem leaves_length_le (s : State) : s.leaves.length ≤ 256 := by
  rw [leaves_length]; exact listed_length_le _

theorem leaves_symbols_nodup (s : State) : (s.leaves.map NodeRec.symbol).Nodup := by
  have : s.leaves.map NodeRec.symbol = (listed s.freq).map Prod.fst := by
    simp [State.leaves, leafOf, Function.comp_def]
  rw [this]; exact listed_nodup _

theorem mem_leaves {s : State} {n : NodeRec} :
    n ∈ s.leaves ↔ n = ⟨.leaf, n.symbol, (s.freqAt n.symbol).setWidth 40, 0, 0⟩ ∧ s.freqAt n.symbol ≠ 0 := by
  unfold State.leaves
  rw [List.mem_map]
  constructor
  · rintro ⟨p, hp, rfl⟩
    obtain ⟨h1, h2⟩ := mem_listed.1 hp
    exact ⟨by simp [leafOf, State.freqAt, h1], by simpa [leafOf, State.freqAt, h1] using h2⟩
  · rintro ⟨h1, h2⟩
    exact ⟨(n.symbol, s.freqAt n.symbol), mem_listed.2 ⟨rfl, h2⟩, h1.symm⟩

theorem leaf_weight {s : State} {n : NodeRec} (h : n ∈ s.leaves) : n.weight.toNat = (s.freqAt n.symbol).toNat := by
  have hw : n.weight = (s.freqAt n.symbol).setWidth 40 := by
    have h1 := (mem_leaves.1 h).1
    rw [h1]
  have := (s.freqAt n.symbol).isLt
  rw [hw, BitVec.toNat_setWidth, Nat.mod_eq_of_lt (by omega)]

theorem sum_le_length_mul {l : List Nat} {m : Nat} (h : ∀ x ∈ l, x ≤ m) : l.sum ≤ l.length * m := by
  induction l with
  | nil => simp
  | cons x l ih =>
    have h1 := h x List.mem_cons_self
    have h2 := ih fun y hy => h y (List.mem_cons_of_mem _ hy)
    simp only [List.sum_cons, List.length_cons, Nat.succ_mul]; omega

/-- The sum of all leaf weights fits WEIGHT_WIDTH (R25). -/
theorem leaves_sum_lt {s : State} (h : ∀ b, (s.freqAt b).toNat ≤ s.freqMax) :
    (s.leaves.map fun n => n.weight.toNat).sum < 2 ^ s.weightWidth := by
  have h1 : (s.leaves.map fun n => n.weight.toNat).sum ≤ (s.leaves.map fun n => n.weight.toNat).length * s.freqMax := by
    apply sum_le_length_mul
    intro x hx
    obtain ⟨n, hn, rfl⟩ := List.mem_map.1 hx
    rw [leaf_weight hn]; exact h _
  rw [List.length_map] at h1
  have h2 := Nat.mul_le_mul_right s.freqMax (leaves_length_le s)
  have h3 := freqMax_succ s
  have : 2 ^ s.weightWidth = 256 * 2 ^ s.freqWidth.bits := by unfold State.weightWidth; rw [Nat.pow_add]; omega
  omega

/-! ### BUILD_INIT -/

@[simp] theorem buildInit_leaves (s : State) : s.buildInit.leaves = s.leaves := rfl

theorem treeAfterInit_ne_none (n : Nat) : treeAfterInit n ≠ .none := by
  unfold treeAfterInit; split <;> [skip; split] <;> simp

theorem treeAfterInit_empty {n : Nat} : treeAfterInit n = .empty ↔ n = 0 := by
  unfold treeAfterInit; split <;> [skip; split] <;> simp_all

theorem treeAfterInit_built {n : Nat} : treeAfterInit n = .built ↔ n = 1 := by
  unfold treeAfterInit; split <;> [skip; split] <;> simp_all

theorem treeAfterInit_building {n : Nat} : treeAfterInit n = .building ↔ 2 ≤ n := by
  unfold treeAfterInit; split <;> [skip; split] <;> simp_all; omega

theorem toNat_ofNat_idx {n : Nat} (h : n < 512) : (BitVec.ofNat 9 n).toNat = n := by
  rw [BitVec.toNat_ofNat]; omega

theorem buildInit_nodeAt (s : State) (i : Idx) (h : i.toNat < s.leaves.length) :
    s.buildInit.nodeAt i = s.leaves[i.toNat] := by
  have := leaves_length_le s
  have hw := writeNodes_at s.node 0 s.leaves i (by omega)
  rw [dif_pos ⟨by omega, by omega⟩] at hw
  simp only [Nat.sub_zero] at hw
  exact hw

theorem buildInit_queue (s : State) :
    s.buildInit.pq.Perm (indicesBelow s.leaves.length) ∧
      s.buildInit.pq.Pairwise fun a b => keyLt (s.buildInit.nodeAt a) (s.buildInit.nodeAt b) = true := by
  have hle := leaves_length_le s
  have hsym : (indicesBelow s.leaves.length).map (fun k => (s.buildInit.nodeAt k).symbol) =
      s.leaves.map NodeRec.symbol := by
    apply List.ext_getElem
    · simp [indicesBelow]
    · intro i h1 h2
      have hi : i < s.leaves.length := by simpa [indicesBelow] using h1
      have ht : (BitVec.ofNat 9 i).toNat = i := toNat_ofNat_idx (by omega)
      have := buildInit_nodeAt s (BitVec.ofNat 9 i) (by omega)
      simp only [ht] at this
      simp only [indicesBelow, List.getElem_map, List.getElem_range, this]
  have := foldl_pqInsert s.buildInit.node (indicesBelow s.leaves.length) [] (by simp)
    (by rw [List.nil_append]; exact hsym ▸ leaves_symbols_nodup s)
  rw [List.nil_append] at this
  exact this

theorem indicesBelow_nodup {n : Nat} (h : n ≤ 512) : (indicesBelow n).Nodup := by
  unfold indicesBelow
  rw [List.nodup_map_iff_inj_on List.nodup_range]
  intro a ha b hb hab
  simp only [List.mem_range] at ha hb
  have := congrArg BitVec.toNat hab
  rwa [toNat_ofNat_idx (by omega), toNat_ofNat_idx (by omega)] at this

/-- BUILD_INIT establishes the tree invariant from any state. -/
theorem buildInit_treeInv (s : State) : TreeInv s.buildInit := by
  have hle := leaves_length_le s
  obtain ⟨hp, hs⟩ := buildInit_queue s
  have hn : s.buildInit.nodeCount.toNat = s.leaves.length := toNat_ofNat_idx (by simpa using (by omega : s.leaves.length < 512))
  have hl : s.buildInit.leafCount.toNat = s.leaves.length := hn
  have ht : s.buildInit.tree = treeAfterInit s.leaves.length := rfl
  have hlen : s.buildInit.pq.length = s.leaves.length := by rw [hp.length_eq]; simp [indicesBelow]
  have hmem : ∀ k ∈ s.buildInit.pq, k.toNat < s.leaves.length := fun k hk =>
    (mem_indicesBelow (by omega)).1 (hp.mem_iff.1 hk)
  have hchildren : s.buildInit.children = [] := by
    unfold State.children State.internalIdx; rw [hn, hl]; simp
  have hmap : ∀ {α : Type} (f : NodeRec → α), ((indicesBelow s.leaves.length).map fun k => f (s.buildInit.nodeAt k)) =
      s.leaves.map f := by
    intro α f
    apply List.ext_getElem
    · simp [indicesBelow]
    · intro i h1 h2
      have hi : i < s.leaves.length := by simpa [indicesBelow] using h1
      have ht : (BitVec.ofNat 9 i).toNat = i := toNat_ofNat_idx (by omega)
      have := buildInit_nodeAt s (BitVec.ofNat 9 i) (by omega)
      simp only [ht] at this
      simp only [indicesBelow, List.getElem_map, List.getElem_range, this]
  have hpq0 : s.leaves.length = 0 → s.buildInit.pq = [] := fun h => List.length_eq_zero_iff.1 (by omega)
  constructor
  · intro h; exact absurd (ht ▸ h) (treeAfterInit_ne_none _)
  · intro h
    have h0 := treeAfterInit_empty.1 (ht ▸ h)
    exact ⟨BitVec.eq_of_toNat_eq (by rw [hn, h0]; rfl), hpq0 h0, BitVec.eq_of_toNat_eq (by rw [hl, h0]; rfl)⟩
  · intro h; rw [hlen]; exact treeAfterInit_building.1 (ht ▸ h)
  · intro h
    have h1 := treeAfterInit_built.1 (ht ▸ h)
    rw [h1] at hp
    exact List.perm_singleton.1 (by simpa [indicesBelow] using hp)
  · intro _; exact ⟨rfl, rfl⟩
  · intro _; rw [hl]; rfl
  · intro _ i hi
    have hi' : i < s.leaves.length := hi
    have ht : (BitVec.ofNat 9 i).toNat = i := toNat_ofNat_idx (by omega)
    have := buildInit_nodeAt s (BitVec.ofNat 9 i) (by omega)
    simp only [ht] at this
    exact this
  · rw [hn, hlen, hl]; omega
  · intro i h1 h2; omega
  · intro k hk; rw [hn]; exact hmem k hk
  · rw [(hp.map _).nodup_iff, hmap NodeRec.symbol]; exact leaves_symbols_nodup s
  · exact hs
  · intro _
    rw [(hp.map _).sum_eq, hmap fun n => n.weight.toNat]; rfl
  · rw [hchildren, List.append_nil, hp.nodup_iff]; exact indicesBelow_nodup (by omega)
  · intro _; exact Or.inl rfl

/-! ### Sizes -/

/-- A list of distinct indices below `n` has at most `n` entries. -/
theorem length_le_of_nodup {l : List Idx} {n : Nat} (hd : l.Nodup) (h : ∀ k ∈ l, k.toNat < n) : l.length ≤ n := by
  have h1 : (l.map BitVec.toNat).Nodup := by
    rw [List.nodup_map_iff_inj_on hd]; intro a _ b _ e; exact BitVec.eq_of_toNat_eq e
  have h2 : (l.map BitVec.toNat).Subperm (List.range n) := by
    apply h1.subperm
    intro x hx
    obtain ⟨k, hk, rfl⟩ := List.mem_map.1 hx
    exact List.mem_range.2 (h k hk)
  simpa using h2.length_le

theorem TreeInv.leafCount_le_nodeCount {s : State} (h : TreeInv s) : s.leafCount.toNat ≤ s.nodeCount.toNat := by
  have h1 := length_le_of_nodup (List.nodup_append.1 h.once).1 h.pq_defined
  have := h.count
  omega

theorem TreeInv.leafCount_le {s : State} (h : TreeInv s) : s.leafCount.toNat ≤ 256 := by
  by_cases ht : s.tree = .none
  · rw [(h.none_shape ht).2.2]; decide
  · rw [h.leaf_count ht]; exact leaves_length_le s

theorem TreeInv.pq_length_le {s : State} (h : TreeInv s) : s.pq.length ≤ s.leafCount.toNat := by
  have h1 := h.count
  have h2 := h.leafCount_le_nodeCount
  omega

/-- While merges are pending there is a free record (R132). -/
theorem TreeInv.nodeCount_lt {s : State} (h : TreeInv s) (hb : s.tree = .building) : s.nodeCount.toNat < 511 := by
  have h1 := h.count
  have h2 := h.leafCount_le
  have h3 := h.building_len hb
  omega

/-- The children of internal nodes are defined records. -/
theorem TreeInv.children_lt {s : State} (h : TreeInv s) {k : Idx} (hk : k ∈ s.children) :
    k.toNat < s.nodeCount.toNat := by
  unfold State.children State.internalIdx at hk
  simp only [List.mem_flatMap, List.mem_map, List.mem_range'_1] at hk
  obtain ⟨i, ⟨j, ⟨hj1, hj2⟩, rfl⟩, hk⟩ := hk
  have hn := s.nodeCount.isLt
  have ht : (BitVec.ofNat 9 j).toNat = j := toNat_ofNat_idx (by omega)
  have hm := h.merges (BitVec.ofNat 9 j) (by omega) (by omega)
  have h1 := hm.left_lt
  have h2 := hm.right_lt
  simp only [List.mem_cons, List.not_mem_nil, or_false] at hk
  rcases hk with rfl | rfl <;> omega

/-- A queued weight is at most the sum of the queued weights. -/
theorem two_le_sum {s : State} (h : TreeInv s) (ht : s.tree ≠ .none) {a b : Idx} {rest : List Idx}
    (hq : s.pq = a :: b :: rest) :
    (s.nodeAt a).weight.toNat + (s.nodeAt b).weight.toNat ≤ (s.leaves.map fun n => n.weight.toNat).sum := by
  have := h.pq_weight ht
  rw [hq] at this
  simp only [List.map_cons, List.sum_cons] at this
  omega

/-! ### Merges -/

theorem repSymbol_mem (f g : NodeRec) : repSymbol f g = f.symbol ∨ repSymbol f g = g.symbol := by
  unfold repSymbol; split <;> [simp; split <;> simp]

/-- After a merge the new record stands at the old NODE_COUNT and every other record is as before. -/
theorem merged_nodeAt (s : State) (a b : Idx) (rest : List Idx) (i : Idx) (hn : s.nodeCount.toNat < 511) :
    (s.merged a b rest).nodeAt i =
      if i = s.nodeCount then mergedNode a b (s.nodeAt a) (s.nodeAt b) else s.nodeAt i := by
  have := storeAt_setIfInBounds s.node s.nodeCount i (mergedNode a b (s.nodeAt a) (s.nodeAt b)) hn
  simpa [State.nodeAt] using this

theorem merged_pq_perm (s : State) (a b : Idx) (rest : List Idx) :
    (s.merged a b rest).pq.Perm (s.nodeCount :: rest) := by
  rw [State.merged_pq]; exact pqInsert_perm _ _ _

/-- A merge with other entries left in the queue leaves the tree registers as they were. -/
theorem merged_more (s : State) (a b c : Idx) (rest : List Idx) :
    (s.merged a b (c :: rest)).tree = s.tree ∧ (s.merged a b (c :: rest)).rootIdx = s.rootIdx ∧
      (s.merged a b (c :: rest)).decCur = s.decCur := by
  unfold State.merged; dsimp only
  split
  · rename_i root hq
    have := congrArg List.length hq
    simp at this
  · exact ⟨rfl, rfl, rfl⟩

/-- The merge of the last two entries finishes the tree (R124). -/
theorem merged_last (s : State) (a b : Idx) :
    (s.merged a b []).tree = .built ∧ (s.merged a b []).rootIdx = s.nodeCount ∧
      (s.merged a b []).decCur = s.nodeCount ∧ (s.merged a b []).pq = [s.nodeCount] := by
  have hq : ∀ t : Vector NodeRec Config.nodeCap, pqInsert t [] s.nodeCount = [s.nodeCount] := fun t => rfl
  unfold State.merged; dsimp only; rw [hq]; exact ⟨rfl, rfl, rfl, rfl⟩

theorem nodeCount_succ {s : State} (hn : s.nodeCount.toNat < 511) :
    (s.nodeCount + 1).toNat = s.nodeCount.toNat + 1 := by
  rw [BitVec.toNat_add]
  have : (1 : Idx).toNat = 1 := rfl
  omega

/-- A merge keeps the tree invariant. -/
theorem merged_treeInv {s : State} {a b : Idx} {rest : List Idx} (h : TreeInv s) (hb : s.tree = .building)
    (hq : s.pq = a :: b :: rest)
    (hw : (s.nodeAt a).weight.toNat + (s.nodeAt b).weight.toNat < 2 ^ s.weightWidth) :
    TreeInv (s.merged a b rest) := by
  have hn := h.nodeCount_lt hb
  have hne : s.tree ≠ .none := by rw [hb]; simp
  have hsucc := nodeCount_succ hn
  have hLN := h.leafCount_le_nodeCount
  have hdef := h.pq_defined
  rw [hq] at hdef
  simp only [List.mem_cons, forall_eq_or_imp] at hdef
  obtain ⟨ha, hbd, hrest⟩ := hdef
  have hnode := fun i => merged_nodeAt s a b rest i hn
  have hold : ∀ i : Idx, i.toNat < s.nodeCount.toNat → (s.merged a b rest).nodeAt i = s.nodeAt i := by
    intro i hi
    rw [hnode, if_neg]
    rintro rfl; omega
  have hnew : (s.merged a b rest).nodeAt s.nodeCount = mergedNode a b (s.nodeAt a) (s.nodeAt b) := by
    rw [hnode, if_pos rfl]
  have hperm := merged_pq_perm s a b rest
  have hww : s.weightWidth ≤ 40 := by unfold State.weightWidth; have := s.freqWidth.le; omega
  have hpow : 2 ^ s.weightWidth ≤ 2 ^ 40 := Nat.pow_le_pow_right (by decide) hww
  have hsum : ((s.nodeAt a).weight + (s.nodeAt b).weight).toNat =
      (s.nodeAt a).weight.toNat + (s.nodeAt b).weight.toNat := by
    rw [BitVec.toNat_add, Nat.mod_eq_of_lt (by omega)]
  have hleaves : (s.merged a b rest).leaves = s.leaves := by simp [State.leaves]
  have hrestmap : ∀ {α : Type} (f : NodeRec → α),
      (rest.map fun k => f ((s.merged a b rest).nodeAt k)) = rest.map fun k => f (s.nodeAt k) := fun f =>
    List.map_congr_left fun k hk => by rw [hold k (hrest k hk)]
  -- the symbols of the queue
  have hsyms := h.pq_symbols
  rw [hq] at hsyms
  simp only [List.map_cons, List.nodup_cons, List.mem_cons, not_or] at hsyms
  have hsym' : ((s.nodeCount :: rest).map fun k => ((s.merged a b rest).nodeAt k).symbol).Nodup := by
    rw [List.map_cons, hrestmap NodeRec.symbol, hnew, List.nodup_cons]
    refine ⟨?_, hsyms.2.2⟩
    rcases repSymbol_mem (s.nodeAt a) (s.nodeAt b) with e | e
    · simp only [mergedNode, e]; exact hsyms.1.2
    · simp only [mergedNode, e]; exact hsyms.2.1
  -- the tree registers, by whether the queue is now one entry
  have hcase : (rest = [] ∧ (s.merged a b rest).tree = .built) ∨
      (rest ≠ [] ∧ (s.merged a b rest).tree = .building) := by
    cases rest with
    | nil => exact Or.inl ⟨rfl, (merged_last s a b).1⟩
    | cons c rest => exact Or.inr ⟨by simp, by rw [(merged_more s a b c rest).1, hb]⟩
  have hntree : (s.merged a b rest).tree ≠ .none := by rcases hcase with h | h <;> rw [h.2] <;> simp
  -- the children of the internal nodes
  have hidx : (s.merged a b rest).internalIdx = s.internalIdx ++ [s.nodeCount] := by
    unfold State.internalIdx
    rw [State.merged_leafCount, State.merged_nodeCount, hsucc,
      show s.nodeCount.toNat + 1 - s.leafCount.toNat = s.nodeCount.toNat - s.leafCount.toNat + 1 by omega,
      List.range'_concat, List.map_append]
    congr 2
    simp only [List.map_cons, List.map_nil, Nat.one_mul,
      show s.leafCount.toNat + (s.nodeCount.toNat - s.leafCount.toNat) = s.nodeCount.toNat by omega]
    simp
  have hchild : (s.merged a b rest).children = s.children ++ [a, b] := by
    unfold State.children
    rw [hidx, List.flatMap_append]
    congr 1
    · apply List.flatMap_congr
      intro i hi
      have : i.toNat < s.nodeCount.toNat := by
        unfold State.internalIdx at hi
        simp only [List.mem_map, List.mem_range'_1] at hi
        obtain ⟨j, hj, rfl⟩ := hi
        rw [toNat_ofNat_idx (by omega)]; omega
      rw [hold i this]
    · simp [hnew, mergedNode]
  have hlen : (s.merged a b rest).pq.length = rest.length + 1 := by rw [hperm.length_eq]; rfl
  constructor
  · intro h0; exact absurd h0 hntree
  · intro h0; rcases hcase with h | h <;> rw [h.2] at h0 <;> cases h0
  · intro h0
    rcases hcase with h | h
    · rw [h.2] at h0; cases h0
    · rw [hlen]
      have := List.length_pos_iff.2 h.1
      omega
  · intro h0
    rcases hcase with h | h
    · rw [h.1]; obtain ⟨_, h2, _, h4⟩ := merged_last s a b; rw [h2, h4]
    · rw [h.2] at h0; cases h0
  · intro h0
    cases rest with
    | nil => exact absurd (merged_last s a b).1 h0
    | cons c rest =>
      obtain ⟨_, h2, h3⟩ := merged_more s a b c rest
      rw [h2, h3]; exact h.unbuilt_regs (by rw [hb]; simp)
  · intro _; rw [State.merged_leafCount, hleaves]; exact h.leaf_count hne
  · intro _ i hi
    have hi' : i < s.leaves.length := by rw [hleaves] at hi; exact hi
    have hlc := h.leaf_count hne
    have hL := leaves_length_le s
    rw [hold _ (by rw [toNat_ofNat_idx (by omega)]; omega), h.leaf_recs hne i hi']
    simp only [hleaves]
  · rw [State.merged_nodeCount, hsucc, hlen, State.merged_leafCount]
    have := h.count
    rw [hq] at this
    simp only [List.length_cons] at this
    omega
  · intro i h1 h2
    rw [State.merged_leafCount] at h1
    rw [State.merged_nodeCount, hsucc] at h2
    by_cases hi : i.toNat < s.nodeCount.toNat
    · have hm := h.merges i h1 hi
      have hl := hm.left_lt
      have hr := hm.right_lt
      constructor
      · rw [hold i hi]; exact hm.kind
      · rw [hold i hi]; exact hl
      · rw [hold i hi]; exact hr
      · rw [hold i hi, hold _ (by omega), hold _ (by omega)]; exact hm.weight
      · rw [hold i hi, hold _ (by omega), hold _ (by omega)]; exact hm.symbol
    · have hi : i = s.nodeCount := BitVec.eq_of_toNat_eq (by omega)
      subst hi
      constructor
      · rw [hnew]; rfl
      · rw [hnew]; exact ha
      · rw [hnew]; exact hbd
      · rw [hnew]; simp only [mergedNode]; rw [hold a ha, hold b hbd, hsum]
      · rw [hnew]; simp only [mergedNode]; rw [hold a ha, hold b hbd]
  · intro k hk
    rw [State.merged_nodeCount, hsucc]
    rcases List.mem_cons.1 (hperm.mem_iff.1 hk) with rfl | hk
    · omega
    · have := hrest k hk; omega
  · exact (hperm.map _).nodup_iff.2 hsym'
  · have hsorted := h.pq_sorted
    rw [hq] at hsorted
    have hrs := (List.pairwise_cons.1 (List.pairwise_cons.1 hsorted).2).2
    have hrs' : rest.Pairwise fun x y =>
        keyLt ((s.merged a b rest).nodeAt x) ((s.merged a b rest).nodeAt y) = true :=
      hrs.imp_of_mem fun {x y} hx hy hxy => by rw [hold x (hrest x hx), hold y (hrest y hy)]; exact hxy
    have hkeys : ∀ e ∈ rest, keyNum ((s.merged a b rest).nodeAt e) ≠
        keyNum ((s.merged a b rest).nodeAt s.nodeCount) := by
      intro e he hkey
      rw [List.map_cons, List.nodup_cons] at hsym'
      exact hsym'.1 (keyNum_inj_symbol hkey ▸ List.mem_map_of_mem (f := fun k => ((s.merged a b rest).nodeAt k).symbol) he)
    have := pqInsert_sorted (t := (s.merged a b rest).node) hrs' hkeys
    rw [State.merged_pq, ← State.merged_node s a b rest]
    exact this
  · intro _
    rw [(hperm.map _).sum_eq, hleaves, ← h.pq_weight hne, hq]
    have := hrestmap fun n => n.weight.toNat
    simp only [List.map_cons, List.sum_cons, this, hnew, mergedNode, hsum]
    omega
  · have h1 : ((s.merged a b rest).pq ++ (s.merged a b rest).children).Perm
        (s.nodeCount :: (s.pq ++ s.children)) := by
      rw [hchild, hq]
      refine (hperm.append_right _).trans ?_
      rw [List.cons_append, List.perm_cons, ← List.append_assoc]
      exact List.perm_append_comm
    rw [h1.nodup_iff, List.nodup_cons]
    refine ⟨fun hmem => ?_, h.once⟩
    have : s.nodeCount.toNat < s.nodeCount.toNat := by
      rcases List.mem_append.1 hmem with hm | hm
      · exact h.pq_defined _ hm
      · exact h.children_lt hm
    omega
  · intro h0
    rcases hcase with h | h
    · rw [h.1]; obtain ⟨_, h2, h3, _⟩ := merged_last s a b; rw [h2, h3]; exact Or.inl rfl
    · rw [h.2] at h0; cases h0

end Sys2Proof.Machine
end

