-- ==== Sys2Proof/Laws/Build.lean ====
section
/-! SUPPORT. What one merge and the merge loop can answer, and that a build in a state that meets the invariants always
finishes. -/

namespace Sys2Proof.Machine

/-! ### Runs of commands -/

@[simp] theorem execAll_nil (s : State) : execAll [] s = .next s := rfl

@[simp] theorem execAll_cons (i : Instr) (is : List Instr) (s : State) :
    execAll (i :: is) s = andThen (exec i s) (execAll is) := rfl

theorem execAll_append (is js : List Instr) (s : State) :
    execAll (is ++ js) s = andThen (execAll is s) (execAll js) := by
  induction is generalizing s with
  | nil => rfl
  | cons i is ih =>
    rw [List.cons_append, execAll_cons, execAll_cons, andThen_assoc]
    congr 1; funext t; exact ih t

theorem execAll_append_of_next {is js : List Instr} {s t : State} (h : execAll is s = .next t) :
    execAll (is ++ js) s = execAll js t := by rw [execAll_append, h]; rfl

/-- What every command of a list keeps, the list keeps. -/
theorem execAll_induct {P : State → Prop} {is : List Instr} {s t : State}
    (hstep : ∀ i ∈ is, ∀ u v, P u → exec i u = .next v → P v) (hs : P s) (h : execAll is s = .next t) : P t := by
  induction is generalizing s with
  | nil => cases h; exact hs
  | cons i is ih =>
    obtain ⟨u, hu, h⟩ := andThen_eq_next.1 h
    exact ih (fun j hj => hstep j (List.mem_cons_of_mem _ hj)) (hstep i List.mem_cons_self s u hs hu) h

/-! ### One merge -/

/-- Everything a merge that answers a next state can be. -/
theorem mergeOnce_eq_next {s t : State} : mergeOnce s = .next t ↔
    ∃ a b rest, s.pq = a :: b :: rest ∧ (∀ e ∈ s.pq, e.toNat < s.nodeCount.toNat) ∧ s.nodeCount.toNat < 511 ∧
      (s.nodeAt a).weight.toNat + (s.nodeAt b).weight.toNat < 2 ^ s.weightWidth ∧ t = s.merged a b rest := by
  unfold mergeOnce
  split
  · rename_i a b rest hq
    have hn := s.nodeCount.isLt
    have hall : (s.pq.all fun e => decide (e < s.nodeCount)) = true ↔ ∀ e ∈ s.pq, e.toNat < s.nodeCount.toNat := by
      rw [List.all_eq_true]; simp only [decide_eq_true_eq, BitVec.lt_def]
    split
    · rename_i h
      constructor
      · intro h'; cases h'
      · rintro ⟨_, _, _, _, h1, _⟩; rw [hall.2 h1] at h; simp at h
    · rename_i h
      have h1 := hall.1 (by simpa using h)
      split
      · rename_i h
        constructor
        · intro h'; cases h'
        · rintro ⟨_, _, _, _, _, h2, _⟩
          have : Config.nodeCap = 511 := rfl
          omega
      · rename_i h2
        have hlt : s.nodeCount.toNat < 511 := by have : Config.nodeCap = 511 := rfl; omega
        split
        · rename_i h
          constructor
          · intro h'; cases h'
          · rintro ⟨_, _, _, e, _, _, h3, _⟩; cases hq.symm.trans e; omega
        · rename_i h3
          constructor
          · intro h'; cases h'; exact ⟨a, b, rest, hq, h1, hlt, by omega, rfl⟩
          · rintro ⟨_, _, _, e, _, _, _, rfl⟩; cases hq.symm.trans e; rfl
  · rename_i h
    constructor
    · intro h'; cases h'
    · rintro ⟨a, b, rest, e, _⟩; exact absurd e (h a b rest)

theorem mergeOnce_ne_refused {s : State} {e : Refusal} : mergeOnce s ≠ .refused e := by
  unfold mergeOnce; split
  · split <;> [simp; split <;> [simp; split <;> simp]]
  · simp

/-- A merge in a state that meets the invariants answers a next state (R25, R132). -/
theorem TreeInv.mergeOnce {s : State} (h : TreeInv s) (hf : ∀ b, (s.freqAt b).toNat ≤ s.freqMax)
    (hb : s.tree = .building) : ∃ a b rest, s.pq = a :: b :: rest ∧
      (s.nodeAt a).weight.toNat + (s.nodeAt b).weight.toNat < 2 ^ s.weightWidth ∧
      mergeOnce s = .next (s.merged a b rest) := by
  have hlen := h.building_len hb
  obtain ⟨a, b, rest, hq⟩ : ∃ a b rest, s.pq = a :: b :: rest := by
    match hq : s.pq with
    | [] => simp [hq] at hlen
    | [a] => simp [hq] at hlen
    | a :: b :: rest => exact ⟨a, b, rest, rfl⟩
  have hw := two_le_sum h (by rw [hb]; simp) hq
  have hw' := leaves_sum_lt hf
  exact ⟨a, b, rest, hq, by omega,
    mergeOnce_eq_next.2 ⟨a, b, rest, hq, h.pq_defined, h.nodeCount_lt hb, by omega, rfl⟩⟩

/-- The fields that no merge writes. -/
theorem merged_frame (s : State) (a b : Idx) (rest : List Idx) :
    s.merged a b rest = { s with
      node := (s.merged a b rest).node, nodeCount := (s.merged a b rest).nodeCount, pq := (s.merged a b rest).pq,
      tree := (s.merged a b rest).tree, rootIdx := (s.merged a b rest).rootIdx,
      decCur := (s.merged a b rest).decCur } := by
  unfold State.merged; dsimp only; split <;> rfl

/-! ### The merge loop -/

/-- What every merge keeps, the loop keeps. -/
theorem mergeLoop_induct {P : State → Prop} (hstep : ∀ u v, P u → u.tree = .building → mergeOnce u = .next v → P v)
    {n : Nat} {s t : State} (hs : P s) (h : mergeLoop n s = .next t) : P t := by
  induction n generalizing s with
  | zero => cases h; exact hs
  | succ n ih =>
    unfold mergeLoop at h
    split at h
    · rename_i hb
      obtain ⟨u, hu, h⟩ := andThen_eq_next.1 h
      exact ih (hstep s u hs hb hu) h
    · cases h; exact hs

theorem mergeLoop_ne_refused {n : Nat} {s : State} {e : Refusal} : mergeLoop n s ≠ .refused e := by
  induction n generalizing s with
  | zero => simp [mergeLoop]
  | succ n ih =>
    unfold mergeLoop
    split
    · cases hm : Sys2Proof.Machine.mergeOnce s with
      | next u => exact ih
      | fault f => simp [andThen]
      | refused r => exact absurd hm mergeOnce_ne_refused
    · simp

/-- The fields that a build's merges never write. -/
theorem mergeLoop_frame {n : Nat} {s t : State} (h : mergeLoop n s = .next t) :
    t = { s with node := t.node, nodeCount := t.nodeCount, pq := t.pq, tree := t.tree, rootIdx := t.rootIdx,
                 decCur := t.decCur } := by
  refine mergeLoop_induct (P := fun u => u = { s with
    node := u.node, nodeCount := u.nodeCount, pq := u.pq, tree := u.tree, rootIdx := u.rootIdx, decCur := u.decCur })
    ?_ rfl h
  intro u v hu _ hm
  obtain ⟨a, b, rest, _, _, _, _, rfl⟩ := mergeOnce_eq_next.1 hm
  have := merged_frame u a b rest
  rw [hu] at this ⊢
  exact this

/-- The loop keeps the tree invariant. -/
theorem mergeLoop_treeInv {n : Nat} {s t : State} (hs : TreeInv s) (h : mergeLoop n s = .next t) : TreeInv t := by
  refine mergeLoop_induct (P := TreeInv) ?_ hs h
  intro u v hu hb hm
  obtain ⟨a, b, rest, hq, _, _, hw, rfl⟩ := mergeOnce_eq_next.1 hm
  exact merged_treeInv hu hb hq hw

/-- The merge that finishes a tree leaves the cursor at its root (R124). -/
theorem mergeLoop_cursor {n : Nat} {s t : State} (hs : s.tree = .built → s.decCur = s.rootIdx)
    (h : mergeLoop n s = .next t) : t.tree = .built → t.decCur = t.rootIdx := by
  refine mergeLoop_induct (P := fun u => u.tree = .built → u.decCur = u.rootIdx) ?_ hs h
  intro u v hu hb hm
  obtain ⟨a, b, rest, _, _, _, _, rfl⟩ := mergeOnce_eq_next.1 hm
  cases rest with
  | nil => obtain ⟨_, h2, h3, _⟩ := merged_last u a b; intro _; rw [h2, h3]
  | cons c rest => intro h; rw [(merged_more u a b c rest).1, hb] at h; cases h

/-- A loop with enough fuel finishes the build (R123, R248), and as many MERGE_STEP commands do the same. -/
theorem mergeLoop_finishes {n : Nat} {s : State} (hs : TreeInv s) (hf : ∀ b, (s.freqAt b).toNat ≤ s.freqMax)
    (ht : s.tree ≠ .none) (hn : s.pq.length ≤ n + 1) :
    ∃ t, mergeLoop n s = .next t ∧ TreeInv t ∧ (t.tree = .empty ∨ t.tree = .built) ∧
      execAll (List.replicate (s.pq.length - 1) .mergeStep) s = .next t := by
  induction n generalizing s with
  | zero =>
    have hb : s.tree ≠ .building := fun hb => by have := hs.building_len hb; omega
    refine ⟨s, rfl, hs, ?_, ?_⟩
    · cases h : s.tree <;> simp_all
    · rw [show s.pq.length - 1 = 0 by omega]; rfl
  | succ n ih =>
    by_cases hb : s.tree = .building
    · obtain ⟨a, b, rest, hq, hw, hm⟩ := hs.mergeOnce hf hb
      have hi := merged_treeInv hs hb hq hw
      have hlen : (s.merged a b rest).pq.length = rest.length + 1 := by
        rw [(merged_pq_perm s a b rest).length_eq]; rfl
      have hne : (s.merged a b rest).tree ≠ .none := by
        cases rest with
        | nil => rw [(merged_last s a b).1]; simp
        | cons c rest => rw [(merged_more s a b c rest).1, hb]; simp
      rw [hq, List.length_cons, List.length_cons] at hn
      have hf' : ∀ c, ((s.merged a b rest).freqAt c).toNat ≤ (s.merged a b rest).freqMax := by
        intro c; simpa [State.freqAt, State.freqMax] using hf c
      obtain ⟨t, h1, h2, h3, h4⟩ := ih hi hf' hne (by omega)
      refine ⟨t, ?_, h2, h3, ?_⟩
      · unfold mergeLoop; rw [if_pos hb, hm]; exact h1
      · rw [hq, show (a :: b :: rest).length - 1 = ((s.merged a b rest).pq.length - 1) + 1 by
          rw [hlen]; simp, List.replicate_succ, execAll_cons]
        have : exec .mergeStep s = .next (s.merged a b rest) := by
          simp [exec, execMergeStep, hb, hm]
        rw [this]; exact h4
    · refine ⟨s, by unfold mergeLoop; rw [if_neg hb], hs, ?_, ?_⟩
      · cases h : s.tree <;> simp_all
      · have h1 : s.pq.length ≤ 1 := by
          cases h : s.tree with
          | none => exact absurd h ht
          | building => exact absurd h hb
          | empty => simp [(hs.empty_shape h).2.1]
          | built => simp [hs.built_queue h]
        rw [show s.pq.length - 1 = 0 by omega]; rfl

/-! ### BUILD -/

theorem buildInit_pq_length (s : State) : s.buildInit.pq.length = s.leaves.length := by
  rw [(buildInit_queue s).1.length_eq]; simp [indicesBelow]

theorem buildInit_tree (s : State) : s.buildInit.tree = treeAfterInit s.leaves.length := rfl

/-- BUILD's loop finishes from what BUILD_INIT leaves (R126). -/
theorem build_finishes {s : State} (hf : ∀ b, (s.freqAt b).toNat ≤ s.freqMax) :
    ∃ t, mergeLoop 255 s.buildInit = .next t ∧ TreeInv t ∧ (t.tree = .empty ∨ t.tree = .built) ∧
      execAll (List.replicate (s.leaves.length - 1) .mergeStep) s.buildInit = .next t := by
  have := mergeLoop_finishes (n := 255) (buildInit_treeInv s) hf (by rw [buildInit_tree]; exact treeAfterInit_ne_none _)
    (by rw [buildInit_pq_length]; exact leaves_length_le s)
  rwa [buildInit_pq_length] at this

/-- What a finished build is, from the invariant alone (R131). -/
theorem TreeInv.built_counts {s : State} (h : TreeInv s) (hb : s.tree = .built) :
    1 ≤ s.leafCount.toNat ∧ s.nodeCount.toNat = 2 * s.leafCount.toNat - 1 ∧ s.rootIdx.toNat < s.nodeCount.toNat := by
  have hq := h.built_queue hb
  have hc := h.count
  have hr := h.pq_defined s.rootIdx (by rw [hq]; simp)
  rw [hq, List.length_singleton] at hc
  omega

/-- The children of the internal nodes are all different, and none is in the queue. -/
theorem TreeInv.children_nodup {s : State} (h : TreeInv s) : s.children.Nodup := (List.nodup_append.1 h.once).2.1

theorem TreeInv.children_length (s : State) : s.children.length = 2 * (s.nodeCount.toNat - s.leafCount.toNat) := by
  unfold State.children
  have : ∀ l : List Idx, (l.flatMap fun i => [(s.nodeAt i).left, (s.nodeAt i).right]).length = 2 * l.length := by
    intro l; induction l with
    | nil => rfl
    | cons x l ih => rw [List.flatMap_cons, List.length_append, ih, List.length_cons, List.length_cons]; simp; omega
  rw [this]; unfold State.internalIdx; simp

/-- Every defined record is queued or the child of an internal node. -/
theorem TreeInv.queued_or_child {s : State} (h : TreeInv s) {k : Idx} (hk : k.toNat < s.nodeCount.toNat) :
    k ∈ s.pq ∨ k ∈ s.children := by
  have hlen : (s.pq ++ s.children).length = s.nodeCount.toNat := by
    have h1 := h.count
    have h2 := h.leafCount_le_nodeCount
    rw [List.length_append, TreeInv.children_length]; omega
  by_contra hnot
  have hnd : (k :: (s.pq ++ s.children)).Nodup :=
    List.nodup_cons.2 ⟨fun hm => hnot (List.mem_append.1 hm), h.once⟩
  have := length_le_of_nodup (n := s.nodeCount.toNat) hnd (by
    intro x hx
    rcases List.mem_cons.1 hx with rfl | hx
    · exact hk
    · rcases List.mem_append.1 hx with hx | hx
      · exact h.pq_defined x hx
      · exact h.children_lt hx)
  rw [List.length_cons, hlen] at this
  omega

/-- The root of a finished tree is its last record (R131). -/
theorem TreeInv.built_root {s : State} (h : TreeInv s) (hb : s.tree = .built) :
    s.rootIdx.toNat = s.nodeCount.toNat - 1 := by
  obtain ⟨h1, h2, h3⟩ := h.built_counts hb
  have hn := s.nodeCount.isLt
  have ht : (BitVec.ofNat 9 (s.nodeCount.toNat - 1)).toNat = s.nodeCount.toNat - 1 := toNat_ofNat_idx (by omega)
  rcases h.queued_or_child (k := BitVec.ofNat 9 (s.nodeCount.toNat - 1)) (by omega) with hk | hk
  · rw [h.built_queue hb] at hk
    rw [← List.mem_singleton.1 hk, ht]
  · exfalso
    unfold State.children State.internalIdx at hk
    simp only [List.mem_flatMap, List.mem_map, List.mem_range'_1] at hk
    obtain ⟨i, ⟨j, ⟨hj1, hj2⟩, rfl⟩, hk⟩ := hk
    have hj : (BitVec.ofNat 9 j).toNat = j := toNat_ofNat_idx (by omega)
    have hm := h.merges (BitVec.ofNat 9 j) (by omega) (by omega)
    have hl := hm.left_lt
    have hr := hm.right_lt
    simp only [List.mem_cons, List.not_mem_nil, or_false] at hk
    rcases hk with e | e <;> have := congrArg BitVec.toNat e <;> omega

/-- Which records are leaves: exactly the first `LEAF_COUNT` ones (R131). -/
theorem TreeInv.leaf_kind {s : State} (h : TreeInv s) (ht : s.tree ≠ .none) {i : Idx}
    (hi : i.toNat < s.leafCount.toNat) : ∃ hlt : i.toNat < s.leaves.length, s.nodeAt i = s.leaves[i.toNat] := by
  have hlc := h.leaf_count ht
  refine ⟨by omega, ?_⟩
  have := h.leaf_recs ht i.toNat (by omega)
  rwa [show BitVec.ofNat 9 i.toNat = i by simp] at this

theorem TreeInv.kind_leaf_iff {s : State} (h : TreeInv s) (ht : s.tree ≠ .none) {i : Idx}
    (hi : i.toNat < s.nodeCount.toNat) : (s.nodeAt i).kind = .leaf ↔ i.toNat < s.leafCount.toNat := by
  constructor
  · intro hk
    by_contra hge
    have := (h.merges i (by omega) hi).kind
    rw [hk] at this; cases this
  · intro hlt
    obtain ⟨h1, h2⟩ := h.leaf_kind ht hlt
    rw [h2, (mem_leaves.1 (List.getElem_mem h1)).1]

theorem TreeInv.kind_internal_iff {s : State} (h : TreeInv s) (ht : s.tree ≠ .none) {i : Idx}
    (hi : i.toNat < s.nodeCount.toNat) : (s.nodeAt i).kind = .internal ↔ s.leafCount.toNat ≤ i.toNat := by
  have := h.kind_leaf_iff ht hi
  cases hk : (s.nodeAt i).kind <;> simp [hk] at this ⊢ <;> omega

/-- An internal record is a merge of two earlier ones. -/
theorem TreeInv.isMerge {s : State} (h : TreeInv s) (ht : s.tree ≠ .none) {i : Idx}
    (hi : i.toNat < s.nodeCount.toNat) (hk : (s.nodeAt i).kind = .internal) : IsMerge s i :=
  h.merges i ((h.kind_internal_iff ht hi).1 hk) hi

end Sys2Proof.Machine
end

