-- ==== Sys2Proof/Laws/Codes.lean ====
section
/-! SUPPORT. Paths in a finished tree, what the walk of GEN_CODES records, and the paths a code table entry stands for. -/

namespace Sys2Proof.Machine

/-! ### Paths -/

@[simp] theorem follow_nil (s : State) (i : Idx) : s.follow [] i = some i := rfl

/-- A branch is taken at an internal record only. -/
theorem follow_cons {s : State} {b : Bool} {bs : List Bool} {i j : Idx} :
    s.follow (b :: bs) i = some j ↔ i.toNat < s.nodeCount.toNat ∧ (s.nodeAt i).kind = .internal ∧
      s.follow bs (if b then (s.nodeAt i).right else (s.nodeAt i).left) = some j := by
  rw [State.follow]
  cases hn : s.node? i with
  | none => have := node?_eq_none.1 hn; simp; omega
  | some n =>
    obtain ⟨hi, rfl⟩ := node?_eq_some.1 hn
    cases hk : (s.nodeAt i).kind <;> simp [hi, hk]

theorem follow_append {s : State} {q r : List Bool} {i j : Idx} :
    s.follow (q ++ r) i = some j ↔ ∃ k, s.follow q i = some k ∧ s.follow r k = some j := by
  induction q generalizing i with
  | nil => simp
  | cons b q ih =>
    rw [List.cons_append, follow_cons, ih]
    constructor
    · rintro ⟨h1, h2, k, h3, h4⟩; exact ⟨k, follow_cons.2 ⟨h1, h2, h3⟩, h4⟩
    · rintro ⟨k, h1, h4⟩
      obtain ⟨h1, h2, h3⟩ := follow_cons.1 h1
      exact ⟨h1, h2, k, h3, h4⟩

/-- A leaf has no path to another node. -/
theorem follow_leaf {s : State} {q : List Bool} {i j : Idx} (hk : (s.nodeAt i).kind = .leaf)
    (h : s.follow q i = some j) : q = [] ∧ j = i := by
  cases q with
  | nil => cases h; exact ⟨rfl, rfl⟩
  | cons b q => have := (follow_cons.1 h).2.1; rw [hk] at this; cases this

/-- Each branch leads to an earlier record, so a path of length d goes down by at least d. -/
theorem TreeInv.follow_le {s : State} (h : TreeInv s) (ht : s.tree ≠ .none) {q : List Bool} {i j : Idx}
    (hq : s.follow q i = some j) : j.toNat + q.length ≤ i.toNat := by
  induction q generalizing i with
  | nil => cases hq; simp
  | cons b q ih =>
    obtain ⟨h1, h2, h3⟩ := follow_cons.1 hq
    have hm := h.isMerge ht h1 h2
    have hl := hm.left_lt
    have hr := hm.right_lt
    have := ih h3
    rw [List.length_cons]
    cases b <;> simp at this <;> omega

/-- A path with d branches passes d internal records, so d is at most how far its start stands above the leaves (R153). -/
theorem TreeInv.follow_length {s : State} (h : TreeInv s) (ht : s.tree ≠ .none) {q : List Bool} {i j : Idx}
    (hq : s.follow q i = some j) : q.length ≤ i.toNat + 1 - s.leafCount.toNat := by
  induction q generalizing i with
  | nil => simp
  | cons b q ih =>
    obtain ⟨h1, h2, h3⟩ := follow_cons.1 hq
    have hge := (h.kind_internal_iff ht h1).1 h2
    have hm := h.isMerge ht h1 h2
    have hl := hm.left_lt
    have hr := hm.right_lt
    have := ih h3
    rw [List.length_cons]
    cases b <;> simp at this <;> omega

theorem TreeInv.follow_defined {s : State} (h : TreeInv s) (ht : s.tree ≠ .none) {q : List Bool} {i j : Idx}
    (hi : i.toNat < s.nodeCount.toNat) (hq : s.follow q i = some j) : j.toNat < s.nodeCount.toNat := by
  have := h.follow_le ht hq; omega

/-- A child of an internal record is in the list of children. -/
theorem TreeInv.child_mem {s : State} (h : TreeInv s) (ht : s.tree ≠ .none) {i : Idx}
    (hi : i.toNat < s.nodeCount.toNat) (hk : (s.nodeAt i).kind = .internal) : i ∈ s.internalIdx := by
  have hge := (h.kind_internal_iff ht hi).1 hk
  unfold State.internalIdx
  simp only [List.mem_map, List.mem_range'_1]
  exact ⟨i.toNat, ⟨hge, by omega⟩, by simp⟩

/-- Two internal records with a child in common are one, and take the same branch to it (R24 (c)). -/
theorem TreeInv.parent_unique {s : State} (h : TreeInv s) (ht : s.tree ≠ .none) {i j k : Idx} {b c : Bool}
    (hi : i.toNat < s.nodeCount.toNat) (hik : (s.nodeAt i).kind = .internal)
    (hj : j.toNat < s.nodeCount.toNat) (hjk : (s.nodeAt j).kind = .internal)
    (hb : (if b then (s.nodeAt i).right else (s.nodeAt i).left) = k)
    (hc : (if c then (s.nodeAt j).right else (s.nodeAt j).left) = k) : i = j ∧ b = c := by
  have hnd := h.children_nodup
  unfold State.children at hnd
  have key := List.nodup_flatMap.1 hnd
  have hmi := h.child_mem ht hi hik
  have hmj := h.child_mem ht hj hjk
  have hkey := key.2
  by_cases hij : i = j
  · subst hij
    refine ⟨rfl, ?_⟩
    have := key.1 i hmi
    simp only [List.nodup_cons, List.mem_singleton, List.not_mem_nil, not_false_eq_true, List.nodup_nil, and_true] at this
    cases b <;> cases c <;> simp at hb hc
    · rfl
    · exact absurd (hb.trans hc.symm) this
    · exact absurd (hc.trans hb.symm) this
    · rfl
  · exfalso
    have hdis : List.Disjoint [(s.nodeAt i).left, (s.nodeAt i).right] [(s.nodeAt j).left, (s.nodeAt j).right] := by
      rcases List.pairwise_iff_getElem.1 hkey with hget
      obtain ⟨a, ha, rfl⟩ := List.mem_iff_getElem.1 hmi
      obtain ⟨b', hb', rfl⟩ := List.mem_iff_getElem.1 hmj
      rcases Nat.lt_trichotomy a b' with hlt | heq | hlt
      · exact hget a b' ha hb' hlt
      · subst heq; exact absurd rfl hij
      · exact (hget b' a hb' ha hlt).symm
    have h1 : k ∈ [(s.nodeAt i).left, (s.nodeAt i).right] := by cases b <;> simp at hb <;> simp [hb]
    have h2 : k ∈ [(s.nodeAt j).left, (s.nodeAt j).right] := by cases c <;> simp at hc <;> simp [hc]
    exact hdis h1 h2

theorem follow_snoc {s : State} {q : List Bool} {b : Bool} {i j : Idx} :
    s.follow (q ++ [b]) i = some j ↔ ∃ k, s.follow q i = some k ∧ k.toNat < s.nodeCount.toNat ∧
      (s.nodeAt k).kind = .internal ∧ (if b then (s.nodeAt k).right else (s.nodeAt k).left) = j := by
  rw [follow_append]
  constructor
  · rintro ⟨k, h1, h2⟩
    obtain ⟨h2, h3, h4⟩ := follow_cons.1 h2
    exact ⟨k, h1, h2, h3, by simpa using h4⟩
  · rintro ⟨k, h1, h2, h3, h4⟩
    exact ⟨k, h1, follow_cons.2 ⟨h2, h3, by simp [h4]⟩⟩

/-- Two paths from one node to one node are equal. -/
theorem TreeInv.path_unique {s : State} (h : TreeInv s) (ht : s.tree ≠ .none) {q r : List Bool} {i j : Idx}
    (hq : s.follow q i = some j) (hr : s.follow r i = some j) : q = r := by
  induction q using List.reverseRecOn generalizing r j with
  | nil =>
    cases hq
    have := h.follow_le ht hr
    exact (List.length_eq_zero_iff.1 (by omega)).symm
  | append_singleton q b ih =>
    rcases List.eq_nil_or_concat r with rfl | ⟨r, c, rfl⟩
    · cases hr
      have := h.follow_le ht hq
      simp at this
    · rw [List.concat_eq_append] at *
      obtain ⟨k, h1, h2, h3, h4⟩ := follow_snoc.1 hq
      obtain ⟨l, g1, g2, g3, g4⟩ := follow_snoc.1 hr
      obtain ⟨rfl, rfl⟩ := h.parent_unique ht h2 h3 g2 g3 h4 g4
      rw [ih h1 g1]

/-- Every record of a finished tree is reached from the root. -/
theorem TreeInv.reached {s : State} (h : TreeInv s) (hb : s.tree = .built) {i : Idx}
    (hi : i.toNat < s.nodeCount.toNat) : ∃ q, s.follow q s.rootIdx = some i := by
  have hne : s.tree ≠ .none := by rw [hb]; simp
  generalize hn : s.nodeCount.toNat - i.toNat = n
  induction n using Nat.strongRecOn generalizing i with
  | _ n ih =>
    rcases h.queued_or_child hi with hq | hc
    · rw [h.built_queue hb, List.mem_singleton] at hq
      exact ⟨[], by rw [hq]; rfl⟩
    · unfold State.children at hc
      obtain ⟨p, hp, hpi⟩ := List.mem_flatMap.1 hc
      unfold State.internalIdx at hp
      simp only [List.mem_map, List.mem_range'_1] at hp
      obtain ⟨k, ⟨hk1, hk2⟩, rfl⟩ := hp
      have hlt := s.nodeCount.isLt
      have hk : (BitVec.ofNat 9 k).toNat = k := toNat_ofNat_idx (by omega)
      have hm := h.merges (BitVec.ofNat 9 k) (by omega) (by omega)
      have hl := hm.left_lt
      have hr := hm.right_lt
      simp only [List.mem_cons, List.not_mem_nil, or_false] at hpi
      have hki : i.toNat < (BitVec.ofNat 9 k).toNat := by rcases hpi with e | e <;> rw [e] <;> omega
      obtain ⟨q, hq⟩ := ih (s.nodeCount.toNat - (BitVec.ofNat 9 k).toNat) (by omega) (i := BitVec.ofNat 9 k)
        (by omega) rfl
      rcases hpi with e | e
      · exact ⟨q ++ [false], follow_snoc.2 ⟨_, hq, by omega, hm.kind, by simp [e]⟩⟩
      · exact ⟨q ++ [true], follow_snoc.2 ⟨_, hq, by omega, hm.kind, by simp [e]⟩⟩

/-- Two leaf records with one symbol are one record (R130). -/
theorem TreeInv.leaf_symbol_inj {s : State} (h : TreeInv s) (ht : s.tree ≠ .none) {i j : Idx}
    (hi : i.toNat < s.nodeCount.toNat) (hik : (s.nodeAt i).kind = .leaf) (hj : j.toNat < s.nodeCount.toNat)
    (hjk : (s.nodeAt j).kind = .leaf) (hs : (s.nodeAt i).symbol = (s.nodeAt j).symbol) : i = j := by
  obtain ⟨hi', ei⟩ := h.leaf_kind ht ((h.kind_leaf_iff ht hi).1 hik)
  obtain ⟨hj', ej⟩ := h.leaf_kind ht ((h.kind_leaf_iff ht hj).1 hjk)
  have hnd := leaves_symbols_nodup s
  have := (hnd.getElem_inj_iff (i := i.toNat) (j := j.toNat) (hi := by simpa using hi') (hj := by simpa using hj')).1
    (by simpa [← ei, ← ej] using hs)
  exact BitVec.eq_of_toNat_eq this

/-! ### The walk -/

/-- The walk reads the tree only through its defined records (R27). -/
theorem walk_congr {s u : State} (h : ∀ i, u.node? i = s.node? i) (n : Nat) (i : Idx) (p : List Bool)
    (t : Vector CodeEntry Config.nsym) : walk u n i p t = walk s n i p t := by
  induction n generalizing i p t with
  | zero => rfl
  | succ n ih => unfold walk; simp only [h, ih]

theorem generatedCodes_congr {s u : State} (h : ∀ i, u.node? i = s.node? i) (ht : u.tree = s.tree)
    (hr : u.rootIdx = s.rootIdx) : u.generatedCodes = s.generatedCodes := by
  unfold State.generatedCodes; rw [ht, hr, walk_congr h]

/-- The entry of symbol `b` in a code table. -/
def codeOf (t : Vector CodeEntry Config.nsym) (b : Byte) : CodeEntry := t[b.toNat]'b.isLt

theorem codeAt_eq (s : State) (b : Byte) : s.codeAt b = codeOf s.codes b := rfl

theorem codeOf_set (t : Vector CodeEntry Config.nsym) (c b : Byte) (e : CodeEntry) :
    codeOf (t.set c.toNat e c.isLt) b = if b = c then e else codeOf t b := by
  unfold codeOf
  rw [Vector.getElem_set]
  by_cases h : b = c
  · subst h; simp
  · rw [if_neg h, if_neg]
    intro e; exact h (BitVec.eq_of_toNat_eq e.symm)

@[simp] theorem codeOf_blank (b : Byte) : codeOf blankCodes b = ⟨false, 0, 0⟩ := by
  simp [codeOf, blankCodes, CodeEntry.blank]

theorem codes_ext {t u : Vector CodeEntry Config.nsym} (h : ∀ b, codeOf t b = codeOf u b) : t = u := by
  apply Vector.ext
  intro i hi
  have := h (BitVec.ofNat 8 i)
  have hi' : i < 256 := hi
  unfold codeOf at this
  simpa [BitVec.toNat_ofNat, Nat.mod_eq_of_lt hi'] using this

/-- The walk succeeds from every defined record, with fuel for the levels below it (R153). -/
theorem TreeInv.walk_ok {s : State} (h : TreeInv s) (ht : s.tree ≠ .none) {n : Nat} {i : Idx}
    (hi : i.toNat < s.nodeCount.toNat) (hn : i.toNat + 1 - s.leafCount.toNat < n) (p : List Bool)
    (t : Vector CodeEntry Config.nsym) : ∃ t', walk s n i p t = .ok t' := by
  induction n generalizing i p t with
  | zero => omega
  | succ n ih =>
    unfold walk
    rw [node?_of_lt hi]
    dsimp only
    cases hk : (s.nodeAt i).kind with
    | leaf => exact ⟨_, rfl⟩
    | internal =>
      have hge := (h.kind_internal_iff ht hi).1 hk
      have hm := h.isMerge ht hi hk
      have hl := hm.left_lt
      have hr := hm.right_lt
      obtain ⟨t1, h1⟩ := ih (i := (s.nodeAt i).right) (by omega) (by omega) (p ++ [true]) t
      obtain ⟨t2, h2⟩ := ih (i := (s.nodeAt i).left) (by omega) (by omega) (p ++ [false]) t1
      exact ⟨t2, by simp only [h1, h2]⟩

/-- What a walk records: each leaf below its start has the entry of a path to it, and nothing else changes (R150). -/
theorem walk_spec {s : State} {n : Nat} {i : Idx} {p : List Bool} {t t' : Vector CodeEntry Config.nsym}
    (h : walk s n i p t = .ok t') (b : Byte) :
    (∃ q j, s.follow q i = some j ∧ (s.nodeAt j).kind = .leaf ∧ (s.nodeAt j).symbol = b ∧
      codeOf t' b = entryOfPath (p ++ q)) ∨
    ((∀ q j, s.follow q i = some j → (s.nodeAt j).kind = .leaf → (s.nodeAt j).symbol ≠ b) ∧
      codeOf t' b = codeOf t b) := by
  induction n generalizing i p t t' with
  | zero => cases h
  | succ n ih =>
    unfold walk at h
    cases hn : s.node? i with
    | none => rw [hn] at h; cases h
    | some r =>
      rw [hn] at h; dsimp only at h
      obtain ⟨hi, rfl⟩ := node?_eq_some.1 hn
      cases hk : (s.nodeAt i).kind with
      | leaf =>
        rw [hk] at h; cases h
        by_cases hb : (s.nodeAt i).symbol = b
        · refine Or.inl ⟨[], i, rfl, hk, hb, ?_⟩
          rw [codeOf_set, if_pos hb.symm, List.append_nil]
        · refine Or.inr ⟨?_, ?_⟩
          · intro q j hq hj
            obtain ⟨_, rfl⟩ := follow_leaf hk hq
            exact hb
          · rw [codeOf_set, if_neg (fun e => hb e.symm)]
      | internal =>
        rw [hk] at h; dsimp only at h
        cases h1 : walk s n (s.nodeAt i).right (p ++ [true]) t with
        | error e => rw [h1] at h; cases h
        | ok t1 =>
          rw [h1] at h; dsimp only at h
          rcases ih h with ⟨q, j, hq, hj, hb, he⟩ | ⟨hno, he⟩
          · exact Or.inl ⟨false :: q, j, follow_cons.2 ⟨hi, hk, hq⟩, hj, hb, by rw [he]; simp⟩
          · rcases ih h1 with ⟨q, j, hq, hj, hb, he'⟩ | ⟨hno', he'⟩
            · exact Or.inl ⟨true :: q, j, follow_cons.2 ⟨hi, hk, hq⟩, hj, hb, by rw [he, he']; simp⟩
            · refine Or.inr ⟨?_, by rw [he, he']⟩
              intro q j hq hj
              cases q with
              | nil => cases hq; rw [hk] at hj; cases hj
              | cons c q =>
                have := (follow_cons.1 hq).2.2
                cases c with
                | false => exact hno q j (by simpa using this) hj
                | true => exact hno' q j (by simpa using this) hj

/-- GEN_CODES always finds its table in a state that meets the invariant. -/
theorem TreeInv.generatedCodes_ok {s : State} (h : TreeInv s) : ∃ c, s.generatedCodes = .ok c := by
  unfold State.generatedCodes
  split
  · rename_i hb
    obtain ⟨h1, h2, h3⟩ := h.built_counts hb
    have h4 := h.leafCount_le
    have : Config.maxCodeLen = 255 := rfl
    exact h.walk_ok (by rw [hb]; simp) h3 (by omega) _ _
  · exact ⟨_, rfl⟩

/-- What GEN_CODES finds for a finished tree: each symbol has the entry of its leaf's path, or none (R150, R152). -/
theorem generatedCodes_spec {s : State} (hb : s.tree = .built) {c : Vector CodeEntry Config.nsym}
    (h : s.generatedCodes = .ok c) (b : Byte) :
    (∃ q j, s.follow q s.rootIdx = some j ∧ (s.nodeAt j).kind = .leaf ∧ (s.nodeAt j).symbol = b ∧
      codeOf c b = entryOfPath q) ∨
    ((∀ q j, s.follow q s.rootIdx = some j → (s.nodeAt j).kind = .leaf → (s.nodeAt j).symbol ≠ b) ∧
      codeOf c b = ⟨false, 0, 0⟩) := by
  unfold State.generatedCodes at h
  rw [if_pos hb] at h
  simpa using walk_spec h b

/-! ### Entries -/

@[simp] theorem entryOfPath_valid (q : List Bool) : (entryOfPath q).valid = true := rfl

theorem entryOfPath_len {q : List Bool} (h : q.length ≤ 255) : (entryOfPath q).len.toNat = q.length := by
  unfold entryOfPath; dsimp only; rw [BitVec.toNat_ofNat]; omega

theorem entryOfPath_bit {q : List Bool} (h : q.length ≤ 255) (k : Nat) :
    (entryOfPath q).bits.getLsbD k = q.getD k false := by
  unfold entryOfPath; dsimp only
  rw [ofBits_getLsbD]
  by_cases hk : k < 255
  · have : decide (k < Config.maxCodeLen) = true := by simpa [Config.maxCodeLen] using hk
    rw [this, Bool.true_and]
  · rw [List.getD_eq_default _ _ (by omega), Bool.and_false]

/-- The entry of a path stands for that path. -/
theorem entryOfPath_path {q : List Bool} (h : q.length ≤ 255) : (entryOfPath q).path = q := by
  unfold CodeEntry.path
  rw [entryOfPath_len h]
  apply List.ext_getElem
  · simp
  · intro k h1 h2
    rw [List.getElem_map, List.getElem_range, entryOfPath_bit h, List.getD_eq_getElem _ _ h2]

/-- The characters of a code are those of its path (R32, R190). -/
theorem CodeEntry.text_eq (e : CodeEntry) : e.text = e.path.map bitChar := by
  simp [CodeEntry.text, CodeEntry.path, Function.comp_def]

/-- What a valid entry of the code table is, under the invariants (R150, R152, R153). -/
theorem valid_entry {s : State} (h : TreeInv s) (hc : CodeInv s) (hv : s.codesValid = true) {b : Byte}
    (hb : (s.codeAt b).valid = true) : s.tree = .built ∧ ∃ q j, s.follow q s.rootIdx = some j ∧
      (s.nodeAt j).kind = .leaf ∧ (s.nodeAt j).symbol = b ∧ q.length ≤ s.leafCount.toNat - 1 ∧
      s.codeAt b = entryOfPath q ∧ (s.codeAt b).path = q := by
  obtain ⟨hf, hg⟩ := hc.valid hv
  have ht : s.tree = .built := by
    by_contra hne
    unfold State.generatedCodes at hg
    rw [if_neg hne] at hg
    rw [codeAt_eq, ← (Except.ok.inj hg)] at hb
    simp at hb
  refine ⟨ht, ?_⟩
  rcases generatedCodes_spec ht hg b with ⟨q, j, h1, h2, h3, h4⟩ | ⟨_, h4⟩
  · have hlen := h.follow_length (by rw [ht]; simp) h1
    have hroot := h.built_root ht
    obtain ⟨c1, c2, c3⟩ := h.built_counts ht
    have hle := h.leafCount_le
    have hq : q.length ≤ s.leafCount.toNat - 1 := by omega
    refine ⟨q, j, h1, h2, h3, hq, h4, ?_⟩
    rw [codeAt_eq, h4]; exact entryOfPath_path (by omega)
  · rw [codeAt_eq, h4] at hb; cases hb

/-! ### The sum of Kraft's equality -/

/-- The term of one entry, scaled by 2^255. -/
def kraftTerm (e : CodeEntry) : Nat := if e.valid then 2 ^ (255 - e.len.toNat) else 0

/-- The sum of the terms of a code table. -/
def kraftSum (t : Vector CodeEntry Config.nsym) : Nat := (symbols.map fun b => kraftTerm (codeOf t b)).sum

theorem symbols_nodup : symbols.Nodup := by
  have := symbols_pairwise
  exact this.imp fun {a b} h => by rintro rfl; omega

/-- A sum over distinct symbols changes by what one term changes. -/
theorem sum_update {f g : Byte → Nat} {c : Byte} {l : List Byte} (hl : l.Nodup) (hc : c ∈ l)
    (h : ∀ b, b ≠ c → f b = g b) : (l.map f).sum + g c = (l.map g).sum + f c := by
  induction l with
  | nil => cases hc
  | cons x l ih =>
    obtain ⟨hx, hl⟩ := List.nodup_cons.1 hl
    simp only [List.map_cons, List.sum_cons]
    by_cases hxc : x = c
    · subst hxc
      have : l.map f = l.map g := List.map_congr_left fun b hb => h b fun e => hx (e ▸ hb)
      rw [this]; omega
    · have hc' : c ∈ l := by rcases List.mem_cons.1 hc with e | e; exact absurd e.symm hxc; exact e
      have := ih hl hc'
      rw [h x hxc]; omega

/-- A walk from a node adds 2^(255 - depth) to the sum: the terms below a full tree's node are worth the node's own. -/
theorem TreeInv.walk_kraft {s : State} (h : TreeInv s) (ht : s.tree ≠ .none) {n : Nat} {i : Idx} {p : List Bool}
    {t t' : Vector CodeEntry Config.nsym} (hi : i.toNat < s.nodeCount.toNat)
    (hp : p.length + (i.toNat + 1 - s.leafCount.toNat) ≤ 255) (hw : walk s n i p t = .ok t')
    (hfresh : ∀ q j, s.follow q i = some j → (s.nodeAt j).kind = .leaf →
      (codeOf t (s.nodeAt j).symbol).valid = false) :
    kraftSum t' = kraftSum t + 2 ^ (255 - p.length) := by
  induction n generalizing i p t t' with
  | zero => cases hw
  | succ n ih =>
    unfold walk at hw
    rw [node?_of_lt hi] at hw
    dsimp only at hw
    cases hk : (s.nodeAt i).kind with
    | leaf =>
      rw [hk] at hw; cases hw
      have hf := hfresh [] i rfl hk
      have := sum_update (f := fun b => kraftTerm (codeOf
          (t.set (s.nodeAt i).symbol.toNat (entryOfPath p) (s.nodeAt i).symbol.isLt) b))
        (g := fun b => kraftTerm (codeOf t b)) symbols_nodup (mem_symbols (s.nodeAt i).symbol) (by
          intro b hb; rw [codeOf_set, if_neg hb])
      have h1 : kraftTerm (codeOf t (s.nodeAt i).symbol) = 0 := by simp [kraftTerm, hf]
      have h2 : kraftTerm (entryOfPath p) = 2 ^ (255 - p.length) := by
        simp [kraftTerm, entryOfPath_len (show p.length ≤ 255 by omega)]
      simp only [codeOf_set, if_true, h1, h2] at this
      simp only [kraftSum, codeOf_set]
      omega
    | internal =>
      rw [hk] at hw; dsimp only at hw
      have hge := (h.kind_internal_iff ht hi).1 hk
      have hm := h.isMerge ht hi hk
      have hl := hm.left_lt
      have hr := hm.right_lt
      cases h1 : walk s n (s.nodeAt i).right (p ++ [true]) t with
      | error e => rw [h1] at hw; cases hw
      | ok t1 =>
        rw [h1] at hw; dsimp only at hw
        have e1 := ih (i := (s.nodeAt i).right) (by omega) (by simp; omega) h1 fun q j hq hj =>
          hfresh (true :: q) j (follow_cons.2 ⟨hi, hk, by simpa using hq⟩) hj
        have e2 := ih (i := (s.nodeAt i).left) (by omega) (by simp; omega) hw fun q j hq hj => by
          have hq' : s.follow (false :: q) i = some j := follow_cons.2 ⟨hi, hk, by simpa using hq⟩
          rcases walk_spec h1 (s.nodeAt j).symbol with ⟨r, k, hr', hkk, hsym, _⟩ | ⟨_, e⟩
          · have hr'' : s.follow (true :: r) i = some k := follow_cons.2 ⟨hi, hk, by simpa using hr'⟩
            have := h.leaf_symbol_inj ht (h.follow_defined ht hi hr'') hkk (h.follow_defined ht hi hq') hj hsym
            subst this
            have := h.path_unique ht hr'' hq'
            simp at this
          · rw [e]; exact hfresh _ j hq' hj
        rw [e2, e1]
        simp only [List.length_append, List.length_singleton]
        rw [show 255 - p.length = (255 - (p.length + 1)) + 1 by omega, Nat.pow_succ]
        omega

@[simp] theorem kraftSum_blank : kraftSum blankCodes = 0 := by
  unfold kraftSum
  have : (fun b => kraftTerm (codeOf blankCodes b)) = fun _ => 0 := by funext b; simp [kraftTerm]
  rw [this]; simp

end Sys2Proof.Machine
end

