-- ==== Sys2Proof/Laws/Decode.lean ====
section
/-! SUPPORT. The opcode map: what a matching row says of a word, and why no word has two. -/

namespace Sys2Proof

/-- Each row fixes OPC completely (R84). -/
theorem opcodeMap_opc {r : Row} (hr : r ∈ opcodeMap) : r.mask.extractLsb' 24 8 = 0xFF := by
  revert r
  simp only [opcodeMap, List.mem_cons, List.not_mem_nil, or_false, forall_eq_or_imp, forall_eq]; decide

/-- No two rows have one OPC (R86). -/
theorem opcodeMap_distinct : opcodeMap.Pairwise fun r q => fieldOpc r.pattern ≠ fieldOpc q.pattern := by
  have : (opcodeMap.map fun r => fieldOpc r.pattern).Pairwise (· ≠ ·) := by decide +kernel
  exact List.pairwise_map.1 this

/-- A word that a row with a full OPC mask accepts has the row's OPC. -/
theorem opc_of_accepts {w m p : Word} (hm : m.extractLsb' 24 8 = 0xFF) (h : w &&& m = p) :
    fieldOpc w = fieldOpc p := by
  subst h
  apply BitVec.eq_of_getLsbD_eq
  intro i hi
  have := congrArg (fun v => v.getLsbD i) hm
  simp [fieldOpc, hi] at this ⊢
  intro _
  rw [this]
  have : ∀ i, i < 8 → (255#8).getLsbD i = true := by decide
  exact this i hi

/-- In a list no two of whose members satisfy `p`, the member that does is the one found. -/
theorem find?_of_unique {α : Type} {p : α → Bool} {l : List α} (hp : l.Pairwise fun a b => ¬ (p a = true ∧ p b = true))
    {a : α} (ha : a ∈ l) (h : p a = true) : l.find? p = some a := by
  induction l with
  | nil => cases ha
  | cons b l ih =>
    obtain ⟨h1, h2⟩ := List.pairwise_cons.1 hp
    rcases List.mem_cons.1 ha with rfl | ha
    · simp [h]
    · have : p b = false := by
        cases hb : p b
        · rfl
        · exact absurd ⟨hb, h⟩ (h1 a ha)
      rw [List.find?_cons_of_neg (by simp [this]), ih h2 ha]

@[simp] theorem Row.accepts_iff (r : Row) (w : Word) : r.accepts w = true ↔ w &&& r.mask = r.pattern := by
  simp [Row.accepts]

/-- A word that no row accepts is illegal (R85). -/
theorem decode_error_of_no_row {w : Word} (h : ∀ r ∈ opcodeMap, w &&& r.mask ≠ r.pattern) :
    ∃ e, decode w = .error e := by
  unfold decode
  split
  · rename_i r hr
    exact absurd (by simpa using List.find?_some hr) (h r (List.mem_of_find?_eq_some hr))
  · split <;> exact ⟨_, rfl⟩

/-- A word that decodes is accepted by a row of the map. -/
theorem row_of_decode {w : Word} {i : Instr} (h : decode w = .ok i) :
    ∃ r ∈ opcodeMap, w &&& r.mask = r.pattern ∧ i = r.build w := by
  unfold decode at h
  split at h
  · rename_i r hr
    cases h
    exact ⟨r, List.mem_of_find?_eq_some hr, by simpa using List.find?_some hr, rfl⟩
  · split at h <;> cases h

end Sys2Proof
end

