-- ==== Sys2Proof/Laws/Step.lean ====
section
/-! SUPPORT. One lemma for each thing a step can be: the access the host makes next, and what it does. -/

namespace Sys2Proof.Machine

theorem step_cons {s : State} {e : HostEvent} {rest : List HostEvent} (h : s.host = e :: rest) :
    step s = hostStep e { s with host := rest } := by unfold step; rw [h]

theorem step_nil {s : State} (h : s.host = []) : step s = .next s := by unfold step; rw [h]

@[simp] theorem aligned_iff (off : Offset) (size : Nat) :
    aligned off size = true ↔ size = 4 ∧ off.toNat % 4 = 0 := by simp [aligned]

theorem hostStep_write {off : Offset} (v : Word) {s : State} (hr : s.inReset = false) (ha : off.toNat % 4 = 0) :
    hostStep (.write off 4 v) s = writeReg off v s := by
  have : aligned off 4 = true := (aligned_iff off 4).2 ⟨rfl, ha⟩
  unfold hostStep; simp only [this, hr]; rfl

theorem hostStep_read {off : Offset} {s : State} (hr : s.inReset = false) (ha : off.toNat % 4 = 0) :
    hostStep (.read off 4) s = .next (readReg off s) := by
  have : aligned off 4 = true := (aligned_iff off 4).2 ⟨rfl, ha⟩
  unfold hostStep; simp only [this, hr]; rfl

/-- The write of a command word (R39). -/
theorem step_cmd {s : State} {w : Word} {rest : List HostEvent} (h : s.host = .write offCmd 4 w :: rest)
    (hr : s.inReset = false) : step s = cmdWrite w { s with host := rest } := by
  rw [step_cons h, hostStep_write w (s := { s with host := rest }) hr (by decide)]; rfl

/-! ### The order of R219 -/

theorem runsInError_iff (w : Word) : runsInError w = true ↔ w = 0x00000000 ∨ w = 0x01000000 := by
  simp [runsInError]

theorem cmdWrite_ignored {w : Word} {s : State} (he : s.err ≠ .none) (h0 : w ≠ 0x00000000) (h1 : w ≠ 0x01000000) :
    cmdWrite w s = .next s := by
  have : runsInError w = false := by
    cases h : runsInError w
    · rfl
    · rcases (runsInError_iff w).1 h with h | h
      · exact absurd h h0
      · exact absurd h h1
  unfold cmdWrite; rw [if_pos ⟨he, by simp [this]⟩]

theorem cmdWrite_illegal {w : Word} {s : State} {e : DecodeReject} (he : s.err = .none) (hd : decode w = .error e) :
    cmdWrite w s = .next { s with err := .illegalCommand } := by
  unfold cmdWrite; rw [if_neg (by simp [he]), hd]; exact raise_of_noError he

theorem cmdWrite_run {w : Word} {i : Instr} {s : State} (hd : decode w = .ok i)
    (he : s.err = .none ∨ w = 0x00000000 ∨ w = 0x01000000) : cmdWrite w s = exec i s := by
  unfold cmdWrite
  rw [if_neg, hd]
  rintro ⟨h1, h2⟩
  rcases he with h | h
  · exact h1 h
  · rw [(runsInError_iff w).2 h] at h2; simp at h2

/-- Everything a CMD write can do. -/
theorem cmdWrite_cases (w : Word) (s : State) :
    (s.err ≠ .none ∧ cmdWrite w s = .next s) ∨
    (s.err = .none ∧ cmdWrite w s = .next { s with err := .illegalCommand }) ∨
    ∃ i, decode w = .ok i ∧ (s.err = .none ∨ w = 0x00000000 ∨ w = 0x01000000) ∧ cmdWrite w s = exec i s := by
  by_cases he : s.err = .none
  · cases hd : decode w with
    | error e => exact Or.inr (Or.inl ⟨he, cmdWrite_illegal he hd⟩)
    | ok i => exact Or.inr (Or.inr ⟨i, rfl, Or.inl he, cmdWrite_run hd (Or.inl he)⟩)
  · by_cases h0 : w = 0x00000000
    · exact Or.inr (Or.inr ⟨.nop, by subst h0; decide, Or.inr (Or.inl h0), cmdWrite_run (by subst h0; decide) (Or.inr (Or.inl h0))⟩)
    · by_cases h1 : w = 0x01000000
      · exact Or.inr (Or.inr ⟨.clear, by subst h1; decide, Or.inr (Or.inr h1), cmdWrite_run (by subst h1; decide) (Or.inr (Or.inr h1))⟩)
      · exact Or.inl ⟨he, cmdWrite_ignored he h0 h1⟩

/-- Everything a step that answers a next state can be. -/
theorem step_cases {s t : State} (h : step s = .next t) :
    (s.host = [] ∧ t = s) ∨ ∃ e rest, s.host = e :: rest ∧
      ((e = .idle ∧ t = { s with host := rest }) ∨
       (e = .reset ∧ t = { ({ s with host := rest } : State).resetBlock with inReset := false }) ∨
       (e = .assertReset ∧ t = { ({ s with host := rest } : State).resetBlock with inReset := true }) ∨
       (e = .releaseReset ∧ s.inReset = true ∧
         t = { ({ s with host := rest } : State).resetBlock with inReset := false }) ∨
       (e = .releaseReset ∧ s.inReset = false ∧ t = { s with host := rest }) ∨
       (∃ off v, e = .write off 4 v ∧ off.toNat % 4 = 0 ∧ s.inReset = true ∧ t = { s with host := rest }) ∨
       (∃ off, e = .read off 4 ∧ off.toNat % 4 = 0 ∧ s.inReset = true ∧ t = readInReset off { s with host := rest }) ∨
       (∃ off, e = .read off 4 ∧ off.toNat % 4 = 0 ∧ s.inReset = false ∧ t = readReg off { s with host := rest }) ∨
       (∃ off v, e = .write off 4 v ∧ off.toNat % 4 = 0 ∧ s.inReset = false ∧
         writeReg off v { s with host := rest } = .next t)) := by
  cases hh : s.host with
  | nil => rw [step_nil hh] at h; cases h; exact Or.inl ⟨rfl, rfl⟩
  | cons e rest =>
    rw [step_cons hh] at h
    refine Or.inr ⟨e, rest, rfl, ?_⟩
    cases e with
    | idle => cases h; exact Or.inl ⟨rfl, rfl⟩
    | reset => cases h; exact Or.inr (Or.inl ⟨rfl, rfl⟩)
    | assertReset => cases h; exact Or.inr (Or.inr (Or.inl ⟨rfl, rfl⟩))
    | releaseReset =>
      unfold hostStep at h
      rcases Bool.eq_false_or_eq_true s.inReset with hr | hr
      rotate_left
      · simp [hr] at h; exact Or.inr (Or.inr (Or.inr (Or.inr (Or.inl ⟨rfl, hr, by simp [h, hr]⟩))))
      · simp [hr] at h; exact Or.inr (Or.inr (Or.inr (Or.inl ⟨rfl, hr, by simp [h, hr]⟩)))
    | write off size v =>
      by_cases ha : aligned off size = true
      · obtain ⟨rfl, h4⟩ := (aligned_iff _ _).1 ha
        rcases Bool.eq_false_or_eq_true s.inReset with hr | hr
        rotate_left
        ·
          rw [hostStep_write v (s := { s with host := rest }) hr h4] at h
          exact Or.inr (Or.inr (Or.inr (Or.inr (Or.inr (Or.inr (Or.inr (Or.inr ⟨off, v, rfl, h4, hr, h⟩)))))))
        ·
          unfold hostStep at h; simp only [ha, hr] at h; cases h
          exact Or.inr (Or.inr (Or.inr (Or.inr (Or.inr (Or.inl ⟨off, v, rfl, h4, hr, by simp [hr]⟩)))))
      · unfold hostStep at h; simp [ha] at h
    | read off size =>
      by_cases ha : aligned off size = true
      · obtain ⟨rfl, h4⟩ := (aligned_iff _ _).1 ha
        rcases Bool.eq_false_or_eq_true s.inReset with hr | hr
        rotate_left
        ·
          rw [hostStep_read (s := { s with host := rest }) hr h4] at h; cases h
          exact Or.inr (Or.inr (Or.inr (Or.inr (Or.inr (Or.inr (Or.inr (Or.inl ⟨off, rfl, h4, hr, rfl⟩)))))))
        ·
          unfold hostStep at h; simp only [ha, hr] at h; cases h
          exact Or.inr (Or.inr (Or.inr (Or.inr (Or.inr (Or.inr (Or.inl ⟨off, rfl, h4, hr, by simp [hr]⟩))))))
      · unfold hostStep at h; simp [ha] at h

end Sys2Proof.Machine
end

