-- ==== Sys2Proof/Laws/Exec.lean ====
section
/-! SUPPORT. What a command can do, said once: a command that answers a next state has raised one of its errors or has had
its effect. -/

namespace Sys2Proof.Machine

/-- The effect of HDR_CHAR by the parser's state (R173 to R178). -/
inductive HdrEffect (b : Byte) (s : State) : State → Prop where
  | start : s.hp = .idle → isDigit b = true →
      HdrEffect b s { s with freq := zeroTable, hacc := BitVec.ofNat 32 (digitValue b), hp := .sym }
  | empty : s.hp = .idle → b = charLf → HdrEffect b s { s with freq := zeroTable, hacc := 0, hp := .done }
  | symDigit : s.hp = .sym → isDigit b = true → s.accumulate b ≤ 255 →
      HdrEffect b s { s with hacc := BitVec.ofNat 32 (s.accumulate b) }
  | symEnd : s.hp = .sym → b = charSp → HdrEffect b s { s with hsym := s.hacc.setWidth 8, hacc := 0, hp := .sepF }
  | freqStart : s.hp = .sepF → isDigit b = true → digitValue b ≤ s.freqMax →
      HdrEffect b s { s with hacc := BitVec.ofNat 32 (digitValue b), hp := .freq }
  | freqDigit : s.hp = .freq → isDigit b = true → s.accumulate b ≤ s.freqMax →
      HdrEffect b s { s with hacc := BitVec.ofNat 32 (s.accumulate b) }
  | commit (after : HdrState) : s.hp = .freq → (b = charSp ∧ after = .sepS ∨ b = charLf ∧ after = .done) →
      s.hacc ≠ 0 → s.freqAt s.hsym = 0 →
      HdrEffect b s { s.setFreq s.hsym (s.freqBits s.hacc) with hacc := 0, hp := after }
  | symStart : s.hp = .sepS → isDigit b = true →
      HdrEffect b s { s with hacc := BitVec.ofNat 32 (digitValue b), hp := .sym }

/-- The effect of a command in a state that allows it, each as its rule gives it. -/
def Effect (i : Instr) (s t : State) : Prop :=
  match i with
  | .nop => t = s
  | .clear => t = s.cleared
  | .count b => s.tree = .none ∧ s.hp = .idle ∧ (s.freqAt b).toNat ≠ s.freqMax ∧ t = s.setFreq b (s.freqAt b + 1)
  | .freqWr b => s.tree = .none ∧ s.hp = .idle ∧ s.dataIn.toNat ≤ s.freqMax ∧ t = s.setFreq b (s.freqBits s.dataIn)
  | .freqRd b => t = s.setDataOut (s.freqAt b)
  | .buildInit => s.headerClosed = true ∧ t = s.buildInit
  | .mergeStep => s.tree = .building ∧ mergeOnce s = .next t
  | .build => s.headerClosed = true ∧ mergeLoop 255 s.buildInit = .next t
  | .nodeRd idx sel => idx.toNat < s.nodeCount.toNat ∧ sel ≠ 3 ∧ t = s.setDataOut ((s.nodeAt idx).word sel)
  | .pqRd pos => ∃ i, s.pq[pos.toNat]? = some i ∧ t = s.setDataOut (i.setWidth 32)
  | .genCodes => s.buildFinished = true ∧
      ∃ c, s.generatedCodes = .ok c ∧ t = { s with codes := c, codesValid := true }
  | .codeInfo b => s.codesValid = true ∧ t = s.setDataOut (s.codeAt b).info
  | .codeRd b c => s.codesValid = true ∧ t = s.setDataOut ((s.codeAt b).chunk c)
  | .hdrEnc => s.headerClosed = true ∧ t = s.emit (headerText s.freq)
  | .hdrChar b => s.tree = .none ∧ HdrEffect b s t
  | .encByte b => s.codesValid = true ∧ (s.codeAt b).valid = true ∧ t = s.emit (s.codeAt b).text
  | .decChar b => s.tree = .built ∧ s.rootIdx.toNat < s.nodeCount.toNat ∧ (s.nodeAt s.rootIdx).kind = .internal ∧
      s.decCur.toNat < s.nodeCount.toNat ∧
      ∃ nxt, childFor (s.nodeAt s.decCur) b = some nxt ∧ nxt.toNat < s.nodeCount.toNat ∧
        (((s.nodeAt nxt).kind = .leaf ∧ t = { s.emit [(s.nodeAt nxt).symbol] with decCur := s.rootIdx }) ∨
          ((s.nodeAt nxt).kind = .internal ∧ t = { s with decCur := nxt }))
  | .decEnd => s.buildFinished = true ∧ (s.tree = .built → s.decCur = s.rootIdx) ∧ t = s
  | .decSingle => (s.tree = .empty ∧ t = s) ∨
      (s.tree = .built ∧ s.rootIdx.toNat < s.nodeCount.toNat ∧ (s.nodeAt s.rootIdx).kind = .leaf ∧
        t = s.emit (List.replicate (s.nodeAt s.rootIdx).weight.toNat (s.nodeAt s.rootIdx).symbol))

/-- An error of the command, with no other effect (R214). -/
def Raised (i : Instr) (s t : State) : Prop :=
  ∃ c ∈ mayRaise i, raise c s = .next t

theorem Raised.eq {i : Instr} {s t : State} (h : Raised i s t) : ∃ e, t = { s with err := e } := by
  obtain ⟨c, _, h⟩ := h
  unfold raise at h
  split at h <;> cases h
  · exact ⟨c, rfl⟩
  · exact ⟨s.err, rfl⟩

theorem Raised.err {i : Instr} {s t : State} (h : Raised i s t) : t.err ≠ .none := by
  obtain ⟨c, hc, h⟩ := h
  unfold raise at h
  split at h
  · cases h; dsimp only; rintro rfl; cases i <;> simp [mayRaise] at hc
  · cases h; assumption

theorem hdrCommit_cases {b : Byte} {s t : State} {after : HdrState}
    (hp : s.hp = .freq) (hb : b = charSp ∧ after = .sepS ∨ b = charLf ∧ after = .done)
    (h : hdrCommit after s = .next t) : raise .malformedHeader s = .next t ∨ HdrEffect b s t := by
  unfold hdrCommit at h
  split at h
  · exact Or.inl h
  · split at h
    · exact Or.inl h
    · cases h; exact Or.inr (.commit after hp hb ‹_› (by simpa using ‹¬ s.freqAt s.hsym ≠ 0›))

theorem execHdrChar_cases {b : Byte} {s t : State} (h : execHdrChar b s = .next t) :
    Raised (.hdrChar b) s t ∨ (s.tree = .none ∧ HdrEffect b s t) := by
  have hraise : ∀ c ∈ mayRaise (.hdrChar b), raise c s = .next t → Raised (.hdrChar b) s t :=
    fun c hc h => ⟨c, hc, h⟩
  unfold execHdrChar at h
  split at h
  · exact Or.inl (hraise _ (by simp [mayRaise]) h)
  rename_i ht
  have ht : s.tree = .none := by simpa using ht
  split at h
  · rename_i hp
    unfold hdrIdle at h
    split at h
    · cases h; exact Or.inr ⟨ht, .start hp ‹_›⟩
    · split at h
      · cases h; exact Or.inr ⟨ht, .empty hp ‹_›⟩
      · exact Or.inl (hraise _ (by simp [mayRaise]) h)
  · rename_i hp
    unfold hdrSym at h
    split at h
    · split at h
      · exact Or.inl (hraise _ (by simp [mayRaise]) h)
      · cases h; exact Or.inr ⟨ht, .symDigit hp ‹_› (by omega)⟩
    · split at h
      · cases h; exact Or.inr ⟨ht, .symEnd hp ‹_›⟩
      · exact Or.inl (hraise _ (by simp [mayRaise]) h)
  · rename_i hp
    unfold hdrSepF at h
    split at h
    · split at h
      · exact Or.inl (hraise _ (by simp [mayRaise]) h)
      · cases h; exact Or.inr ⟨ht, .freqStart hp ‹_› (by omega)⟩
    · exact Or.inl (hraise _ (by simp [mayRaise]) h)
  · rename_i hp
    unfold hdrFreq at h
    split at h
    · split at h
      · exact Or.inl (hraise _ (by simp [mayRaise]) h)
      · cases h; exact Or.inr ⟨ht, .freqDigit hp ‹_› (by omega)⟩
    · split at h
      · rcases hdrCommit_cases hp (Or.inl ⟨‹_›, rfl⟩) h with h | h
        · exact Or.inl (hraise _ (by simp [mayRaise]) h)
        · exact Or.inr ⟨ht, h⟩
      · split at h
        · rcases hdrCommit_cases hp (Or.inr ⟨‹_›, rfl⟩) h with h | h
          · exact Or.inl (hraise _ (by simp [mayRaise]) h)
          · exact Or.inr ⟨ht, h⟩
        · exact Or.inl (hraise _ (by simp [mayRaise]) h)
  · rename_i hp
    unfold hdrSepS at h
    split at h
    · cases h; exact Or.inr ⟨ht, .symStart hp ‹_›⟩
    · exact Or.inl (hraise _ (by simp [mayRaise]) h)
  · exact Or.inl (hraise _ (by simp [mayRaise]) h)

theorem decMove_cases {nxt : Idx} {s t : State} (h : decMove nxt s = .next t) :
    nxt.toNat < s.nodeCount.toNat ∧
      (((s.nodeAt nxt).kind = .leaf ∧ t = { s.emit [(s.nodeAt nxt).symbol] with decCur := s.rootIdx }) ∨
        ((s.nodeAt nxt).kind = .internal ∧ t = { s with decCur := nxt })) := by
  unfold decMove at h
  split at h
  · cases h
  · rename_i n hn
    obtain ⟨h1, rfl⟩ := node?_eq_some.1 hn
    refine ⟨h1, ?_⟩
    split at h <;> rename_i hk <;> cases h
    · exact Or.inl ⟨hk, rfl⟩
    · exact Or.inr ⟨hk, rfl⟩

theorem execDecChar_cases {b : Byte} {s t : State} (h : execDecChar b s = .next t) :
    Raised (.decChar b) s t ∨ Effect (.decChar b) s t := by
  have hraise : ∀ c ∈ mayRaise (.decChar b), raise c s = .next t → Raised (.decChar b) s t :=
    fun c hc h => ⟨c, hc, h⟩
  unfold execDecChar at h
  split at h
  · exact Or.inl (hraise _ (by simp [mayRaise]) h)
  · exact Or.inl (hraise _ (by simp [mayRaise]) h)
  · exact Or.inl (hraise _ (by simp [mayRaise]) h)
  · rename_i ht
    split at h
    · cases h
    · rename_i root hroot
      obtain ⟨hr, rfl⟩ := node?_eq_some.1 hroot
      split at h
      · exact Or.inl (hraise _ (by simp [mayRaise]) h)
      · rename_i hk
        unfold decDescend at h
        split at h
        · cases h
        · rename_i cur hcur
          obtain ⟨hc, rfl⟩ := node?_eq_some.1 hcur
          split at h
          · exact Or.inl (hraise _ (by simp [mayRaise]) h)
          · rename_i nxt hn
            exact Or.inr ⟨ht, hr, hk, hc, nxt, hn, decMove_cases h⟩

theorem execDecSingle_cases {s t : State} (h : execDecSingle s = .next t) :
    Raised .decSingle s t ∨ Effect .decSingle s t := by
  have hraise : ∀ c ∈ mayRaise .decSingle, raise c s = .next t → Raised .decSingle s t :=
    fun c hc h => ⟨c, hc, h⟩
  unfold execDecSingle at h
  split at h
  · exact Or.inl (hraise _ (by simp [mayRaise]) h)
  · exact Or.inl (hraise _ (by simp [mayRaise]) h)
  · cases h; exact Or.inr (Or.inl ⟨‹_›, rfl⟩)
  · rename_i ht
    split at h
    · cases h
    · rename_i root hroot
      obtain ⟨hr, rfl⟩ := node?_eq_some.1 hroot
      split at h
      · exact Or.inl (hraise _ (by simp [mayRaise]) h)
      · rename_i hk
        cases h; exact Or.inr (Or.inr ⟨ht, hr, hk, rfl⟩)

/-- Everything a command that answers a next state can have done. -/
theorem exec_cases {i : Instr} {s t : State} (h : exec i s = .next t) : Raised i s t ∨ Effect i s t := by
  have hraise : ∀ c ∈ mayRaise i, raise c s = .next t → Raised i s t := fun c hc h => ⟨c, hc, h⟩
  cases i with
  | nop => cases h; exact Or.inr rfl
  | clear => cases h; exact Or.inr rfl
  | count b =>
    simp only [exec] at h; unfold execCount at h
    split at h
    · exact Or.inl (hraise _ (by simp [mayRaise]) h)
    · rename_i hw
      split at h
      · exact Or.inl (hraise _ (by simp [mayRaise]) h)
      · cases h
        simp [State.freqWritable] at hw
        exact Or.inr ⟨hw.1, hw.2, ‹_›, rfl⟩
  | freqWr b =>
    simp only [exec] at h; unfold execFreqWr at h
    split at h
    · exact Or.inl (hraise _ (by simp [mayRaise]) h)
    · rename_i hw
      split at h
      · exact Or.inl (hraise _ (by simp [mayRaise]) h)
      · rename_i hm
        cases h
        simp [State.freqWritable] at hw
        unfold State.latchedOperand at hm
        exact Or.inr ⟨hw.1, hw.2, by omega, rfl⟩
  | freqRd b => cases h; exact Or.inr rfl
  | buildInit =>
    simp only [exec] at h; unfold execBuildInit at h
    split at h
    · exact Or.inl (hraise _ (by simp [mayRaise]) h)
    · cases h; exact Or.inr ⟨by simp_all, rfl⟩
  | mergeStep =>
    simp only [exec] at h; unfold execMergeStep at h
    split at h
    · exact Or.inl (hraise _ (by simp [mayRaise]) h)
    · exact Or.inr ⟨by simp_all, h⟩
  | build =>
    simp only [exec] at h; unfold execBuild at h
    split at h
    · exact Or.inl (hraise _ (by simp [mayRaise]) h)
    · exact Or.inr ⟨by simp_all, h⟩
  | nodeRd idx sel =>
    simp only [exec] at h; unfold execNodeRd at h
    split at h
    · exact Or.inl (hraise _ (by simp [mayRaise]) h)
    · rename_i hn
      cases h
      simp only [not_or, BitVec.le_def, Nat.not_le] at hn
      exact Or.inr ⟨hn.1, hn.2, rfl⟩
  | pqRd pos =>
    simp only [exec] at h; unfold execPqRd at h
    split at h
    · exact Or.inl (hraise _ (by simp [mayRaise]) h)
    · cases h; exact Or.inr ⟨_, ‹_›, rfl⟩
  | genCodes =>
    simp only [exec] at h; unfold execGenCodes at h
    split at h
    · exact Or.inl (hraise _ (by simp [mayRaise]) h)
    · split at h
      · cases h
      · cases h; exact Or.inr ⟨by simp_all, _, ‹_›, rfl⟩
  | codeInfo b =>
    simp only [exec] at h; unfold execCodeInfo at h
    split at h
    · exact Or.inl (hraise _ (by simp [mayRaise]) h)
    · cases h; exact Or.inr ⟨by simp_all, rfl⟩
  | codeRd b c =>
    simp only [exec] at h; unfold execCodeRd at h
    split at h
    · exact Or.inl (hraise _ (by simp [mayRaise]) h)
    · cases h; exact Or.inr ⟨by simp_all, rfl⟩
  | hdrEnc =>
    simp only [exec] at h; unfold execHdrEnc at h
    split at h
    · exact Or.inl (hraise _ (by simp [mayRaise]) h)
    · cases h; exact Or.inr ⟨by simp_all, rfl⟩
  | hdrChar b => exact execHdrChar_cases h
  | encByte b =>
    simp only [exec] at h; unfold execEncByte at h
    split at h
    · exact Or.inl (hraise _ (by simp [mayRaise]) h)
    · split at h
      · exact Or.inl (hraise _ (by simp [mayRaise]) h)
      · cases h; exact Or.inr ⟨by simp_all, by simp_all, rfl⟩
  | decChar b => exact execDecChar_cases h
  | decEnd =>
    simp only [exec] at h; unfold execDecEnd at h
    split at h
    · exact Or.inl (hraise _ (by simp [mayRaise]) h)
    · split at h
      · exact Or.inl (hraise _ (by simp [mayRaise]) h)
      · rename_i hd
        cases h
        exact Or.inr ⟨by simp_all, fun hb => by by_contra hc; exact hd ⟨hb, hc⟩, rfl⟩
  | decSingle => exact execDecSingle_cases h

/-- No command is refused. -/
theorem exec_ne_refused {i : Instr} {s : State} {e : Refusal} : exec i s ≠ .refused e := by
  have hr : ∀ c, raise c s ≠ .refused e := fun c => raise_ne_refused
  cases i with
  | nop => simp [exec, execNop]
  | clear => simp [exec, execClear]
  | count b => simp only [exec]; unfold execCount; split <;> [exact hr _; split <;> [exact hr _; simp]]
  | freqWr b => simp only [exec]; unfold execFreqWr; split <;> [exact hr _; split <;> [exact hr _; simp]]
  | freqRd b => simp [exec, execFreqRd]
  | buildInit => simp only [exec]; unfold execBuildInit; split <;> [exact hr _; simp]
  | mergeStep => simp only [exec]; unfold execMergeStep; split <;> [exact hr _; exact mergeOnce_ne_refused]
  | build => simp only [exec]; unfold execBuild; split <;> [exact hr _; exact mergeLoop_ne_refused]
  | nodeRd idx sel => simp only [exec]; unfold execNodeRd; split <;> [exact hr _; simp]
  | pqRd pos => simp only [exec]; unfold execPqRd; split <;> [exact hr _; simp]
  | genCodes => simp only [exec]; unfold execGenCodes; split <;> [exact hr _; split <;> simp]
  | codeInfo b => simp only [exec]; unfold execCodeInfo; split <;> [exact hr _; simp]
  | codeRd b c => simp only [exec]; unfold execCodeRd; split <;> [exact hr _; simp]
  | hdrEnc => simp only [exec]; unfold execHdrEnc; split <;> [exact hr _; simp]
  | hdrChar b =>
    simp only [exec]; unfold execHdrChar hdrIdle hdrSym hdrSepF hdrFreq hdrSepS hdrCommit
    repeat' first | exact hr _ | simp; done | split
  | encByte b => simp only [exec]; unfold execEncByte; split <;> [exact hr _; split <;> [exact hr _; simp]]
  | decChar b =>
    simp only [exec]; unfold execDecChar decDescend decMove
    repeat' first | exact hr _ | simp; done | split
  | decEnd => simp only [exec]; unfold execDecEnd; split <;> [exact hr _; split <;> [exact hr _; simp]]
  | decSingle =>
    simp only [exec]; unfold execDecSingle
    repeat' first | exact hr _ | simp; done | split

/-- The effects that write FREQ, CLEAR's apart, and the states they are allowed in (R22). -/
theorem Effect.freq_writers {i : Instr} {s t : State} (h : Effect i s t) (hi : i ≠ .clear) (hf : t.freq ≠ s.freq) :
    s.tree = .none ∧ ((s.hp = .idle ∧ ∃ b, i = .count b ∨ i = .freqWr b) ∨ ∃ b, i = .hdrChar b) := by
  cases i with
  | clear => exact absurd rfl hi
  | count b => obtain ⟨h1, h2, _, _⟩ := h; exact ⟨h1, Or.inl ⟨h2, b, Or.inl rfl⟩⟩
  | freqWr b => obtain ⟨h1, h2, _, _⟩ := h; exact ⟨h1, Or.inl ⟨h2, b, Or.inr rfl⟩⟩
  | hdrChar b => exact ⟨h.1, Or.inr ⟨b, rfl⟩⟩
  | nop => cases h; exact absurd rfl hf
  | freqRd b => cases h; exact absurd rfl hf
  | buildInit => obtain ⟨_, rfl⟩ := h; exact absurd rfl hf
  | mergeStep =>
    obtain ⟨_, h⟩ := h
    obtain ⟨a, b, rest, _, _, _, _, rfl⟩ := mergeOnce_eq_next.1 h; simp at hf
  | build => have := mergeLoop_frame h.2; rw [this] at hf; exact absurd rfl hf
  | nodeRd idx sel => obtain ⟨_, _, rfl⟩ := h; exact absurd rfl hf
  | pqRd pos => obtain ⟨_, _, rfl⟩ := h; exact absurd rfl hf
  | genCodes => obtain ⟨_, _, _, rfl⟩ := h; exact absurd rfl hf
  | codeInfo b => obtain ⟨_, rfl⟩ := h; exact absurd rfl hf
  | codeRd b c =>
    have h := h.2
    generalize (s.codeAt b).chunk c = v at h
    subst h; exact absurd rfl hf
  | hdrEnc => obtain ⟨_, rfl⟩ := h; exact absurd rfl hf
  | encByte b => obtain ⟨_, _, rfl⟩ := h; exact absurd rfl hf
  | decChar b => obtain ⟨_, _, _, _, _, _, _, ⟨_, rfl⟩ | ⟨_, rfl⟩⟩ := h <;> exact absurd rfl hf
  | decEnd => obtain ⟨_, _, rfl⟩ := h; exact absurd rfl hf
  | decSingle => rcases h with ⟨_, rfl⟩ | ⟨_, _, _, rfl⟩ <;> exact absurd rfl hf

/-- What no effect but CLEAR's changes: the error, the host's side, CONFIG, and, once a build has started, FREQ (R22). -/
theorem Effect.fields {i : Instr} {s t : State} (h : Effect i s t) (hi : i ≠ .clear) :
    t.err = s.err ∧ t.dataIn = s.dataIn ∧ t.busy = s.busy ∧ t.freqWidth = s.freqWidth ∧ t.host = s.host ∧
      t.readLog = s.readLog ∧ t.inReset = s.inReset ∧ t.freeCount = s.freeCount ∧ (s.tree ≠ .none → t.freq = s.freq) := by
  cases i with
  | clear => exact absurd rfl hi
  | nop => cases h; simp
  | count b => obtain ⟨h1, _, _, rfl⟩ := h; simp [h1]
  | freqWr b => obtain ⟨h1, _, _, rfl⟩ := h; simp [h1]
  | freqRd b => cases h; simp
  | buildInit => obtain ⟨_, rfl⟩ := h; simp
  | mergeStep =>
    obtain ⟨_, h⟩ := h
    obtain ⟨a, b, rest, _, _, _, _, rfl⟩ := mergeOnce_eq_next.1 h; simp
  | build => have := mergeLoop_frame h.2; rw [this]; simp
  | nodeRd idx sel => obtain ⟨_, _, rfl⟩ := h; simp
  | pqRd pos => obtain ⟨_, _, rfl⟩ := h; simp
  | genCodes => obtain ⟨_, _, _, rfl⟩ := h; simp
  | codeInfo b => obtain ⟨_, rfl⟩ := h; simp
  | codeRd b c => have h := h.2; generalize (s.codeAt b).chunk c = v at h; subst h; simp
  | hdrEnc => obtain ⟨_, rfl⟩ := h; simp
  | hdrChar b => obtain ⟨h1, h⟩ := h; cases h <;> simp [h1]
  | encByte b => obtain ⟨_, _, rfl⟩ := h; simp
  | decChar b => obtain ⟨_, _, _, _, _, _, _, ⟨_, rfl⟩ | ⟨_, rfl⟩⟩ := h <;> simp
  | decEnd => obtain ⟨_, _, rfl⟩ := h; simp
  | decSingle => rcases h with ⟨_, rfl⟩ | ⟨_, _, _, rfl⟩ <;> simp

/-- No command but CLEAR takes an error away (R218). -/
theorem exec_err {i : Instr} {s t : State} (hi : i ≠ .clear) (h : exec i s = .next t) (ht : t.err = .none) :
    s.err = .none ∧ Effect i s t := by
  rcases exec_cases h with hr | he
  · exact absurd ht hr.err
  · exact ⟨(he.fields hi).1 ▸ ht, he⟩

/-- A step is a fault only where the command of a CMD write is. -/
theorem step_fault {s : State} {e : Fault} (h : step s = .fault e) : ∃ w i rest, s.host = .write offCmd 4 w :: rest ∧
    decode w = .ok i ∧ exec i { s with host := rest } = .fault e := by
  cases hh : s.host with
  | nil => rw [step_nil hh] at h; cases h
  | cons ev rest =>
    rw [step_cons hh] at h
    cases ev with
    | idle => cases h
    | reset => cases h
    | assertReset => cases h
    | releaseReset => cases h
    | read off size =>
      simp only [hostStep] at h
      by_cases ha : aligned off size = true
      · simp only [ha] at h
        rcases Bool.eq_false_or_eq_true s.inReset with hr | hr <;> simp [hr] at h
      · simp [ha] at h
    | write off size v =>
      by_cases ha : aligned off size = true
      · obtain ⟨rfl, h4⟩ := (aligned_iff off size).1 ha
        rcases Bool.eq_false_or_eq_true s.inReset with hr | hr
        · simp [hostStep, ha, hr] at h
        · rw [hostStep_write v (s := { s with host := rest }) hr h4] at h
          unfold writeReg at h
          split at h
          · rename_i ho
            subst ho
            rcases cmdWrite_cases v { s with host := rest } with ⟨_, h'⟩ | ⟨_, h'⟩ | ⟨i, hd, _, h'⟩
            · rw [h'] at h; cases h
            · rw [h'] at h; cases h
            · exact ⟨v, i, rest, rfl, hd, h' ▸ h⟩
          · split at h <;> cases h
      · simp [hostStep, ha] at h

end Sys2Proof.Machine
end

