-- ==== Sys2Proof/Laws/Keep.lean ====
section
/-! SUPPORT. How to show that every step keeps a property of the block, and what carries the tree invariant over. -/

namespace Sys2Proof.Machine

/-- A property that the host's list, the read log, OUT, DATA_IN, ERR and the reset input have no part in is kept by every
step if reset establishes it and every effect keeps it. -/
theorem step_keeps {P : State → Prop}
    (hframe : ∀ (s : State) host readLog freeCount inReset out dataIn err,
      P s → P { s with host := host, readLog := readLog, freeCount := freeCount, inReset := inReset, out := out,
                       dataIn := dataIn, err := err })
    (hreset : ∀ s : State, P s → P s.resetBlock) (heff : ∀ i s t, P s → Effect i s t → P t)
    {s t : State} (hs : P s) (h : step s = .next t) : P t := by
  have hh : ∀ (s : State) rest, P s → P { s with host := rest } := fun s rest h => hframe s rest _ _ _ _ _ _ h
  rcases step_cases h with ⟨_, rfl⟩ | ⟨e, rest, _, h⟩
  · exact hs
  rcases h with ⟨rfl, rfl⟩ | ⟨rfl, rfl⟩ | ⟨rfl, rfl⟩ | ⟨rfl, _, rfl⟩ | ⟨rfl, _, rfl⟩ | ⟨off, v, rfl, _, _, rfl⟩ |
    ⟨off, rfl, _, _, rfl⟩ | ⟨off, rfl, _, _, rfl⟩ | ⟨off, v, rfl, _, hr, h⟩
  · exact hh _ _ hs
  · exact hframe _ _ _ _ false _ _ _ (hreset _ (hh _ rest hs))
  · exact hframe _ _ _ _ true _ _ _ (hreset _ (hh _ rest hs))
  · exact hframe _ _ _ _ false _ _ _ (hreset _ (hh _ rest hs))
  · exact hh _ _ hs
  · exact hh _ _ hs
  · exact hframe s _ _ _ _ _ _ _ hs
  · unfold readReg State.logRead; dsimp only; split
    · exact hframe s _ _ _ _ _ _ _ hs
    · exact hframe s _ _ _ _ _ _ _ hs
  · unfold writeReg at h
    split at h
    · rcases cmdWrite_cases v { s with host := rest } with ⟨_, h'⟩ | ⟨_, h'⟩ | ⟨i, hd, hr', h'⟩
      · rw [h'] at h; cases h; exact hh _ _ hs
      · rw [h'] at h; cases h; exact hframe s _ _ _ _ _ _ _ hs
      · rw [h'] at h
        rcases exec_cases h with hr | he
        · obtain ⟨e, rfl⟩ := hr.eq; exact hframe s _ _ _ _ _ _ _ hs
        · exact heff i _ _ (hh _ _ hs) he
    · split at h <;> cases h
      · exact hframe s _ _ _ _ _ _ _ hs
      · exact hh _ _ hs

/-- What a build leaves of the frequency table and the header parser. -/
theorem mergeLoop_build_frame {s t : State} (h : mergeLoop 255 s.buildInit = .next t) :
    t.freq = s.freq ∧ t.hp = s.hp ∧ t.hacc = s.hacc ∧ t.freqWidth = s.freqWidth := by
  have := mergeLoop_frame h
  rw [this]; exact ⟨rfl, rfl, rfl, rfl⟩

/-- The value of a digit byte. -/
theorem digit_lt {b : Byte} (h : isDigit b = true) : digitValue b ≤ 9 := by
  simp [isDigit, digitValue] at *; omega

/-- The tree invariant speaks only of FREQ, the node store, the queue, the tree registers and the cursor. -/
theorem treeInv_same {s u : State} (h : TreeInv s) (hf : u.freq = s.freq ∨ u.tree = .none) (hn : u.node = s.node)
    (hc : u.nodeCount = s.nodeCount) (hp : u.pq = s.pq) (hr : u.rootIdx = s.rootIdx) (hl : u.leafCount = s.leafCount)
    (ht : u.tree = s.tree)
    (hd : u.decCur = s.decCur ∨ (s.tree = .built ∧ (u.decCur = s.rootIdx ∨
      (u.decCur.toNat < s.nodeCount.toNat ∧ (s.nodeAt u.decCur).kind = .internal)))) :
    TreeInv u := by
  have hna : u.nodeAt = s.nodeAt := by funext i; simp [State.nodeAt, hn]
  have hlv : u.tree ≠ .none → u.leaves = s.leaves := by
    intro h; rcases hf with hf | hf
    · simp [State.leaves, hf]
    · exact absurd hf h
  have hch : u.children = s.children := by simp [State.children, State.internalIdx, hna, hl, hc]
  constructor
  · rw [ht, hc, hp, hl]; exact h.none_shape
  · rw [ht, hc, hp, hl]; exact h.empty_shape
  · rw [ht, hp]; exact h.building_len
  · rw [ht, hp, hr]; exact h.built_queue
  · rw [ht, hr]; intro hb
    obtain ⟨h1, h2⟩ := h.unbuilt_regs hb
    refine ⟨h1, ?_⟩
    rcases hd with hd | ⟨hd, _⟩
    · rw [hd, h2]
    · exact absurd hd hb
  · intro hh; rw [hlv hh, hl]; exact h.leaf_count (ht ▸ hh)
  · intro hh; rw [hna]; have := h.leaf_recs (ht ▸ hh); simpa [hlv hh] using this
  · rw [hc, hp, hl]; exact h.count
  · intro i h1 h2
    have := h.merges i (hl ▸ h1) (hc ▸ h2)
    constructor <;> rw [hna]
    exacts [this.kind, this.left_lt, this.right_lt, this.weight, this.symbol]
  · rw [hp, hc]; exact h.pq_defined
  · rw [hp, hna]; exact h.pq_symbols
  · rw [hp, hna]; exact h.pq_sorted
  · intro hh; rw [hp, hna, hlv hh]; exact h.pq_weight (ht ▸ hh)
  · rw [hp, hch]; exact h.once
  · intro hb
    rw [hr, hc, hna]
    rcases hd with hd | ⟨_, hd⟩
    · rw [hd]; exact h.cursor (ht ▸ hb)
    · exact hd

/-- With no tree the invariant asks only that nothing is counted or queued. -/
theorem treeInv_none {s : State} (ht : s.tree = .none) (hn : s.nodeCount = 0) (hp : s.pq = []) (hl : s.leafCount = 0)
    (hr : s.rootIdx = 0) (hd : s.decCur = 0) : TreeInv s := by
  have hch : s.children = [] := by simp [State.children, State.internalIdx, hn, hl]
  constructor <;> simp_all

/-- What BUILD leaves meets the invariant of the block. -/
theorem build_inv {s t : State} (h : HeaderInv s) (hb : s.busy = false) (hc : s.headerClosed = true)
    (hm : execBuild s = .next t) : Inv t := by
  have hm : mergeLoop 255 s.buildInit = .next t := by simpa [execBuild, hc] using hm
  have hf := mergeLoop_frame hm
  obtain ⟨h1, h2, h3, h4⟩ := mergeLoop_build_frame hm
  refine ⟨⟨?_, ?_, ?_, ?_, ?_⟩, mergeLoop_treeInv (buildInit_treeInv s) hm, ⟨?_, ?_⟩, ?_⟩
  · intro b; simpa [State.freqAt, State.freqMax, h1, h4] using h.freq_le b
  · simpa [State.freqMax, h3, h4] using h.hacc_le
  · rw [h2, h3]; exact h.sym_le
  · simpa [State.freqMax, h2, h3, h4] using h.token_le
  · intro _; simpa [State.headerClosed, h2] using hc
  · intro _; rw [hf]; rfl
  · intro hv; rw [hf] at hv; cases hv
  · rw [hf]; exact hb

/-- What GEN_CODES leaves meets the invariant of the block. -/
theorem genCodes_inv {s t : State} (h : Inv s) (hf : s.buildFinished = true) (hm : execGenCodes s = .next t) : Inv t := by
  unfold execGenCodes at hm
  rw [hf] at hm
  simp only [Bool.not_true, Bool.false_eq_true, if_false] at hm
  split at hm
  · cases hm
  · rename_i c hc
    cases hm
    refine ⟨⟨h.header.freq_le, h.header.hacc_le, h.header.sym_le, h.header.token_le, h.header.closed⟩,
      treeInv_same h.tree (Or.inl rfl) rfl rfl rfl rfl rfl rfl (Or.inl rfl), ⟨fun hv => (by cases hv), fun _ => ⟨hf, ?_⟩⟩,
      h.idle⟩
    rw [← hc]; exact generatedCodes_congr (fun _ => rfl) rfl rfl

end Sys2Proof.Machine
end

