-- ==== Sys2Proof/Laws/Header.lean ====
section
/-! SUPPORT. Decimal text, and what the header parser does with a token, a pair and a line. -/

namespace Sys2Proof.Machine

/-! ### Decimal text -/

/-- The number a list of digit bytes continues `a` to. -/
def valueFrom (a : Nat) (cs : List Byte) : Nat := (cs.map digitValue).foldl (fun a d => a * 10 + d) a

@[simp] theorem valueFrom_nil (a : Nat) : valueFrom a [] = a := by simp only [valueFrom, List.map_nil, List.foldl_nil]

@[simp] theorem valueFrom_cons (a : Nat) (c : Byte) (cs : List Byte) :
    valueFrom a (c :: cs) = valueFrom (a * 10 + digitValue c) cs := by
  simp only [valueFrom, List.map_cons, List.foldl_cons]

theorem valueFrom_eq_foldl (a : Nat) (cs : List Byte) :
    valueFrom a cs = cs.foldl (fun a c => a * 10 + (c.toNat - 0x30)) a := by
  induction cs generalizing a with
  | nil => simp
  | cons c cs ih => rw [valueFrom_cons, ih]; rfl

theorem valueFrom_append (a : Nat) (cs ds : List Byte) : valueFrom a (cs ++ ds) = valueFrom (valueFrom a cs) ds := by
  induction cs generalizing a with
  | nil => simp
  | cons c cs ih => rw [List.cons_append, valueFrom_cons, valueFrom_cons, ih]

theorem le_valueFrom (a : Nat) (cs : List Byte) : a ≤ valueFrom a cs := by
  induction cs generalizing a with
  | nil => exact Nat.le_refl _
  | cons c cs ih => rw [valueFrom_cons]; have := ih (a * 10 + digitValue c); omega

theorem digitByte_toNat {d : Nat} (h : d ≤ 9) : (digitByte d).toNat = 0x30 + d := by
  unfold digitByte; rw [BitVec.toNat_ofNat]; omega

theorem digitByte_isDigit {d : Nat} (h : d ≤ 9) : isDigit (digitByte d) = true := by
  simp [isDigit, digitByte_toNat h]; omega

@[simp] theorem digitByte_value {d : Nat} (h : d ≤ 9) : digitValue (digitByte d) = d := by
  simp [digitValue, digitByte_toNat h]

theorem digitsOf_digits {n v : Nat} : ∀ c ∈ digitsOf n v, isDigit c = true := by
  induction n generalizing v with
  | zero => intro c hc; cases hc
  | succ n ih =>
    intro c hc
    unfold digitsOf at hc
    split at hc
    · rw [List.mem_singleton] at hc; subst hc; exact digitByte_isDigit (by omega)
    · rcases List.mem_append.1 hc with hc | hc
      · exact ih c hc
      · rw [List.mem_singleton] at hc; subst hc; exact digitByte_isDigit (by omega)

theorem digitsOf_value {n v : Nat} (h : v < 10 ^ n) : valueFrom 0 (digitsOf n v) = v := by
  induction n generalizing v with
  | zero => simp at h; simp [digitsOf, h]
  | succ n ih =>
    unfold digitsOf
    split
    · rw [valueFrom_cons, digitByte_value (by omega), valueFrom_nil]; omega
    · rw [valueFrom_append, ih (by rw [Nat.pow_succ] at h; omega), valueFrom_cons, digitByte_value (by omega),
        valueFrom_nil]
      omega

theorem digitsOf_length {n v : Nat} : (digitsOf n v).length ≤ n := by
  induction n generalizing v with
  | zero => simp [digitsOf]
  | succ n ih =>
    unfold digitsOf
    split
    · simp
    · have := @ih (v / 10); simp; omega

theorem digitsOf_ne_nil {n v : Nat} (hn : 0 < n) : digitsOf n v ≠ [] := by
  cases n with
  | zero => omega
  | succ n => unfold digitsOf; split <;> simp

/-- The first digit of a number that is not 0 is not 0. -/
theorem digitsOf_head {n v : Nat} (h : v < 10 ^ n) (h0 : v ≠ 0) : (digitsOf n v).head? ≠ some (digitByte 0) := by
  induction n generalizing v with
  | zero => simp at h; exact absurd h h0
  | succ n ih =>
    unfold digitsOf
    split
    · intro e
      simp only [List.head?_cons, Option.some.injEq] at e
      have := congrArg digitValue e
      rw [digitByte_value (by omega), digitByte_value (by omega)] at this
      exact h0 this
    · rename_i hv
      have hlt : v / 10 < 10 ^ n := by rw [Nat.pow_succ] at h; omega
      have hn : 0 < n := by
        cases n with
        | zero => simp at hlt; omega
        | succ n => omega
      rw [List.head?_append_of_ne_nil _ (digitsOf_ne_nil hn)]
      exact ih hlt (by omega)

/-- A decimal text is a first digit and more digits, with the value written (R167). -/
theorem decimal_cons {v : Nat} (h : v < 2 ^ 32) : ∃ d ds, decimal v = d :: ds ∧ isDigit d = true ∧
    (∀ c ∈ ds, isDigit c = true) ∧ valueFrom (digitValue d) ds = v := by
  have hd : ∀ c ∈ decimal v, isDigit c = true := digitsOf_digits
  have hv : valueFrom 0 (decimal v) = v := digitsOf_value (by omega)
  match hc : decimal v with
  | [] => exact absurd hc (digitsOf_ne_nil (by decide))
  | d :: ds =>
    rw [hc] at hd hv
    refine ⟨d, ds, rfl, hd d List.mem_cons_self, fun c hc => hd c (List.mem_cons_of_mem _ hc), ?_⟩
    rw [valueFrom_cons, Nat.zero_mul, Nat.zero_add] at hv; exact hv

/-! ### Bytes that are not digits -/

@[simp] theorem charSp_not_digit : isDigit charSp = false := by decide
@[simp] theorem charLf_not_digit : isDigit charLf = false := by decide
theorem charLf_ne_sp : charLf ≠ charSp := by decide

/-! ### Tokens -/

theorem execHdrChar_sym {s : State} {b : Byte} (ht : s.tree = .none) (hp : s.hp = .sym) :
    exec (.hdrChar b) s = hdrSym b s := by simp [exec, execHdrChar, ht, hp]
theorem execHdrChar_freq {s : State} {b : Byte} (ht : s.tree = .none) (hp : s.hp = .freq) :
    exec (.hdrChar b) s = hdrFreq b s := by simp [exec, execHdrChar, ht, hp]
theorem execHdrChar_idle {s : State} {b : Byte} (ht : s.tree = .none) (hp : s.hp = .idle) :
    exec (.hdrChar b) s = hdrIdle b s := by simp [exec, execHdrChar, ht, hp]
theorem execHdrChar_sepF {s : State} {b : Byte} (ht : s.tree = .none) (hp : s.hp = .sepF) :
    exec (.hdrChar b) s = hdrSepF b s := by simp [exec, execHdrChar, ht, hp]
theorem execHdrChar_sepS {s : State} {b : Byte} (ht : s.tree = .none) (hp : s.hp = .sepS) :
    exec (.hdrChar b) s = hdrSepS b s := by simp [exec, execHdrChar, ht, hp]

/-- More digits of a symbol token (R174). -/
theorem parse_symDigits {ds : List Byte} {s : State} {a : Nat} (ht : s.tree = .none) (hp : s.hp = .sym)
    (ha : s.hacc = BitVec.ofNat 32 a) (hd : ∀ c ∈ ds, isDigit c = true) (hv : valueFrom a ds ≤ 255) :
    execAll (ds.map .hdrChar) s = .next { s with hacc := BitVec.ofNat 32 (valueFrom a ds) } := by
  induction ds generalizing s a with
  | nil => simp [← ha]
  | cons d ds ih =>
    have hle := le_valueFrom (a * 10 + digitValue d) ds
    rw [valueFrom_cons] at hv
    have hacc : s.accumulate d = a * 10 + digitValue d := by
      unfold State.accumulate; rw [ha, BitVec.toNat_ofNat, Nat.mod_eq_of_lt (by omega)]
    rw [List.map_cons, execAll_cons, execHdrChar_sym ht hp, hdrSym, if_pos (hd d List.mem_cons_self), hacc,
      if_neg (by omega), andThen_next]
    exact ih (s := { s with hacc := BitVec.ofNat 32 (a * 10 + digitValue d) }) ht hp rfl
      (fun c hc => hd c (List.mem_cons_of_mem _ hc)) hv

/-- More digits of a frequency token (R176). -/
theorem parse_freqDigits {ds : List Byte} {s : State} {a : Nat} (ht : s.tree = .none) (hp : s.hp = .freq)
    (ha : s.hacc = BitVec.ofNat 32 a) (hd : ∀ c ∈ ds, isDigit c = true) (hv : valueFrom a ds ≤ s.freqMax) :
    execAll (ds.map .hdrChar) s = .next { s with hacc := BitVec.ofNat 32 (valueFrom a ds) } := by
  induction ds generalizing s a with
  | nil => simp [← ha]
  | cons d ds ih =>
    have hle := le_valueFrom (a * 10 + digitValue d) ds
    have hmax := freqMax_lt s
    rw [valueFrom_cons] at hv
    have hacc : s.accumulate d = a * 10 + digitValue d := by
      unfold State.accumulate; rw [ha, BitVec.toNat_ofNat, Nat.mod_eq_of_lt (by omega)]
    rw [List.map_cons, execAll_cons, execHdrChar_freq ht hp, hdrFreq, if_pos (hd d List.mem_cons_self), hacc,
      if_neg (by omega), andThen_next]
    exact ih (s := { s with hacc := BitVec.ofNat 32 (a * 10 + digitValue d) }) ht hp rfl
      (fun c hc => hd c (List.mem_cons_of_mem _ hc)) hv

/-- The commit of a frequency that fits FREQ, for a symbol not listed before (R177). -/
theorem hdrCommit_next {s : State} {w : Word} {after : HdrState} (hacc : s.hacc = w) (hw : w ≠ 0)
    (hmax : w.toNat ≤ s.freqMax) (hfree : s.freqAt s.hsym = 0) :
    hdrCommit after s = .next { s.setFreq s.hsym w with hacc := 0, hp := after } := by
  unfold hdrCommit
  rw [hacc, if_neg hw, if_neg (not_not_intro hfree), freqBits_of_le hmax]

/-- A frequency token and the byte that ends it, after the SP of a symbol token (R175 to R177). -/
theorem parse_frequency {s : State} {w : Word} {e : Byte} {after : HdrState} (ht : s.tree = .none) (hp : s.hp = .sepF)
    (hw : w ≠ 0) (hmax : w.toNat ≤ s.freqMax) (hfree : s.freqAt s.hsym = 0)
    (he : e = charSp ∧ after = .sepS ∨ e = charLf ∧ after = .done) :
    execAll ((decimal w.toNat ++ [e]).map .hdrChar) s =
      .next { s.setFreq s.hsym w with hacc := 0, hp := after } := by
  obtain ⟨d, ds, hdec, hd, hds, hv⟩ := decimal_cons w.isLt
  have hle := le_valueFrom (digitValue d) ds
  rw [hdec, List.cons_append, List.map_cons, execAll_cons, execHdrChar_sepF ht hp, hdrSepF, if_pos hd,
    if_neg (by omega), andThen_next, List.map_append, execAll_append,
    parse_freqDigits (s := { s with hacc := BitVec.ofNat 32 (digitValue d), hp := .freq }) ht rfl rfl hds
      (by rw [hv]; exact hmax), andThen_next, hv, List.map_singleton, execAll_cons,
    execHdrChar_freq (s := { s with hacc := BitVec.ofNat 32 w.toNat, hp := .freq }) ht rfl]
  have hc : ∀ a, hdrCommit a { s with hacc := BitVec.ofNat 32 w.toNat, hp := .freq } =
      .next { s.setFreq s.hsym w with hacc := 0, hp := a } := fun a =>
    hdrCommit_next (s := { s with hacc := BitVec.ofNat 32 w.toNat, hp := .freq }) (by simp) hw hmax hfree
  rcases he with ⟨rfl, rfl⟩ | ⟨rfl, rfl⟩
  · simp only [hdrFreq, charSp_not_digit, if_true, Bool.false_eq_true, if_false]
    rw [hc]; rfl
  · simp only [hdrFreq, charLf_not_digit, if_neg charLf_ne_sp, if_true, Bool.false_eq_true, if_false]
    rw [hc]; rfl

/-- The rest of a symbol token after its first digit, and the SP that ends it (R174). -/
theorem parse_symbolRest {s : State} {b d : Byte} {ds : List Byte} (ht : s.tree = .none) (hp : s.hp = .sym)
    (ha : s.hacc = BitVec.ofNat 32 (digitValue d)) (hd : ∀ c ∈ ds, isDigit c = true)
    (hv : valueFrom (digitValue d) ds = b.toNat) :
    execAll ((ds ++ [charSp]).map .hdrChar) s = .next { s with hsym := b, hacc := 0, hp := .sepF } := by
  have hb := b.isLt
  rw [List.map_append, execAll_append, parse_symDigits ht hp ha hd (by omega), andThen_next, hv, List.map_singleton,
    execAll_cons, execHdrChar_sym (s := { s with hacc := BitVec.ofNat 32 b.toNat }) ht hp]
  simp only [hdrSym, charSp_not_digit, if_true, Bool.false_eq_true, if_false]
  have : (BitVec.ofNat 32 b.toNat).setWidth 8 = b := by
    apply BitVec.eq_of_toNat_eq
    rw [BitVec.toNat_setWidth, BitVec.toNat_ofNat]; omega
  rw [this]; rfl

/-! ### Pairs -/

/-- A state that can take a pair's first digit: the start of a header, where it clears FREQ, or after a pair's SP. -/
def ReadyForPair (s : State) : Prop := s.tree = .none ∧ (s.hp = .idle ∧ s.freq = zeroTable ∨ s.hp = .sepS)

/-- One pair and the byte that ends it (R173 to R178). -/
theorem parse_pair {s : State} {b : Byte} {w : Word} {e : Byte} {after : HdrState} (hs : ReadyForPair s)
    (hw : w ≠ 0) (hmax : w.toNat ≤ s.freqMax) (hfree : s.freqAt b = 0)
    (he : e = charSp ∧ after = .sepS ∨ e = charLf ∧ after = .done) :
    execAll ((pairText (b, w) ++ [e]).map .hdrChar) s =
      .next { s.setFreq b w with hsym := b, hacc := 0, hp := after } := by
  obtain ⟨ht, hs⟩ := hs
  have hb := b.isLt
  obtain ⟨d, ds, hdec, hd, hds, hv⟩ := decimal_cons (v := b.toNat) (by omega)
  have hfirst : exec (.hdrChar d) s = .next { s with hacc := BitVec.ofNat 32 (digitValue d), hp := .sym } := by
    rcases hs with ⟨hp, hz⟩ | hp
    · rw [execHdrChar_idle ht hp, hdrIdle, if_pos hd, ← hz]
    · rw [execHdrChar_sepS ht hp, hdrSepS, if_pos hd]
  have htext : pairText (b, w) ++ [e] = d :: ((ds ++ [charSp]) ++ (decimal w.toNat ++ [e])) := by
    simp [pairText, hdec]
  rw [htext, List.map_cons, execAll_cons, hfirst, andThen_next, List.map_append, execAll_append,
    parse_symbolRest (s := { s with hacc := BitVec.ofNat 32 (digitValue d), hp := .sym }) (b := b) ht rfl rfl hds hv,
    andThen_next]
  exact parse_frequency (s := { s with hsym := b, hacc := 0, hp := .sepF }) (after := after) ht rfl hw hmax hfree he

/-- The frequency table with the pairs of a list written into it one after another. -/
def writePairs (t : Vector Word Config.nsym) : List (Byte × Word) → Vector Word Config.nsym
  | [] => t
  | p :: ps => writePairs (t.set p.1.toNat p.2 p.1.isLt) ps

theorem tableAt_writePairs (t : Vector Word Config.nsym) (ps : List (Byte × Word)) (b : Byte)
    (hd : (ps.map Prod.fst).Nodup) :
    (∀ w, (b, w) ∈ ps → tableAt (writePairs t ps) b = w) ∧
      ((∀ w, (b, w) ∉ ps) → tableAt (writePairs t ps) b = tableAt t b) := by
  induction ps generalizing t with
  | nil => exact ⟨fun w h => absurd h List.not_mem_nil, fun _ => rfl⟩
  | cons p ps ih =>
    rw [List.map_cons, List.nodup_cons] at hd
    obtain ⟨h1, h2⟩ := ih (t.set p.1.toNat p.2 p.1.isLt) hd.2
    constructor
    · intro w hw
      rcases List.mem_cons.1 hw with rfl | hw
      · rw [writePairs, h2, tableAt_set, if_pos rfl]
        intro w' hw'
        exact hd.1 (List.mem_map.2 ⟨(b, w'), hw', rfl⟩)
      · exact h1 w hw
    · intro hno
      rw [writePairs, h2 fun w hw => hno w (List.mem_cons_of_mem _ hw), tableAt_set, if_neg]
      rintro rfl
      exact hno p.2 List.mem_cons_self

/-- A non-empty list of pairs and the LF that ends the line. -/
theorem parse_pairs {ps : List (Byte × Word)} {s : State} (hne : ps ≠ []) (hs : ReadyForPair s)
    (hd : (ps.map Prod.fst).Nodup) (hw : ∀ p ∈ ps, p.2 ≠ 0 ∧ p.2.toNat ≤ s.freqMax ∧ s.freqAt p.1 = 0) :
    ∃ sym, execAll ((pairsText ps ++ [charLf]).map .hdrChar) s =
      .next { s with freq := writePairs s.freq ps, hsym := sym, hacc := 0, hp := .done } := by
  induction ps generalizing s with
  | nil => exact absurd rfl hne
  | cons p ps ih =>
    obtain ⟨b, w⟩ := p
    obtain ⟨h1, h2, h3⟩ := hw (b, w) List.mem_cons_self
    cases ps with
    | nil =>
      refine ⟨b, ?_⟩
      rw [pairsText, parse_pair hs h1 h2 h3 (Or.inr ⟨rfl, rfl⟩)]
      rfl
    | cons q ps =>
      have htext : pairsText ((b, w) :: q :: ps) ++ [charLf] =
          (pairText (b, w) ++ [charSp]) ++ (pairsText (q :: ps) ++ [charLf]) := by simp [pairsText]
      rw [List.map_cons, List.nodup_cons] at hd
      obtain ⟨sym, h⟩ := ih (s := { s.setFreq b w with hsym := b, hacc := 0, hp := .sepS }) (by simp)
        ⟨hs.1, Or.inr rfl⟩ hd.2 (by
          intro r hr
          obtain ⟨g1, g2, g3⟩ := hw r (List.mem_cons_of_mem _ hr)
          refine ⟨g1, g2, ?_⟩
          show (s.setFreq b w).freqAt r.1 = 0
          rw [freqAt_setFreq, if_neg, g3]
          intro e
          exact hd.1 (List.mem_map.2 ⟨r, hr, e⟩))
      refine ⟨sym, ?_⟩
      rw [htext, List.map_append, execAll_append, parse_pair hs h1 h2 h3 (Or.inl ⟨rfl, rfl⟩), andThen_next, h]
      rfl

/-- Writing the listed pairs of a table into the zero table gives the table. -/
theorem writePairs_listed (t : Vector Word Config.nsym) : writePairs zeroTable (listed t) = t := by
  apply table_ext
  intro b
  obtain ⟨h1, h2⟩ := tableAt_writePairs zeroTable (listed t) b (listed_nodup t)
  by_cases hb : tableAt t b = 0
  · rw [h2 fun w hw => by
      obtain ⟨e, h0⟩ := mem_listed.1 hw
      exact h0 (e.symm.trans hb), hb]
    simp [tableAt, zeroTable]
  · exact h1 _ (mem_listed.2 ⟨rfl, hb⟩)

/-- The header line of a table whose entries fit FREQ, fed to a parser that has received nothing and whose table is
zero, gives that table (R171, R180). -/
theorem parse_header {t : Vector Word Config.nsym} {s : State} (ht : s.tree = .none) (hp : s.hp = .idle)
    (hz : s.freq = zeroTable) (hmax : ∀ b, (tableAt t b).toNat ≤ s.freqMax) :
    ∃ sym, execAll ((headerText t).map .hdrChar) s =
      .next { s with freq := t, hsym := sym, hacc := 0, hp := .done } := by
  unfold headerText
  by_cases hl : listed t = []
  · have ht0 : t = zeroTable := by
      have := writePairs_listed t
      rw [hl] at this; exact this.symm
    refine ⟨s.hsym, ?_⟩
    rw [hl, pairsText, List.nil_append, List.map_singleton, execAll_cons, execHdrChar_idle ht hp]
    simp only [hdrIdle, charLf_not_digit, if_true, Bool.false_eq_true, if_false]
    rw [← ht0]; rfl
  · obtain ⟨sym, h⟩ := parse_pairs (s := s) hl ⟨ht, Or.inl ⟨hp, hz⟩⟩ (listed_nodup t) (by
      intro p hp'
      obtain ⟨e, h0⟩ := mem_listed.1 hp'
      refine ⟨h0, ?_, ?_⟩
      · have := hmax p.1; rw [e] at this; exact this
      · rw [State.freqAt, hz]; simp [tableAt, zeroTable])
    rw [hz, writePairs_listed] at h
    exact ⟨sym, h⟩

end Sys2Proof.Machine
end

