-- ==== Sys2Proof/Laws/Payload.lean ====
section
/-! SUPPORT. What runs of COUNT, ENC_BYTE and DEC_CHAR commands do. -/

namespace Sys2Proof.Machine

/-! ### Counting -/

/-- A run of COUNT that never reaches FREQ_MAX adds to each entry how often its byte was counted (R110). -/
theorem count_run {text : List Byte} {s : State} (ht : s.tree = .none) (hp : s.hp = .idle)
    (h : ∀ b, (s.freqAt b).toNat + text.count b ≤ s.freqMax) :
    ∃ f, execAll (text.map .count) s = .next { s with freq := f } ∧
      ∀ b, (tableAt f b).toNat = (s.freqAt b).toNat + text.count b := by
  induction text generalizing s with
  | nil => exact ⟨s.freq, rfl, fun b => by simp [State.freqAt]⟩
  | cons c text ih =>
    have hc := h c
    rw [List.count_cons_self] at hc
    have hmax := freqMax_lt s
    have hinc : (s.freqAt c + 1).toNat = (s.freqAt c).toNat + 1 := by
      rw [BitVec.toNat_add, Nat.mod_eq_of_lt] <;> simp <;> omega
    have hx : exec (.count c) s = .next (s.setFreq c (s.freqAt c + 1)) := by
      simp only [exec, execCount]
      rw [if_neg (by simp [State.freqWritable, ht, hp]), if_neg (by omega)]
    have hat : ∀ b, ((s.setFreq c (s.freqAt c + 1)).freqAt b).toNat + text.count b =
        (s.freqAt b).toNat + (c :: text).count b := by
      intro b
      rw [freqAt_setFreq]
      by_cases hb : b = c
      · subst hb; rw [if_pos rfl, hinc, List.count_cons_self]; omega
      · rw [if_neg hb, List.count_cons_of_ne (fun e => hb e.symm)]
    obtain ⟨f, h1, h2⟩ := ih (s := s.setFreq c (s.freqAt c + 1)) ht hp (by intro b; rw [hat b]; exact h b)
    refine ⟨f, ?_, fun b => (h2 b).trans (hat b)⟩
    rw [List.map_cons, execAll_cons, hx, andThen_next, h1]
    rfl

/-! ### Encoding -/

/-- A run of ENC_BYTE for bytes that all have a code appends their codes (R190). -/
theorem enc_run {text : List Byte} {s : State} (hv : s.codesValid = true) (h : ∀ b ∈ text, (s.codeAt b).valid = true) :
    execAll (text.map .encByte) s = .next (s.emit (text.flatMap fun b => (s.codeAt b).text)) := by
  induction text generalizing s with
  | nil => simp [State.emit]
  | cons c text ih =>
    have hx : exec (.encByte c) s = .next (s.emit (s.codeAt c).text) := by
      simp [exec, execEncByte, hv, h c]
    rw [List.map_cons, execAll_cons, hx, andThen_next,
      ih (s := s.emit (s.codeAt c).text) hv fun b hb => h b (List.mem_cons_of_mem _ hb)]
    simp [State.emit, State.codeAt]

/-! ### Decoding -/

theorem childFor_bitChar (n : NodeRec) (b : Bool) : childFor n (bitChar b) = some (if b then n.right else n.left) := by
  cases b <;> simp [childFor, bitChar, charZero, charOne]

/-- One branch of the decoder from an internal record of a finished tree (R192, R193). -/
theorem decChar_branch {s : State} {b : Bool} {j : Idx} (hb : s.tree = .built)
    (hr : s.rootIdx.toNat < s.nodeCount.toNat) (hrk : (s.nodeAt s.rootIdx).kind = .internal)
    (hc : s.decCur.toNat < s.nodeCount.toNat)
    (hj : (if b then (s.nodeAt s.decCur).right else (s.nodeAt s.decCur).left) = j)
    (hjn : j.toNat < s.nodeCount.toNat) :
    ((s.nodeAt j).kind = .leaf → exec (.decChar (bitChar b)) s =
      .next { s with out := s.out ++ [(s.nodeAt j).symbol], decCur := s.rootIdx }) ∧
    ((s.nodeAt j).kind = .internal → exec (.decChar (bitChar b)) s = .next { s with decCur := j }) := by
  have hx : exec (.decChar (bitChar b)) s = decMove j s := by
    simp only [exec, execDecChar]
    split <;> rename_i ht
    · rw [hb] at ht; cases ht
    · rw [hb] at ht; cases ht
    · rw [hb] at ht; cases ht
    · rw [node?_of_lt hr]; dsimp only
      rw [hrk]; dsimp only
      unfold decDescend
      rw [node?_of_lt hc]; dsimp only
      rw [childFor_bitChar, hj]
  rw [hx]
  unfold decMove
  rw [node?_of_lt hjn]
  dsimp only
  constructor <;> intro hk <;> rw [hk] <;> rfl

/-- The decoder fed a path from where it stands to a leaf emits the leaf's symbol and returns to the root; fed a path to
an internal record it stands there and has emitted nothing (R193). -/
theorem dec_run {s : State} (h : TreeInv s) (hb : s.tree = .built) (hrk : (s.nodeAt s.rootIdx).kind = .internal)
    {q : List Bool} {c j : Idx} (hq : s.follow q c = some j) (hne : q ≠ []) :
    ((s.nodeAt j).kind = .leaf → execAll ((q.map bitChar).map .decChar) { s with decCur := c } =
      .next { s with out := s.out ++ [(s.nodeAt j).symbol], decCur := s.rootIdx }) ∧
    ((s.nodeAt j).kind = .internal → execAll ((q.map bitChar).map .decChar) { s with decCur := c } =
      .next { s with decCur := j }) := by
  have ht : s.tree ≠ .none := by rw [hb]; simp
  have hr := (h.built_counts hb).2.2
  induction q generalizing c with
  | nil => exact absurd rfl hne
  | cons b q ih =>
    obtain ⟨hc, hk, hq'⟩ := follow_cons.1 hq
    have hm := h.isMerge ht hc hk
    have hl := hm.left_lt
    have hrr := hm.right_lt
    have hjn : (if b then (s.nodeAt c).right else (s.nodeAt c).left).toNat < s.nodeCount.toNat := by
      cases b <;> simp <;> omega
    have hstep := decChar_branch (s := { s with decCur := c }) (b := b) hb hr hrk hc rfl hjn
    rw [List.map_cons, List.map_cons, execAll_cons]
    cases q with
    | nil =>
      cases hq'
      constructor
      · intro hj; rw [hstep.1 hj]; rfl
      · intro hj; rw [hstep.2 hj]; rfl
    | cons b' q =>
      rw [hstep.2 (follow_cons.1 hq').2.1, andThen_next]
      exact ih hq' (by simp)

end Sys2Proof.Machine
end

