-- ==== Sys2Proof/Laws/PerInstr.lean ====
section
/-! SUPPORT. One lemma for each constructor of `Instr`: its word is one its own row of the opcode map accepts. -/

namespace Sys2Proof.Laws.EncodeMatchesRow

/-- Some row of the opcode map (R86) accepts the word of the command (R84). -/
def Statement (i : Instr) : Prop := ∃ r ∈ opcodeMap, r.accepts (encode i) = true

/-- The statement from a row of the map and the match of R84 against it. -/
theorem of_row {i : Instr} {p m : Word} {f : Word → Instr} (hr : ⟨p, m, f⟩ ∈ opcodeMap)
    (h : (encode i &&& m == p) = true) : Statement i := ⟨_, hr, h⟩

theorem nop : Statement (.nop) :=
  of_row (List.getElem_mem (l := opcodeMap) (n := 0) (by decide)) (by decide +kernel)

theorem clear : Statement (.clear) :=
  of_row (List.getElem_mem (l := opcodeMap) (n := 1) (by decide)) (by decide +kernel)

theorem count (b : Byte) : Statement (.count b) :=
  of_row (List.getElem_mem (l := opcodeMap) (n := 2) (by decide)) (by revert b; decide +kernel)

theorem freqWr (b : Byte) : Statement (.freqWr b) :=
  of_row (List.getElem_mem (l := opcodeMap) (n := 3) (by decide)) (by revert b; decide +kernel)

theorem freqRd (b : Byte) : Statement (.freqRd b) :=
  of_row (List.getElem_mem (l := opcodeMap) (n := 4) (by decide)) (by revert b; decide +kernel)

theorem buildInit : Statement (.buildInit) :=
  of_row (List.getElem_mem (l := opcodeMap) (n := 5) (by decide)) (by decide +kernel)

theorem mergeStep : Statement (.mergeStep) :=
  of_row (List.getElem_mem (l := opcodeMap) (n := 6) (by decide)) (by decide +kernel)

theorem build : Statement (.build) :=
  of_row (List.getElem_mem (l := opcodeMap) (n := 7) (by decide)) (by decide +kernel)

theorem nodeRd (idx : Idx) (sel : BitVec 2) : Statement (.nodeRd idx sel) :=
  of_row (List.getElem_mem (l := opcodeMap) (n := 8) (by decide)) (by revert idx sel; decide +kernel)

theorem pqRd (pos : Idx) : Statement (.pqRd pos) :=
  of_row (List.getElem_mem (l := opcodeMap) (n := 9) (by decide)) (by revert pos; decide +kernel)

theorem genCodes : Statement (.genCodes) :=
  of_row (List.getElem_mem (l := opcodeMap) (n := 10) (by decide)) (by decide +kernel)

theorem codeInfo (b : Byte) : Statement (.codeInfo b) :=
  of_row (List.getElem_mem (l := opcodeMap) (n := 11) (by decide)) (by revert b; decide +kernel)

theorem codeRd (b : Byte) (chunk : BitVec 3) : Statement (.codeRd b chunk) :=
  of_row (List.getElem_mem (l := opcodeMap) (n := 12) (by decide)) (by revert b chunk; decide +kernel)

theorem hdrEnc : Statement (.hdrEnc) :=
  of_row (List.getElem_mem (l := opcodeMap) (n := 13) (by decide)) (by decide +kernel)

theorem hdrChar (b : Byte) : Statement (.hdrChar b) :=
  of_row (List.getElem_mem (l := opcodeMap) (n := 14) (by decide)) (by revert b; decide +kernel)

theorem encByte (b : Byte) : Statement (.encByte b) :=
  of_row (List.getElem_mem (l := opcodeMap) (n := 15) (by decide)) (by revert b; decide +kernel)

theorem decChar (b : Byte) : Statement (.decChar b) :=
  of_row (List.getElem_mem (l := opcodeMap) (n := 16) (by decide)) (by revert b; decide +kernel)

theorem decEnd : Statement (.decEnd) :=
  of_row (List.getElem_mem (l := opcodeMap) (n := 17) (by decide)) (by decide +kernel)

theorem decSingle : Statement (.decSingle) :=
  of_row (List.getElem_mem (l := opcodeMap) (n := 18) (by decide)) (by decide +kernel)

end Sys2Proof.Laws.EncodeMatchesRow
end

