-- ==== Sys2Proof/Laws/Same.lean ====
section
/-! SUPPORT. States with the same tree: the records from NODE_COUNT up, which no rule reads (R27), and everything a tree is
not made of, do not matter to a build (R129). -/

namespace Sys2Proof.Machine

/-- Two states with the same frequencies, tree registers, queue and defined records. -/
structure SameTree (s t : State) : Prop where
  freq : t.freq = s.freq
  width : t.freqWidth = s.freqWidth
  nodeCount : t.nodeCount = s.nodeCount
  pq : t.pq = s.pq
  rootIdx : t.rootIdx = s.rootIdx
  leafCount : t.leafCount = s.leafCount
  tree : t.tree = s.tree
  decCur : t.decCur = s.decCur
  recs : ∀ i : Idx, i.toNat < s.nodeCount.toNat → t.nodeAt i = s.nodeAt i

theorem SameTree.node? {s t : State} (h : SameTree s t) (i : Idx) : t.node? i = s.node? i := by
  by_cases hi : i.toNat < s.nodeCount.toNat
  · rw [node?_of_lt hi, node?_of_lt (h.nodeCount ▸ hi), h.recs i hi]
  · have hi' : s.nodeCount.toNat ≤ i.toNat := by omega
    rw [node?_eq_none.2 hi', node?_eq_none.2 (h.nodeCount ▸ hi')]

theorem SameTree.follow {s t : State} (h : SameTree s t) (q : List Bool) (i : Idx) : t.follow q i = s.follow q i := by
  induction q generalizing i with
  | nil => rfl
  | cons b q ih => unfold State.follow; rw [h.node?]; simp only [ih]

theorem SameTree.subtree? {s t : State} (h : SameTree s t) (n : Nat) (i : Idx) :
    t.subtree? n i = s.subtree? n i := by
  induction n generalizing i with
  | zero => rfl
  | succ n ih => unfold State.subtree?; rw [h.node?]; simp only [ih]

theorem SameTree.tree? {s t : State} (h : SameTree s t) : t.tree? = s.tree? := by
  unfold State.tree?; rw [h.tree, h.rootIdx, h.subtree?]

theorem SameTree.generatedCodes {s t : State} (h : SameTree s t) : t.generatedCodes = s.generatedCodes :=
  generatedCodes_congr h.node? h.tree h.rootIdx

/-! ### Insertion -/

theorem pqInsert_congr {t u : Vector NodeRec Config.nodeCap} {pq : List Idx} {k : Idx}
    (h : ∀ i, i = k ∨ i ∈ pq → storeAt u i = storeAt t i) : pqInsert u pq k = pqInsert t pq k := by
  unfold pqInsert
  have : (pq.countP fun e => keyLe (storeAt u e) (storeAt u k)) = pq.countP fun e => keyLe (storeAt t e) (storeAt t k) := by
    apply List.countP_congr
    intro e he
    rw [h e (Or.inr he), h k (Or.inl rfl)]
  rw [this]

theorem foldl_pqInsert_congr {t u : Vector NodeRec Config.nodeCap} {ks acc : List Idx}
    (h : ∀ i, i ∈ ks ∨ i ∈ acc → storeAt u i = storeAt t i) :
    ks.foldl (pqInsert u) acc = ks.foldl (pqInsert t) acc := by
  induction ks generalizing acc with
  | nil => rfl
  | cons k ks ih =>
    have hk : pqInsert u acc k = pqInsert t acc k := pqInsert_congr (by
      rintro i (rfl | hi)
      · exact h _ (Or.inl List.mem_cons_self)
      · exact h _ (Or.inr hi))
    rw [List.foldl_cons, List.foldl_cons, hk]
    apply ih
    rintro i (hi | hi)
    · exact h _ (Or.inl (List.mem_cons_of_mem _ hi))
    · rcases List.mem_cons.1 ((pqInsert_perm _ _ _).mem_iff.1 hi) with rfl | hi
      · exact h _ (Or.inl List.mem_cons_self)
      · exact h _ (Or.inr hi)

/-! ### Builds -/

theorem buildInit_same {s t : State} (hf : t.freq = s.freq) (hw : t.freqWidth = s.freqWidth) :
    SameTree s.buildInit t.buildInit := by
  have hl : t.leaves = s.leaves := by simp [State.leaves, hf]
  have hle := leaves_length_le s
  have hat : ∀ i : Idx, i.toNat < s.leaves.length → t.buildInit.nodeAt i = s.buildInit.nodeAt i := by
    intro i hi
    rw [buildInit_nodeAt s i hi, buildInit_nodeAt t i (by rw [hl]; exact hi)]
    simp only [hl]
  constructor
  · exact hf
  · exact hw
  · simp [hf]
  · have hfold := foldl_pqInsert_congr (t := s.buildInit.node) (u := t.buildInit.node)
      (ks := indicesBelow s.leaves.length) (acc := []) (by
        rintro i (hi | hi)
        · exact hat i ((mem_indicesBelow (by omega)).1 hi)
        · cases hi)
    have e : t.buildInit.pq = (indicesBelow t.leaves.length).foldl (pqInsert t.buildInit.node) [] := rfl
    rw [e, hl, hfold]; rfl
  · rfl
  · simp [hf]
  · simp [hf]
  · rfl
  · intro i hi
    apply hat
    have : s.buildInit.nodeCount.toNat = s.leaves.length :=
      toNat_ofNat_idx (by have := leaves_length_le s; simp at this ⊢; omega)
    omega

/-- Two merges of the same queue. -/
theorem merged_same {s t : State} (h : SameTree s t) {a b : Idx} {rest : List Idx} (hq : s.pq = a :: b :: rest)
    (hd : ∀ e ∈ s.pq, e.toNat < s.nodeCount.toNat) (hn : s.nodeCount.toNat < 511) :
    SameTree (s.merged a b rest) (t.merged a b rest) := by
  have hn' : t.nodeCount.toNat < 511 := by rw [h.nodeCount]; exact hn
  rw [hq] at hd
  have ha := hd a (by simp)
  have hb := hd b (by simp)
  have hnode : ∀ i : Idx, i = s.nodeCount ∨ i.toNat < s.nodeCount.toNat →
      (t.merged a b rest).nodeAt i = (s.merged a b rest).nodeAt i := by
    intro i hi
    rw [merged_nodeAt _ _ _ _ _ hn, merged_nodeAt _ _ _ _ _ hn', h.nodeCount, h.recs a ha, h.recs b hb]
    split
    · rfl
    · rename_i hne
      exact h.recs i (by rcases hi with rfl | hi; exact absurd rfl hne; exact hi)
  have hpq : (t.merged a b rest).pq = (s.merged a b rest).pq := by
    have := pqInsert_congr (t := (s.merged a b rest).node) (u := (t.merged a b rest).node) (pq := rest)
      (k := s.nodeCount) (by
        rintro i (rfl | hi)
        · exact hnode _ (Or.inl rfl)
        · exact hnode _ (Or.inr (hd i (by simp [hi]))))
    rw [State.merged_node, State.merged_node] at this
    rw [State.merged_pq, State.merged_pq, h.nodeCount]
    rw [h.nodeCount] at this
    exact this
  have hcase : (t.merged a b rest).tree = (s.merged a b rest).tree ∧
      (t.merged a b rest).rootIdx = (s.merged a b rest).rootIdx ∧
      (t.merged a b rest).decCur = (s.merged a b rest).decCur := by
    cases rest with
    | nil =>
      obtain ⟨h1, h2, h3, _⟩ := merged_last s a b
      obtain ⟨g1, g2, g3, _⟩ := merged_last t a b
      rw [h1, h2, h3, g1, g2, g3, h.nodeCount]; exact ⟨rfl, rfl, rfl⟩
    | cons c rest =>
      obtain ⟨h1, h2, h3⟩ := merged_more s a b c rest
      obtain ⟨g1, g2, g3⟩ := merged_more t a b c rest
      rw [h1, h2, h3, g1, g2, g3]; exact ⟨h.tree, h.rootIdx, h.decCur⟩
  constructor
  · simp [h.freq]
  · simp [h.width]
  · simp [h.nodeCount]
  · exact hpq
  · exact hcase.2.1
  · simp [h.leafCount]
  · exact hcase.1
  · exact hcase.2.2
  · intro i hi
    rw [State.merged_nodeCount, nodeCount_succ hn] at hi
    apply hnode
    by_cases he : i = s.nodeCount
    · exact Or.inl he
    · right
      have : i.toNat ≠ s.nodeCount.toNat := fun e => he (BitVec.eq_of_toNat_eq e)
      omega

theorem SameTree.symm {s t : State} (h : SameTree s t) : SameTree t s :=
  ⟨h.freq.symm, h.width.symm, h.nodeCount.symm, h.pq.symm, h.rootIdx.symm, h.leafCount.symm, h.tree.symm, h.decCur.symm,
    fun i hi => (h.recs i (h.nodeCount ▸ hi)).symm⟩

theorem mergeOnce_same {s t s' : State} (h : SameTree s t) (hm : mergeOnce s = .next s') :
    ∃ t', mergeOnce t = .next t' ∧ SameTree s' t' := by
  obtain ⟨a, b, rest, hq, hd, hn, hw, rfl⟩ := mergeOnce_eq_next.1 hm
  have ha := hd a (by rw [hq]; simp)
  have hb := hd b (by rw [hq]; simp)
  refine ⟨t.merged a b rest, mergeOnce_eq_next.2 ⟨a, b, rest, h.pq.trans hq, ?_, ?_, ?_, rfl⟩, merged_same h hq hd hn⟩
  · rw [h.pq, h.nodeCount]; exact hd
  · rw [h.nodeCount]; exact hn
  · rw [h.recs a ha, h.recs b hb]; unfold State.weightWidth; rw [h.width]; exact hw

theorem mergeLoop_same {n : Nat} {s t s' : State} (h : SameTree s t) (hm : mergeLoop n s = .next s') :
    ∃ t', mergeLoop n t = .next t' ∧ SameTree s' t' := by
  induction n generalizing s t with
  | zero => cases hm; exact ⟨t, rfl, h⟩
  | succ n ih =>
    unfold mergeLoop at hm ⊢
    rw [h.tree]
    split at hm
    · rename_i hb
      rw [if_pos hb]
      obtain ⟨u, hu, hm⟩ := andThen_eq_next.1 hm
      obtain ⟨v, hv, hsame⟩ := mergeOnce_same h hu
      rw [hv]; exact ih hsame hm
    · rename_i hb
      rw [if_neg hb]; cases hm; exact ⟨t, rfl, h⟩

end Sys2Proof.Machine
end

