-- ==== Sys2Proof/Tests/Slice0.lean ====
section
/-! SUPPORT. Small tests, each with the source of its expected value, and for every statement with hypotheses a witness
that meets them. `V-…` names a vector of 95_test_vectors.md. -/

open Sys2Proof Sys2Proof.Machine

namespace Sys2Proof.Tests

-- One theorem is checked at a time, since each thread takes its stack from the memory limit.
set_option Elab.async false

/-! ### Command lines that the check refuses (R83, R90) -/

theorem test_b_operand_bound : (Source.b .count 256).wf = false ∧ (Source.b .count 255).wf = true := by decide
theorem test_bc_byte_bound : (Source.bc 256 0).wf = false ∧ (Source.bc 255 0).wf = true := by decide
theorem test_bc_chunk_bound : (Source.bc 0 8).wf = false ∧ (Source.bc 0 7).wf = true := by decide
theorem test_i_pos_bound : (Source.i 512).wf = false ∧ (Source.i 511).wf = true := by decide
theorem test_is_idx_bound : (Source.is 512 0).wf = false ∧ (Source.is 511 0).wf = true := by decide
theorem test_is_sel_bound : (Source.is 0 4).wf = false ∧ (Source.is 0 3).wf = true := by decide
theorem test_no_word_for_a_bad_line : (Source.is 0 4).assemble = none ∧ (Source.z .nop).assemble = some .nop := by decide

/-! ### Decoding: a word of each command, written out from the formats of R82 and the OPC of R86 -/

theorem test_decode_nop : decode 0b00000000_00000000_0000000000000000 = .ok .nop := by decide
theorem test_decode_clear : decode 0b00000001_00000000_0000000000000000 = .ok .clear := by decide
theorem test_decode_count : decode 0b00001000_00000000_00000000_01100001 = .ok (.count 0x61) := by decide
theorem test_decode_freqWr : decode 0b00001001_00000000_00000000_11111110 = .ok (.freqWr 0xFE) := by decide
theorem test_decode_freqRd : decode 0b00001010_00000000_00000000_10000001 = .ok (.freqRd 0x81) := by decide
theorem test_decode_buildInit : decode 0b00010000_00000000_0000000000000000 = .ok .buildInit := by decide
theorem test_decode_mergeStep : decode 0b00010001_00000000_0000000000000000 = .ok .mergeStep := by decide
theorem test_decode_build : decode 0b00010010_00000000_0000000000000000 = .ok .build := by decide
theorem test_decode_nodeRd : decode 0b00010011_000000_10_0000000_101000011 = .ok (.nodeRd 0x143 2) := by decide
theorem test_decode_pqRd : decode 0b00010100_00000000_0000000_100000101 = .ok (.pqRd 0x105) := by decide
theorem test_decode_genCodes : decode 0b00100000_00000000_0000000000000000 = .ok .genCodes := by decide
theorem test_decode_codeInfo : decode 0b00100001_00000000_00000000_01100010 = .ok (.codeInfo 0x62) := by decide
theorem test_decode_codeRd : decode 0b00100010_00000_101_00000000_01100011 = .ok (.codeRd 0x63 5) := by decide
theorem test_decode_hdrEnc : decode 0b00110000_00000000_0000000000000000 = .ok .hdrEnc := by decide
theorem test_decode_hdrChar : decode 0b00110001_00000000_00000000_00001010 = .ok (.hdrChar 0x0A) := by decide
theorem test_decode_encByte : decode 0b01000000_00000000_00000000_01100100 = .ok (.encByte 0x64) := by decide
theorem test_decode_decChar : decode 0b01000001_00000000_00000000_00110001 = .ok (.decChar 0x31) := by decide
theorem test_decode_decEnd : decode 0b01000010_00000000_0000000000000000 = .ok .decEnd := by decide
theorem test_decode_decSingle : decode 0b01000011_00000000_0000000000000000 = .ok .decSingle := by decide

/-- The illegal words of 95_test_vectors.md 2.9. -/
theorem test_illegal_words :
    ∀ w ∈ [0x00000001, 0x01000100, 0x08000100, 0x08010061, 0x13000200, 0x13040000, 0x13040005, 0x22080000, 0x02000000,
      0xFF000000, 0x44000000], decodeTableWord 32 w = none := by decide

/-! ### Helpers -/

/-- The state a result holds, or `s` if it holds none. -/
def stateOf (r : Result) (s : State) : State :=
  match r with
  | .next t => t
  | _ => s

/-- A result is a next state. -/
def isNext (r : Result) : Bool :=
  match r with
  | .next _ => true
  | _ => false

theorem eq_stateOf {r : Result} (h : isNext r = true) (s : State) : r = .next (stateOf r s) := by
  cases r <;> simp_all [isNext, stateOf]

/-- The state that commands leave. -/
def after (s : State) (is : List Instr) : State := stateOf (execAll is s) s

/-- The reset state with a frequency table. -/
def withTable (l : List (Byte × Word)) : State := l.foldl (fun s p => s.setFreq p.1 p.2) State.reset

/-- The reset state of a block with `FREQ_WIDTH` = 4 and a value in DATA_IN. -/
def narrow (v : Word) : State := { State.reset with freqWidth := ⟨4, by decide, by decide⟩, dataIn := v }

/-- The state with one host event to come. -/
def given (s : State) (e : HostEvent) : State := { s with host := [e] }

/-- The state with an error. -/
def inError (s : State) : State := { s with err := .sequence }

/-- The FREQ of V-T1. -/
def golden : State := withTable [(32, 3), (97, 4), (98, 3), (99, 2), (100, 1)]

/-- The state after V-T1 step 0. -/
def queued : State := golden.buildInit

/-- The state after V-T1. -/
def built : State := stateOf (exec .build golden) golden

/-- The state after V-C1. -/
def coded : State := stateOf (exec .genCodes built) built

/-- FREQ of one symbol, its build and its codes (V-C5). -/
def one : State := withTable [(97, 1)]
def oneBuilt : State := stateOf (exec .build one) one
def oneCoded : State := stateOf (exec .genCodes oneBuilt) oneBuilt

/-- The build of the zero table (V-T8a). -/
def emptyBuilt : State := stateOf (exec .build State.reset) State.reset

/-- The state after HDR_CHAR of each byte from reset. -/
def parsed (text : List Byte) : State := after State.reset (text.map .hdrChar)

/-- The parser right after the SP of a symbol token, in a block of the given FREQ_WIDTH. -/
def atSepF (w : Nat) (h : 1 ≤ w ∧ w ≤ 32 := by decide) : State :=
  { State.reset with freqWidth := ⟨w, h.1, h.2⟩, hp := .sepF }

/-- The golden payload decoder after the characters, from reset with the golden build. -/
def decoding (text : List Byte) : State := after built (text.map .decChar)

/-! ### One step each, in states with no tree -/

/-- V-X4. -/
theorem test_nop : (after (inError State.reset) [.nop]).status = 0x00000006 := by decide +kernel
/-- V-F5. -/
theorem test_count : (after (withTable [(97, 0xFFFFFFFE)]) [.count 97]).freqAt 97 = 0xFFFFFFFF := by decide +kernel
/-- V-F3. -/
theorem test_count_overflow : (after (withTable [(97, 0xFFFFFFFF)]) [.count 97]).status = 0x00000003 := by decide +kernel
/-- V-F7. -/
theorem test_freqWr : (after (narrow 15) [.freqWr 97]).freqAt 97 = 15 := by decide +kernel
/-- V-F6. -/
theorem test_freqWr_overflow : (after (narrow 16) [.freqWr 97]).status = 0x00000003 := by decide +kernel
/-- V-F2. -/
theorem test_freqRd : (after golden [.freqRd 97]).dataOut = 4 ∧ (after golden [.freqRd 101]).dataOut = 0 := by
  decide +kernel
/-- V-T8e. -/
theorem test_mergeStep_sequence : (after State.reset [.mergeStep]).status = 0x00000006 := by decide +kernel
/-- V-T8h. -/
theorem test_nodeRd_argument : (after State.reset [.nodeRd 5 3]).status = 0x00000005 := by decide +kernel
/-- V-H7. -/
theorem test_hdrEnc_sequence : (after (parsed [0x39, 0x37, 0x20]) [.hdrEnc]).status = 0x00000026 := by decide +kernel
/-- V-P1. -/
theorem test_hdrChar : (after (parsed [0x39, 0x37, 0x20, 0x31]) [.hdrChar 0x0A]).status = 0x00000050 ∧
    (after (parsed [0x39, 0x37, 0x20, 0x31]) [.hdrChar 0x0A]).freqAt 97 = 1 := by decide +kernel
/-- V-P9 and V-P16. -/
theorem test_hdrChar_bounds : (after (parsed [0x32, 0x35]) [.hdrChar 0x36]).status = 0x00000011 ∧
    (after { parsed [0x39, 0x37, 0x20, 0x34] with hacc := 429496729 } [.hdrChar 0x36]).status = 0x00000033 := by
  decide +kernel
/-- R211, D26: with FREQ_MAX = 7 the first digit '8' of a frequency raises OVERFLOW and '7' does not. -/
theorem test_hdrChar_first_digit : (after (atSepF 3) [.hdrChar 0x38]).status = 0x00000023 ∧
    (after (atSepF 3) [.hdrChar 0x37]).status = 0x00000030 := by decide +kernel
/-- V-D11. -/
theorem test_decEnd_sequence : (after State.reset [.decEnd]).status = 0x00000006 := by decide +kernel
/-- V-H1. -/
theorem test_hdrEnc : (after golden [.hdrEnc]).out = [0x33, 0x32, 0x20, 0x33, 0x20, 0x39, 0x37, 0x20, 0x34, 0x20, 0x39,
    0x38, 0x20, 0x33, 0x20, 0x39, 0x39, 0x20, 0x32, 0x20, 0x31, 0x30, 0x30, 0x20, 0x31, 0x0A] := by decide +kernel

/-! ### One step each, around the golden tree: one theorem a tree, since each evaluates a build -/

/-- V-T1 steps 0 and 1, and PQ_RD 2 after step 1. -/
theorem test_buildInit_mergeStep_pqRd : queued.status = 0x00281480 ∧ queued.treeInfo = 0x00000005 ∧
    queued.pq = [4, 3, 0, 2, 1] ∧ (after queued [.mergeStep]).pq = [0, 2, 5, 1] ∧
    (after queued [.mergeStep]).nodeAt 5 = ⟨.internal, 100, 3, 4, 3⟩ ∧
    (after queued [.mergeStep, .pqRd 2]).dataOut = 5 := by decide +kernel

/-- V-T1 step 4 and its NODE_RD of node 8, V-X1, V-X2, and V-D4, a payload that ends inside a code. -/
theorem test_build_nodeRd_clear_decChar_decEnd : built.status = 0x00280580 ∧ built.treeInfo = 0x00080009 ∧
    built.decInfo = 0x80000008 ∧ (after built [.nodeRd 8 0]).dataOut = 0x0000000D ∧
    (after built [.nodeRd 8 1]).dataOut = 0 ∧ (after built [.nodeRd 8 2]).dataOut = 0xC00E0664 ∧
    (after built [.nop]).status = 0x00280580 ∧ (after { built with out := [0x39] } [.clear]).status = 0 ∧
    (after { built with out := [0x39] } [.clear]).outLevel = 1 ∧ (decoding [0x31, 0x31, 0x30]).out = [97] ∧
    (decoding [0x31, 0x31, 0x30]).decInfo = 0x00000006 ∧
    (after (decoding [0x31, 0x31, 0x30]) [.decEnd]).status = 0x00280582 := by decide +kernel

/-- V-C1 to V-C4 and V-E1. -/
theorem test_genCodes_codeInfo_codeRd_encByte : coded.status = 0x00280780 ∧
    (coded.codeAt 99).path = [true, false, true] ∧ (coded.codeAt 100).path = [true, false, false] ∧
    (after coded [.codeInfo 99]).dataOut = 0x80000003 ∧ (after coded [.codeInfo 101]).dataOut = 0 ∧
    (after coded [.codeRd 98 0]).dataOut = 2 ∧ (after coded [.codeRd 97 7]).dataOut = 0 ∧
    (after coded [.encByte 99]).out = [0x31, 0x30, 0x31] := by decide +kernel

/-- One leaf: V-T8b, V-T8d, V-T8g, V-C5, V-C9, V-E3, V-D8, and DEC_SINGLE of a weight of 1. -/
theorem test_one_leaf : oneBuilt.status = 0x00080580 ∧ (after oneBuilt [.pqRd 1]).status = 0x00080585 ∧
    (after oneBuilt [.nodeRd 0 3]).status = 0x00080585 ∧ (after oneCoded [.codeInfo 97]).dataOut = 0x80000000 ∧
    (after oneBuilt [.codeInfo 97]).status = 0x00080586 ∧ (after oneCoded [.encByte 97]).out = [] ∧
    (after oneBuilt [.decChar 0x30]).err = .corruptBitstream ∧ (after oneBuilt [.decSingle]).out = [97] := by
  decide +kernel

/-- No leaf: V-T8a, V-C6, V-E6, V-D10 and V-D13. -/
theorem test_no_leaf : emptyBuilt.status = 0x00000100 ∧ (after emptyBuilt [.genCodes]).status = 0x00000300 ∧
    (after emptyBuilt [.genCodes, .encByte 0]).err = .noCode ∧ (after emptyBuilt [.decChar 0x30]).err = .corruptBitstream ∧
    (after emptyBuilt [.decSingle, .decEnd]).status = 0x00000100 := by decide +kernel

/-- P3: the seven 'b' of W5; and V-D12. -/
theorem test_decSingle : (after (withTable [(98, 7)]) [.build, .decSingle]).out = List.replicate 7 98 ∧
    (after built [.decSingle]).err = .sequence := by decide +kernel

/-! ### The register space -/

/-- V-X5 and V-X6: while ERR is not 0, only the exact words of NOP and CLEAR are executed. -/
theorem test_ignored_in_error : ([0x00000001, 0x01000100, 0x08000061] : List Word).all (fun w =>
    (stateOf (step (given (inError State.reset) (.write offCmd 4 w))) State.reset).err == .sequence) := by decide +kernel
/-- P3: the DRAIN's words. -/
theorem test_outData : (stateOf (step (given { State.reset with out := [0x39, 0x38] } (.read offOutData 4))) State.reset).readLog =
    [⟨offOutData, 0x80000039⟩] := by decide +kernel
/-- The harness's word runs as the first command after reset. -/
theorem test_withFetchWord : (stateOf (step (State.reset.withFetchWord 32 0x08000061)) State.reset).freqAt 0x61 = 1 := by
  decide +kernel
/-- R196: a payload after a one-pair header is a corrupt file, at the first DEC_CHAR; with no payload DEC_SINGLE runs. The
host has read LEAF_COUNT = 1 from STATUS. -/
theorem test_decodeProcedureTail : leafCountOf 0x000805D0 = 1 ∧
    eventsOf (decodeProcedureTail 0x000805D0 [0x30]) = [.write 0x00 4 0x41000030] ∧
    eventsOf (decodeProcedureTail 0x000805D0 []) = [.write 0x00 4 0x43000000] ∧
    eventsOf (decodeProcedureTail 0x002805D0 [0x30]) = [.write 0x00 4 0x41000030, .write 0x00 4 0x42000000] ∧
    eventsOf (decodeProcedureHead [0x0A]) = [.write 0x00 4 0x01000000, .write 0x00 4 0x3100000A, .write 0x00 4 0x12000000,
      .read 0x0C 4] := by decide
/-- R91: the lines of FREQ_SET are the write of DATA_IN and then FREQ_WR. -/
theorem test_freqSet : eventsOf (freqSet 97 5) = [.write 0x04 4 5, .write 0x00 4 0x09000061] := by decide


/-! ### The invariants hold in these states -/

theorem header_reset : HeaderInv State.reset := by constructor <;> decide +kernel

theorem header_golden : HeaderInv golden := by constructor <;> decide +kernel

theorem header_one : HeaderInv one := by constructor <;> decide +kernel

theorem header_buildInit {s : State} (h : HeaderInv s) (hc : s.headerClosed = true) : HeaderInv s.buildInit :=
  ⟨h.freq_le, h.hacc_le, h.sym_le, h.token_le, fun _ => hc⟩

theorem tree_reset : TreeInv State.reset := treeInv_none rfl rfl rfl rfl rfl rfl

theorem tree_golden : TreeInv golden := treeInv_none rfl rfl rfl rfl rfl rfl

theorem tree_queued : TreeInv queued := buildInit_treeInv golden

/-- The golden build in one evaluation: the later witnesses take their facts from here. -/
theorem built_facts : isNext (exec .build golden) = true ∧ built.tree = .built ∧ built.err = .none ∧
    built.rootIdx = 8 ∧ built.decCur = 8 ∧ built.nodeCount = 9 ∧ built.leafCount = 5 ∧ built.pq = [8] ∧
    (built.nodeAt 8).kind = .internal ∧ built.codesValid = false ∧ built.follow [false, true] 8 = some 2 ∧
    (built.nodeAt 2).kind = .leaf ∧ (built.nodeAt (built.nodeAt 8).right).kind = .internal ∧
    built.buildFinished = true ∧ isNext (exec .genCodes built) = true ∧ built.headerClosed = true := by decide +kernel

/-- The golden codes in one evaluation. -/
theorem coded_facts : coded.codesValid = true ∧ coded.err = .none ∧ coded.tree = .built ∧ coded.leafCount = 5 ∧
    (coded.codeAt 98).valid = true ∧ (coded.codeAt 99).valid = true ∧ (coded.codeAt 101).valid = false ∧
    (coded.codeAt 99).len = 3 ∧ coded.decCur = coded.rootIdx ∧ isNext (exec .genCodes built) = true := by decide +kernel

/-- The build and the codes of one leaf in one evaluation. -/
theorem one_facts : isNext (exec .build one) = true ∧ isNext (exec .genCodes oneBuilt) = true ∧
    oneBuilt.tree = .built ∧ oneBuilt.err = .none ∧ (oneBuilt.nodeAt oneBuilt.rootIdx).kind = .leaf ∧
    oneBuilt.buildFinished = true ∧ oneCoded.codesValid = true ∧ oneCoded.leafCount = 1 ∧
    (oneCoded.codeAt 97).valid = true := by decide +kernel

/-- The empty build in one evaluation. -/
theorem empty_facts : isNext (exec .build State.reset) = true ∧ emptyBuilt.tree = .empty ∧ emptyBuilt.err = .none := by
  decide +kernel

/-- What BUILD_INIT leaves of the golden table, in one evaluation, and a merge that leaves one entry in the queue. -/
theorem queued_facts : queued.tree = .building ∧ queued.err = .none ∧ queued.pq = [4, 3, 0, 2, 1] ∧
    (symbols.filter fun b => golden.freqAt b ≠ 0).length = 5 ∧ (symbols.filter fun b => one.freqAt b ≠ 0).length = 1 ∧
    (withTable [(0, 1), (255, 1)]).buildInit.pq = [0, 1] := by decide +kernel

theorem exec_built : exec .build golden = .next built := eq_stateOf built_facts.1 _

theorem exec_coded : exec .genCodes built = .next coded := eq_stateOf coded_facts.2.2.2.2.2.2.2.2.2 _

theorem exec_oneBuilt : exec .build one = .next oneBuilt := eq_stateOf one_facts.1 _

theorem exec_oneCoded : exec .genCodes oneBuilt = .next oneCoded := eq_stateOf one_facts.2.1 _

theorem exec_emptyBuilt : exec .build State.reset = .next emptyBuilt := eq_stateOf empty_facts.1 _

theorem inv_built : Inv built := build_inv header_golden rfl rfl exec_built

theorem inv_coded : Inv coded := genCodes_inv inv_built (by have := built_facts; simp_all) exec_coded

theorem inv_oneBuilt : Inv oneBuilt := build_inv header_one rfl rfl exec_oneBuilt

theorem inv_oneCoded : Inv oneCoded := genCodes_inv inv_oneBuilt (by have := one_facts; simp_all) exec_oneCoded

theorem inv_emptyBuilt : Inv emptyBuilt := build_inv header_reset rfl rfl exec_emptyBuilt

/-! ### Witnesses: for each statement with hypotheses, states and operands that meet them, a clause at a time -/

theorem witness_OneRowDecidesAWord : decode 0x130101FE = .ok (.nodeRd 510 1) := by decide

theorem witness_AssemblerEmitsNoIllegalWord : (255 : Nat) < 256 ∧ (7 : Nat) < 8 ∧ (511 : Nat) < 512 ∧ (3 : Nat) < 4 ∧
    (Source.is 511 3).assemble = some (.nodeRd 511 3) ∧ (Source.bc 255 7).assemble = some (.codeRd 255 7) := by decide

theorem witness_StepRunsDecodedCommand :
    (given State.reset (.write offCmd 4 0x08000061)).host = .write offCmd 4 0x08000061 :: [] ∧
    decode 0x08000061 = .ok (.count 0x61) ∧ State.reset.inReset = false ∧ State.reset.err = .none ∧
    (inError State.reset).inReset = false ∧ decode 0x00000000 = .ok .nop ∧ decode 0x01000000 = .ok .clear := by
  decide +kernel

theorem witness_IllegalAndIgnoredWords :
    (given State.reset (.write offCmd 4 0x02000000)).host = .write offCmd 4 0x02000000 :: [] ∧
    State.reset.inReset = false ∧ State.reset.err = .none ∧
    (∀ r ∈ opcodeMap, (0x02000000 : Word) &&& r.mask ≠ r.pattern) ∧ (inError State.reset).err ≠ .none ∧
    (0x00000001 : Word) ≠ 0 ∧ (0x00000001 : Word) ≠ 0x01000000 := by decide +kernel

theorem witness_StatusRegistersShowTheirFields :
    ({ State.reset with pq := List.replicate 256 0 } : State).pq.length ≤ 256 ∧ built.pq.length ≤ 256 := by
  refine ⟨by decide +kernel, ?_⟩
  have := built_facts; simp_all

theorem witness_ReadsReturnTheRegister (off : Offset) (_ : off.toNat % 4 = 0) (_ : off ≠ offOutData) :
    (given State.reset (.read off 4)).host = .read off 4 :: [] ∧ (given State.reset (.read off 4)).inReset = false ∧
    0x24 ≤ (0x24 : Offset).toNat ∧ 0x24 ≤ (0x3C : Offset).toNat ∧ (0x3C : Offset).toNat % 4 = 0 :=
  ⟨rfl, rfl, by decide, by decide, by decide⟩

theorem witness_OutDataReadTakesTheFirstByte :
    (given State.reset (.read 0x18 4)).host = .read 0x18 4 :: [] ∧ State.reset.inReset = false ∧ State.reset.out = [] ∧
    ({ State.reset with out := [0x39] } : State).out = 0x39 :: [] := ⟨rfl, rfl, rfl, rfl⟩

theorem witness_WritesOutsideCmd :
    (given State.reset (.write 0x04 4 7)).host = .write 0x04 4 7 :: [] ∧
    (given State.reset (.write 0x3C 4 7)).host = .write 0x3C 4 7 :: [] ∧ State.reset.inReset = false ∧
    (0x04 : Offset).toNat % 4 = 0 ∧ (0x3C : Offset).toNat % 4 = 0 ∧ (0x3C : Offset) ≠ 0x00 ∧ (0x3C : Offset) ≠ 0x04 :=
  ⟨rfl, rfl, rfl, by decide, by decide, by decide, by decide⟩

theorem witness_NarrowOrMisalignedAccessIsRefused :
    (given State.reset (.write 0x00 1 7)).host = .write 0x00 1 7 :: [] ∧ 1 ≠ 4 ∧
    (given State.reset (.read 0x0E 4)).host = .read 0x0E 4 :: [] ∧ (0x0E : Offset).toNat % 4 ≠ 0 :=
  ⟨rfl, by decide, rfl, by decide⟩

theorem witness_ResetSetsTheResetState :
    (given built .reset).host = .reset :: [] ∧ (given built .assertReset).host = .assertReset :: [] ∧
    (given { State.reset with inReset := true } .releaseReset).host = .releaseReset :: [] ∧
    (given State.reset .releaseReset).host = .releaseReset :: [] ∧ State.reset.inReset = false ∧
    (given { State.reset with inReset := true } (.write 0x00 4 7)).host = .write 0x00 4 7 :: [] ∧
    (given { State.reset with inReset := true } (.read 0x3C 4)).host = .read 0x3C 4 :: [] ∧
    ({ State.reset with inReset := true } : State).inReset = true ∧ (0x3C : Offset).toNat % 4 = 0 :=
  ⟨rfl, rfl, rfl, rfl, rfl, rfl, rfl, rfl, by decide⟩

theorem witness_ErrorsChangeOnlyErr : State.reset.err = .none ∧
    exec .mergeStep State.reset = .next (inError State.reset) ∧ (inError State.reset).err ≠ .none :=
  ⟨rfl, rfl, by decide⟩

theorem witness_SequenceExactlyWhenNotAllowed : TreeInv State.reset ∧ State.reset.err = .none ∧
    allowed .mergeStep State.reset = false ∧ allowed .buildInit State.reset = true ∧
    exec .buildInit State.reset = .next State.reset.buildInit := ⟨tree_reset, rfl, rfl, rfl, rfl⟩

theorem witness_OnlyClearAndResetEndAnError :
    let s := given (inError State.reset) (.write offCmd 4 0x01000000)
    s.err ≠ .none ∧ step s = .next (stateOf (step s) s) ∧ (stateOf (step s) s).err = .none := by
  refine ⟨by decide, eq_stateOf (by decide +kernel) _, by decide +kernel⟩

theorem witness_NopChangesNothing :
    (given (inError State.reset) (.write offCmd 4 0)).host = .write offCmd 4 0x00000000 :: [] ∧
    (given (inError State.reset) (.write offCmd 4 0)).inReset = false := ⟨rfl, rfl⟩

theorem witness_ClearDiscardsTheInputState : built.busy = false := inv_built.idle

theorem witness_ClearAgainstReset :
    (given State.reset .reset).busy = false ∧ (given State.reset .reset).inReset = false ∧
    (given State.reset .reset).host = .reset :: [] := ⟨rfl, rfl, rfl⟩

theorem witness_CountAddsOne :
    HeaderInv State.reset ∧ State.reset.err = .none ∧ State.reset.tree = .none ∧ State.reset.hp = .idle ∧
    (State.reset.freqAt 255).toNat ≠ State.reset.freqMax ∧
    ((withTable [(255, 0xFFFFFFFF)]).freqAt 255).toNat = (withTable [(255, 0xFFFFFFFF)]).freqMax ∧
    HeaderInv built ∧ built.err = .none ∧ built.tree ≠ .none := by
  refine ⟨header_reset, rfl, rfl, rfl, by decide +kernel, by decide +kernel, inv_built.header, ?_⟩
  have := built_facts; simp_all

theorem witness_CountsSumToTheirNumber :
    execAll (.clear :: ([7, 7, 255] : List Byte).map .count) State.reset =
      .next (after State.reset (.clear :: ([7, 7, 255] : List Byte).map .count)) ∧
    (after State.reset (.clear :: ([7, 7, 255] : List Byte).map .count)).err = .none :=
  ⟨eq_stateOf (by decide +kernel) _, by decide +kernel⟩

theorem witness_FreqWrWritesDataIn :
    (narrow 16).err = .none ∧ (narrow 16).tree = .none ∧ (narrow 16).hp = .idle ∧
    (narrow 16).freqMax < (narrow 16).dataIn.toNat ∧ (narrow 15).dataIn.toNat ≤ (narrow 15).freqMax ∧
    (parsed [0x39]).err = .none ∧ (parsed [0x39]).hp ≠ .idle := by decide +kernel

theorem witness_BuildInitMakesTheLeaves :
    (parsed [0x39]).err = .none ∧ (parsed [0x39]).headerClosed = false ∧ golden.err = .none ∧
    golden.headerClosed = true ∧ 2 ≤ (symbols.filter fun b => golden.freqAt b ≠ 0).length ∧
    (symbols.filter fun b => one.freqAt b ≠ 0).length = 1 := by
  refine ⟨by decide +kernel, by decide +kernel, rfl, rfl, ?_, ?_⟩ <;> have := queued_facts <;> omega

theorem witness_MergeStepMergesTheTwoLeast :
    HeaderInv State.reset ∧ TreeInv State.reset ∧ State.reset.err = .none ∧ State.reset.tree ≠ .building ∧
    HeaderInv queued ∧ TreeInv queued ∧ queued.err = .none ∧ queued.tree = .building ∧ queued.pq = [4, 3, 0, 2, 1] ∧
    (withTable [(0, 1), (255, 1)]).buildInit.pq = [0, 1] := by
  have h := queued_facts
  exact ⟨header_reset, tree_reset, rfl, by decide, header_buildInit header_golden rfl, tree_queued, h.2.1, h.1, h.2.2.1,
    h.2.2.2.2.2⟩

theorem witness_BuildIsInitThenMerges :
    HeaderInv golden ∧ golden.err = .none ∧ golden.headerClosed = true ∧ (parsed [0x39]).err = .none ∧
    HeaderInv (parsed [0x39]) ∧ (parsed [0x39]).headerClosed = false :=
  ⟨header_golden, rfl, rfl, by decide +kernel, by constructor <;> decide +kernel, by decide +kernel⟩

theorem witness_NodeRdReadsTheRecord : built.err = .none ∧ (8 : Idx).toNat < built.nodeCount.toNat ∧
    built.nodeCount.toNat ≤ (9 : Idx).toNat ∧ (2 : BitVec 2) ≠ 3 ∧ (0 : BitVec 2) ≠ 3 ∧ (1 : BitVec 2) ≠ 3 := by
  have := built_facts; simp_all

theorem witness_PqRdReadsThePosition : built.err = .none ∧ (0 : Idx).toNat < built.pq.length ∧
    built.pq.length ≤ (1 : Idx).toNat := by
  have := built_facts; simp_all

theorem witness_FinishedBuildShape :
    HeaderInv golden ∧ golden.err = .none ∧ golden.headerClosed = true ∧ exec .build golden = .next built ∧
    1 ≤ (symbols.filter fun b => golden.freqAt b ≠ 0).length ∧
    HeaderInv State.reset ∧ exec .build State.reset = .next emptyBuilt ∧
    (symbols.filter fun b => State.reset.freqAt b ≠ 0).length = 0 := by
  refine ⟨header_golden, rfl, rfl, exec_built, ?_, header_reset, exec_emptyBuilt, by decide +kernel⟩
  have := queued_facts; omega

theorem witness_EveryLeafIsReachedOnce :
    TreeInv built ∧ built.tree = .built ∧ (4 : Idx).toNat < built.leafCount.toNat := by
  have := built_facts; refine ⟨inv_built.tree, ?_⟩; simp_all

/-- The golden table with another record at an index that holds no defined value, and with another output. -/
def goldenUndefined : State := { golden with node := golden.node.set 510 ⟨.internal, 1, 2, 3, 4⟩ }
def goldenOther : State := { goldenUndefined with out := [7] }

theorem witness_BuildIsDeterministic :
    HeaderInv golden ∧ golden.freq = goldenOther.freq ∧ golden.freqWidth = goldenOther.freqWidth ∧ golden.err = .none ∧
    goldenOther.err = .none ∧ golden.headerClosed = true ∧ goldenOther.headerClosed = true ∧
    exec .build golden = .next built ∧ exec .build goldenOther = .next (stateOf (exec .build goldenOther) goldenOther) :=
  ⟨header_golden, rfl, rfl, rfl, rfl, rfl, rfl, exec_built, eq_stateOf (by decide +kernel) _⟩

theorem witness_GenCodesRecordsRootPaths :
    TreeInv State.reset ∧ State.reset.err = .none ∧ State.reset.tree = .none ∧
    TreeInv emptyBuilt ∧ emptyBuilt.err = .none ∧ emptyBuilt.tree = .empty ∧
    TreeInv built ∧ built.err = .none ∧ built.tree = .built ∧ built.follow [false, true] built.rootIdx = some 2 ∧
    (built.nodeAt 2).kind = .leaf := by
  have := built_facts; have := empty_facts
  refine ⟨tree_reset, rfl, rfl, inv_emptyBuilt.tree, ?_, ?_, inv_built.tree, ?_⟩ <;> simp_all

theorem witness_CodeLengthsAreBounded :
    Inv coded ∧ coded.codesValid = true ∧ (coded.codeAt 99).valid = true ∧ 2 ≤ coded.leafCount.toNat ∧
    Inv oneCoded ∧ oneCoded.codesValid = true ∧ (oneCoded.codeAt 97).valid = true ∧ oneCoded.leafCount.toNat = 1 := by
  have := coded_facts; have := one_facts
  refine ⟨inv_coded, ?_, ?_, ?_, inv_oneCoded, ?_⟩ <;> simp_all

theorem witness_CodeInfoReadsPresenceAndLength :
    coded.err = .none ∧ coded.codesValid = true ∧ State.reset.err = .none ∧ State.reset.codesValid = false := by
  have := coded_facts; refine ⟨?_, ?_, rfl, rfl⟩ <;> simp_all

theorem witness_CodeRdReadsAChunk :
    coded.err = .none ∧ coded.codesValid = true ∧ 32 * (0 : BitVec 3).toNat + 2 < (coded.codeAt 99).len.toNat ∧
    ¬ 32 * (0 : BitVec 3).toNat + 3 < (coded.codeAt 99).len.toNat ∧ State.reset.codesValid = false := by
  have := coded_facts; refine ⟨?_, ?_, ?_, ?_, rfl⟩ <;> simp_all

theorem witness_CodesArePrefixFree :
    Inv coded ∧ coded.codesValid = true ∧ (coded.codeAt 98).valid = true ∧ (coded.codeAt 99).valid = true ∧
    (98 : Byte) ≠ 99 := by
  have := coded_facts; refine ⟨inv_coded, ?_⟩; simp_all

theorem witness_CodesMeetKraftEquality : Inv coded ∧ coded.codesValid = true ∧ 2 ≤ coded.leafCount.toNat := by
  have := coded_facts; refine ⟨inv_coded, ?_⟩; simp_all

theorem witness_HdrEncAppendsTheHeader :
    golden.err = .none ∧ golden.headerClosed = true ∧ (parsed [0x39]).err = .none ∧
    (parsed [0x39]).headerClosed = false := ⟨rfl, rfl, by decide +kernel, by decide +kernel⟩

theorem witness_DecimalFormIsCanonical : 0 < 2 ^ 32 ∧ 4294967295 < 2 ^ 32 ∧ 4294967295 ≠ 0 ∧ 255 < 256 := by decide

theorem witness_HdrCharFirstByte :
    (parsed [0x0A]).err = .none ∧ (parsed [0x0A]).hp = .done ∧ built.err = .none ∧ built.tree ≠ .none ∧
    State.reset.err = .none ∧ State.reset.tree = .none ∧ State.reset.hp = .idle ∧
    isDigit 0x30 = true ∧ isDigit 0x39 = true ∧ isDigit 0x2F = false ∧ isDigit 0x3A = false := by
  have := built_facts
  refine ⟨by decide +kernel, by decide +kernel, ?_, ?_, rfl, rfl, rfl, rfl, rfl, rfl, rfl⟩ <;> simp_all

/-- "25" and then '5' or '6': the last symbol and the first that is none. -/
theorem witness_HdrCharInSymbol :
    HeaderInv (parsed [0x32, 0x35]) ∧ (parsed [0x32, 0x35]).err = .none ∧ (parsed [0x32, 0x35]).tree = .none ∧
    (parsed [0x32, 0x35]).hp = .sym ∧ (parsed [0x32, 0x35]).hacc.toNat * 10 + ((0x35 : Byte).toNat - 0x30) ≤ 255 ∧
    255 < (parsed [0x32, 0x35]).hacc.toNat * 10 + ((0x36 : Byte).toNat - 0x30) ∧ isDigit 0x36 = true ∧
    isDigit 0x0A = false :=
  ⟨by constructor <;> decide +kernel, by decide +kernel, by decide +kernel, by decide +kernel, by decide +kernel,
    by decide +kernel, rfl, rfl⟩

theorem witness_HdrCharAfterSeparator :
    (parsed [0x37, 0x20]).err = .none ∧ (parsed [0x37, 0x20]).tree = .none ∧ (parsed [0x37, 0x20]).hp = .sepF ∧
    (0x39 : Byte).toNat - 0x30 ≤ (parsed [0x37, 0x20]).freqMax ∧ (atSepF 3).err = .none ∧ (atSepF 3).tree = .none ∧
    (atSepF 3).hp = .sepF ∧ (0x37 : Byte).toNat - 0x30 ≤ (atSepF 3).freqMax ∧
    (atSepF 3).freqMax < (0x38 : Byte).toNat - 0x30 ∧ isDigit 0x37 = true ∧ isDigit 0x38 = true ∧
    (parsed [0x37, 0x20, 0x31, 0x20]).err = .none ∧ (parsed [0x37, 0x20, 0x31, 0x20]).tree = .none ∧
    (parsed [0x37, 0x20, 0x31, 0x20]).hp = .sepS ∧ isDigit 0x39 = true ∧ isDigit 0x20 = false := by decide +kernel

/-- "7 429496729" and then '5' or '6': FREQ_MAX and the first value past it; "7 0" and "7 1" at the end of a pair. -/
def atFreqMax : State := { parsed [0x37, 0x20, 0x31] with hacc := 429496729 }

theorem witness_HdrCharInFrequency :
    atFreqMax.err = .none ∧ atFreqMax.tree = .none ∧ atFreqMax.hp = .freq ∧
    atFreqMax.hacc.toNat * 10 + ((0x35 : Byte).toNat - 0x30) ≤ atFreqMax.freqMax ∧
    atFreqMax.freqMax < atFreqMax.hacc.toNat * 10 + ((0x36 : Byte).toNat - 0x30) ∧
    atFreqMax.hacc ≠ 0 ∧ atFreqMax.freqAt atFreqMax.hsym = 0 ∧
    (parsed [0x37, 0x20, 0x30]).hp = .freq ∧ (parsed [0x37, 0x20, 0x30]).hacc = 0 ∧
    (parsed [0x37, 0x20, 0x31, 0x20, 0x37, 0x20, 0x32]).freqAt 7 ≠ 0 ∧
    (parsed [0x37, 0x20, 0x31, 0x20, 0x37, 0x20, 0x32]).hsym = 7 ∧ isDigit 0x0D = false := by decide +kernel

theorem witness_HeaderRoundTrip :
    HeaderInv golden ∧ golden.err = .none ∧ golden.headerClosed = true ∧
    exec .hdrEnc golden = .next (golden.emit (headerText golden.freq)) := ⟨header_golden, rfl, rfl, rfl⟩

theorem witness_EncByteAppendsTheCode :
    coded.err = .none ∧ coded.codesValid = true ∧ (coded.codeAt 99).valid = true ∧ (coded.codeAt 101).valid = false ∧
    State.reset.err = .none ∧ State.reset.codesValid = false := by
  have := coded_facts; refine ⟨?_, ?_, ?_, ?_, rfl, rfl⟩ <;> simp_all

theorem witness_DecCharDescends :
    TreeInv State.reset ∧ State.reset.err = .none ∧ State.reset.tree = .none ∧ TreeInv emptyBuilt ∧
    emptyBuilt.err = .none ∧ emptyBuilt.tree = .empty ∧ TreeInv oneBuilt ∧ oneBuilt.err = .none ∧
    oneBuilt.tree = .built ∧ (oneBuilt.nodeAt oneBuilt.rootIdx).kind = .leaf ∧ TreeInv built ∧ built.err = .none ∧
    built.tree = .built ∧ (built.nodeAt built.rootIdx).kind = .internal ∧
    (built.nodeAt (built.nodeAt built.decCur).right).kind = .internal ∧ (0x2F : Byte) ≠ 0x30 ∧ (0x32 : Byte) ≠ 0x31 := by
  have := built_facts; have := empty_facts; have := one_facts
  refine ⟨tree_reset, rfl, rfl, inv_emptyBuilt.tree, ?_, ?_, inv_oneBuilt.tree, ?_, ?_, ?_, inv_built.tree, ?_⟩ <;>
    simp_all

theorem witness_DecodingACodeEmitsItsSymbol :
    Inv coded ∧ coded.err = .none ∧ coded.codesValid = true ∧ 2 ≤ coded.leafCount.toNat ∧
    coded.decCur = coded.rootIdx ∧ (coded.codeAt 99).valid = true := by
  have := coded_facts; refine ⟨inv_coded, ?_⟩; simp_all

theorem witness_DecEndChecksTheBoundary :
    State.reset.err = .none ∧ State.reset.tree = .none ∧ emptyBuilt.err = .none ∧ emptyBuilt.tree = .empty ∧
    built.err = .none ∧ built.tree = .built ∧ built.decCur = built.rootIdx ∧
    ({ built with decCur := 7 } : State).decCur ≠ built.rootIdx := by
  have := built_facts; have := empty_facts
  refine ⟨rfl, rfl, ?_⟩; simp_all

theorem witness_DecSingleRepeatsTheSymbol :
    TreeInv built ∧ built.err = .none ∧ built.tree = .built ∧ (built.nodeAt built.rootIdx).kind = .internal ∧
    TreeInv emptyBuilt ∧ emptyBuilt.err = .none ∧ emptyBuilt.tree = .empty ∧ TreeInv oneBuilt ∧ oneBuilt.err = .none ∧
    oneBuilt.tree = .built ∧ (oneBuilt.nodeAt oneBuilt.rootIdx).kind = .leaf := by
  have := built_facts; have := empty_facts; have := one_facts
  refine ⟨inv_built.tree, ?_, ?_, ?_, inv_emptyBuilt.tree, ?_, ?_, inv_oneBuilt.tree, ?_⟩ <;> simp_all

/-- Fifteen of one byte reach the bound of a FREQ_WIDTH of 4, and the empty text meets every bound. -/
theorem witness_EncodeThenDecodeGivesTheTextBack :
    (∀ b : Byte, (List.replicate 15 (7 : Byte)).count b ≤ (narrow 0).freqMax) ∧
    ∀ b : Byte, ([] : List Byte).count b ≤ State.reset.freqMax := by decide +kernel

theorem witness_WhoWritesFreqAndDataOut :
    Instr.freqRd 255 ≠ .clear ∧ exec (.freqRd 255) (withTable [(255, 3)]) = .next (after (withTable [(255, 3)]) [.freqRd 255]) ∧
    (after (withTable [(255, 3)]) [.freqRd 255]).dataOut ≠ (withTable [(255, 3)]).dataOut ∧
    exec (.count 255) State.reset = .next (after State.reset [.count 255]) ∧
    (after State.reset [.count 255]).freqAt 255 ≠ State.reset.freqAt 255 ∧
    (let s := given State.reset (.write offCmd 4 0x080000FF)
     step s = .next (stateOf (step s) s) ∧ (stateOf (step s) s).freqAt 255 ≠ s.freqAt 255) :=
  ⟨by decide, rfl, by decide +kernel, rfl, by decide +kernel, eq_stateOf (by decide +kernel) _, by decide +kernel⟩

/-- A queue that no run leaves: the one kind of state in which a command other than FREQ_WR can answer a fault. -/
theorem witness_DataInIsReadOnlyByFreqWr :
    (∀ b, Instr.count 7 ≠ .freqWr b) ∧ exec (.count 7) State.reset = .next (State.reset.setFreq 7 (State.reset.freqAt 7 + 1)) ∧
    exec .mergeStep { State.reset with tree := .building } = .fault .queueUnderflow :=
  ⟨by simp, rfl, rfl⟩

theorem witness_UndefinedRecordsAreNotObservable :
    TreeInv golden ∧ SameDefined golden goldenUndefined ∧ goldenUndefined ≠ golden ∧ step golden = .next golden := by
  refine ⟨tree_golden, ⟨rfl, ?_⟩, ?_, rfl⟩
  · intro i h; simp [golden, withTable, State.setFreq, State.reset] at h
  · intro h
    have : (goldenUndefined.nodeAt 510).symbol = (golden.nodeAt 510).symbol := by rw [h]
    revert this; decide +kernel

theorem witness_OutputOnlyGrows :
    (given State.reset .idle).inReset = false ∧ (∀ rest, (given State.reset .idle).host ≠ .reset :: rest) ∧
    (∀ rest, (given State.reset .idle).host ≠ .assertReset :: rest) ∧
    step (given State.reset .idle) = .next State.reset := ⟨rfl, by simp [given], by simp [given], rfl⟩

theorem witness_BusyStaysLowAndConfigIsHardwired :
    (given State.reset .idle).busy = false ∧ step (given State.reset .idle) = .next State.reset := ⟨rfl, rfl⟩

theorem witness_StepKeepsHeaderInv : HeaderInv golden ∧ step golden = .next golden := ⟨header_golden, rfl⟩

theorem witness_StepKeepsTreeInv : TreeInv built ∧ step built = .next (stateOf (step built) built) :=
  ⟨inv_built.tree, eq_stateOf (by decide +kernel) _⟩

theorem witness_StepKeepsCodeInv : CodeInv coded ∧ step coded = .next (stateOf (step coded) coded) :=
  ⟨inv_coded.codes, eq_stateOf (by decide +kernel) _⟩

theorem witness_InvariantStatesNeverFault : Inv built ∧ Inv coded ∧ Inv oneCoded ∧ Inv emptyBuilt :=
  ⟨inv_built, inv_coded, inv_oneCoded, inv_emptyBuilt⟩

end Sys2Proof.Tests
end

section
/-! What an effect changes, sorted by the part of the block it changes, and from that: every step keeps the header, the tree
and the code invariant, and no step from a state that meets them is a fault. -/

namespace Sys2Proof.Machine

/-! ### The changes a command can make -/

/-- The changes an effect can make, by the part of the block they are made in: the ten commands that only show something share
the first one. -/
inductive Change (s : State) : State → Prop where
  | shows (bs : List Byte) (v : Word) : Change s { s with out := s.out ++ bs, dataOut := v }
  | clear : Change s s.cleared
  | entry (b : Byte) (v : Word) : s.tree = .none → ((s.freqAt b).toNat ≤ s.freqMax → v.toNat ≤ s.freqMax) →
      Change s (s.setFreq b v)
  | header (b : Byte) (t : State) : s.tree = .none → HdrEffect b s t → Change s t
  | buildInit : s.headerClosed = true → Change s s.buildInit
  | merge (a b : Idx) (rest : List Idx) : s.tree = .building → s.pq = a :: b :: rest →
      (s.nodeAt a).weight.toNat + (s.nodeAt b).weight.toNat < 2 ^ s.weightWidth → Change s (s.merged a b rest)
  | build (t : State) : s.headerClosed = true → mergeLoop 255 s.buildInit = .next t → Change s t
  | codes (c : Vector CodeEntry Config.nsym) : s.buildFinished = true → s.generatedCodes = .ok c →
      Change s { s with codes := c, codesValid := true }
  | cursor (bs : List Byte) (d : Idx) : s.tree = .built →
      (d = s.rootIdx ∨ d.toNat < s.nodeCount.toNat ∧ (s.nodeAt d).kind = .internal) →
      Change s { s with out := s.out ++ bs, decCur := d }

theorem Change.same (s : State) : Change s s := by
  have := Change.shows (s := s) [] s.dataOut
  rwa [List.append_nil] at this

theorem Change.dataOut (s : State) (v : Word) : Change s (s.setDataOut v) := by
  have := Change.shows (s := s) [] v
  rwa [List.append_nil] at this

theorem Change.emit (s : State) (bs : List Byte) : Change s (s.emit bs) := .shows bs s.dataOut

/-- A count below FREQ_MAX has room for one more (R110). -/
theorem freqAt_succ_le {s : State} {b : Byte} (hne : (s.freqAt b).toNat ≠ s.freqMax) (h : (s.freqAt b).toNat ≤ s.freqMax) :
    (s.freqAt b + 1).toNat ≤ s.freqMax := by
  have := freqMax_lt s
  rw [BitVec.toNat_add, show (1 : Word).toNat = 1 from rfl, Nat.mod_eq_of_lt (by omega)]
  omega

/-- The change each command's effect is. -/
theorem Effect.change {i : Instr} {s t : State} (h : Effect i s t) : Change s t := by
  cases i with
  | nop => cases h; exact .same s
  | clear => cases h; exact .clear
  | count b => obtain ⟨ht, _, hne, rfl⟩ := h; exact .entry _ _ ht (freqAt_succ_le hne)
  | freqWr b => obtain ⟨ht, _, _, rfl⟩ := h; exact .entry _ _ ht fun _ => freqBits_le s _
  | freqRd b => cases h; exact .dataOut s _
  | buildInit => obtain ⟨hc, rfl⟩ := h; exact .buildInit hc
  | mergeStep =>
    obtain ⟨hb, h⟩ := h
    obtain ⟨a, b, rest, hq, _, _, hw, rfl⟩ := mergeOnce_eq_next.1 h
    exact .merge a b rest hb hq hw
  | build => exact .build t h.1 h.2
  | nodeRd idx sel => obtain ⟨_, _, rfl⟩ := h; exact .dataOut s _
  | pqRd pos => obtain ⟨_, _, rfl⟩ := h; exact .dataOut s _
  | genCodes => obtain ⟨hf, c, hc, rfl⟩ := h; exact .codes c hf hc
  | codeInfo b => obtain ⟨_, rfl⟩ := h; exact .dataOut s _
  | codeRd b c => rw [show t = _ from h.2]; exact .dataOut s _
  | hdrEnc => obtain ⟨_, rfl⟩ := h; exact .emit s _
  | hdrChar b => exact .header b t h.1 h.2
  | encByte b => obtain ⟨_, _, rfl⟩ := h; exact .emit s _
  | decChar b =>
    obtain ⟨ht, _, _, _, nxt, _, hn, ⟨_, rfl⟩ | ⟨hk, rfl⟩⟩ := h
    · exact .cursor _ s.rootIdx ht (.inl rfl)
    · have := Change.cursor [] nxt ht (.inr ⟨hn, hk⟩)
      rwa [List.append_nil] at this
  | decEnd => obtain ⟨_, _, rfl⟩ := h; exact .same _
  | decSingle =>
    obtain ⟨_, rfl⟩ | ⟨_, _, _, rfl⟩ := h
    · exact .same _
    · exact .emit s _

/-! ### The header invariant -/

/-- The header invariant speaks of FREQ, HACC, HP and FREQ_WIDTH only, and of whether a build has started. -/
theorem headerInv_same {s t : State} (h : HeaderInv s) (hf : t.freq = s.freq) (hacc : t.hacc = s.hacc) (hp : t.hp = s.hp)
    (hw : t.freqWidth = s.freqWidth) (ht : t.tree ≠ .none → s.tree ≠ .none ∨ s.headerClosed = true) : HeaderInv t := by
  have hmax : t.freqMax = s.freqMax := by rw [State.freqMax, hw, State.freqMax]
  have hat : ∀ b, t.freqAt b = s.freqAt b := fun b => by rw [State.freqAt, hf, State.freqAt]
  constructor
  · intro b; rw [hat, hmax]; exact h.freq_le b
  · rw [hacc, hmax]; exact h.hacc_le
  · rw [hp, hacc]; exact h.sym_le
  · rw [hp, hacc, hmax]; exact h.token_le
  · intro hne
    rw [State.headerClosed, hp]
    exact (ht hne).elim h.closed id

/-- With no build started, the header invariant is what it says of FREQ and of HACC. -/
theorem headerInv_unbuilt {s : State} (ht : s.tree = .none) (hf : ∀ b, (s.freqAt b).toNat ≤ s.freqMax)
    (hacc : s.hacc.toNat ≤ max s.freqMax 255) (hsym : s.hp = .sym → s.hacc.toNat ≤ 255)
    (htok : s.hp = .freq → s.hacc.toNat ≤ s.freqMax) : HeaderInv s :=
  ⟨hf, hacc, hsym, htok, fun hne => absurd ht hne⟩

/-- Writing an entry that fits keeps FREQ within its bound. -/
theorem setFreq_le {s : State} (h : ∀ c, (s.freqAt c).toNat ≤ s.freqMax) (b : Byte) {v : Word} (hv : v.toNat ≤ s.freqMax)
    (c : Byte) : ((s.setFreq b v).freqAt c).toNat ≤ s.freqMax := by
  rw [freqAt_setFreq]
  split
  · exact hv
  · exact h c

theorem toNat_ofNat_word_le {n m : Nat} (h : n ≤ m) : (BitVec.ofNat 32 n).toNat ≤ m := by
  rw [BitVec.toNat_ofNat]; exact (Nat.mod_le _ _).trans h

theorem tableAt_zeroTable_le (m : Nat) (b : Byte) : (tableAt zeroTable b).toNat ≤ m := by simp

/-- The effect of HDR_CHAR keeps the header invariant: a symbol token stays within 255, a frequency token within FREQ_MAX, and
the commit writes what FREQ can hold (R174, R176, R177). -/
theorem HdrEffect.headerInv {b : Byte} {s t : State} (ht : s.tree = .none) (h : HeaderInv s) (he : HdrEffect b s t) :
    HeaderInv t := by
  have hdigit : isDigit b = true → (BitVec.ofNat 32 (digitValue b)).toNat ≤ 255 := fun hd =>
    toNat_ofNat_word_le ((digit_lt hd).trans (by decide))
  cases he with
  | start hp hd =>
    exact headerInv_unbuilt ht (tableAt_zeroTable_le _) ((hdigit hd).trans (Nat.le_max_right _ _)) (fun _ => hdigit hd) nofun
  | empty hp hb => exact headerInv_unbuilt ht (tableAt_zeroTable_le _) (Nat.zero_le _) nofun nofun
  | symDigit hp hd hle =>
    have hsym := toNat_ofNat_word_le hle
    exact headerInv_unbuilt ht h.freq_le (hsym.trans (Nat.le_max_right _ _)) (fun _ => hsym)
      (fun hp' => by rw [hp] at hp'; cases hp')
  | symEnd hp hb => exact headerInv_unbuilt ht h.freq_le (Nat.zero_le _) nofun nofun
  | freqStart hp hd hle =>
    have htok := toNat_ofNat_word_le hle
    exact headerInv_unbuilt ht h.freq_le (htok.trans (Nat.le_max_left _ _)) nofun (fun _ => htok)
  | freqDigit hp hd hle =>
    have htok := toNat_ofNat_word_le hle
    exact headerInv_unbuilt ht h.freq_le (htok.trans (Nat.le_max_left _ _)) (fun hp' => by rw [hp] at hp'; cases hp')
      (fun _ => htok)
  | commit after hp hb hne hfree =>
    exact headerInv_unbuilt ht (setFreq_le h.freq_le _ (freqBits_le _ _)) (Nat.zero_le _) (fun _ => Nat.zero_le _)
      (fun _ => Nat.zero_le _)
  | symStart hp hd =>
    exact headerInv_unbuilt ht h.freq_le ((hdigit hd).trans (Nat.le_max_right _ _)) (fun _ => hdigit hd) nofun

/-- Every change keeps the header invariant. -/
theorem Change.headerInv {s t : State} (hc : Change s t) (h : HeaderInv s) : HeaderInv t := by
  cases hc with
  | shows bs v => exact headerInv_same h rfl rfl rfl rfl .inl
  | clear => exact headerInv_unbuilt rfl (tableAt_zeroTable_le _) (Nat.zero_le _) nofun nofun
  | entry b v ht hv => exact headerInv_unbuilt ht (setFreq_le h.freq_le b (hv (h.freq_le b))) h.hacc_le h.sym_le h.token_le
  | header b _ ht he => exact he.headerInv ht h
  | buildInit hc => exact headerInv_same h rfl rfl rfl rfl fun _ => .inr hc
  | merge a b rest hb => exact headerInv_same h (by simp) (by simp) (by simp) (by simp) fun _ => .inl (by simp [hb])
  | build _ hc hm =>
    obtain ⟨hf, hp, hacc, hw⟩ := mergeLoop_build_frame hm
    exact headerInv_same h hf hacc hp hw fun _ => .inr hc
  | codes c => exact headerInv_same h rfl rfl rfl rfl .inl
  | cursor bs d => exact headerInv_same h rfl rfl rfl rfl .inl

theorem resetBlock_headerInv (s : State) : HeaderInv s.resetBlock :=
  headerInv_unbuilt rfl (tableAt_zeroTable_le _) (Nat.zero_le _) nofun nofun

/-- Settles O56: reset and every change an effect can make keep the bounds, and nothing else in a step touches them. -/
theorem stepKeepsHeaderInv : Obligations.StepKeepsHeaderInv := fun _ _ =>
  step_keeps (fun _ _ _ _ _ _ _ _ h => headerInv_same h rfl rfl rfl rfl .inl) (fun s _ => resetBlock_headerInv s)
    fun _ _ _ h he => he.change.headerInv h

/-! ### The tree invariant -/

/-- HDR_CHAR writes FREQ and the parser only, and before a build FREQ has no part in the tree invariant. -/
theorem HdrEffect.treeInv {b : Byte} {s t : State} (ht : s.tree = .none) (h : TreeInv s) (he : HdrEffect b s t) :
    TreeInv t := by
  cases he <;> exact treeInv_same h (.inr ht) rfl rfl rfl rfl rfl rfl (.inl rfl)

/-- Every change keeps the tree invariant. -/
theorem Change.treeInv {s t : State} (hc : Change s t) (h : TreeInv s) : TreeInv t := by
  cases hc with
  | shows bs v => exact treeInv_same h (.inl rfl) rfl rfl rfl rfl rfl rfl (.inl rfl)
  | clear => exact treeInv_none rfl rfl rfl rfl rfl rfl
  | entry b v ht hv => exact treeInv_same h (.inr ht) rfl rfl rfl rfl rfl rfl (.inl rfl)
  | header b _ ht he => exact he.treeInv ht h
  | buildInit hc => exact buildInit_treeInv s
  | merge a b rest hb hq hw => exact merged_treeInv h hb hq hw
  | build _ hc hm => exact mergeLoop_treeInv (buildInit_treeInv s) hm
  | codes c => exact treeInv_same h (.inl rfl) rfl rfl rfl rfl rfl rfl (.inl rfl)
  | cursor bs d hb hd => exact treeInv_same h (.inl rfl) rfl rfl rfl rfl rfl rfl (.inr ⟨hb, hd⟩)

/-- Settles O57: a command either leaves the tree alone, empties it, builds it anew, merges once or moves the cursor. -/
theorem stepKeepsTreeInv : Obligations.StepKeepsTreeInv := fun _ _ =>
  step_keeps (fun _ _ _ _ _ _ _ _ h => treeInv_same h (.inl rfl) rfl rfl rfl rfl rfl rfl (.inl rfl))
    (fun _ _ => treeInv_none rfl rfl rfl rfl rfl rfl) fun _ _ _ h he => he.change.treeInv h

/-! ### The code invariant -/

/-- A state whose code table is blank and marked invalid meets the code invariant. -/
theorem codeInv_blank {s : State} (hv : s.codesValid = false) (hc : s.codes = blankCodes) : CodeInv s :=
  ⟨fun _ => hc, fun h => by rw [hv] at h; cases h⟩

/-- Codes are valid only once a build has finished. -/
theorem CodeInv.invalid_of_unfinished {s : State} (h : CodeInv s) (hb : s.buildFinished = false) : s.codesValid = false := by
  cases hv : s.codesValid with
  | false => rfl
  | true => rw [(h.valid hv).1] at hb; cases hb

theorem buildFinished_of_none {s : State} (h : s.tree = .none) : s.buildFinished = false := by simp [State.buildFinished, h]
theorem buildFinished_of_building {s : State} (h : s.tree = .building) : s.buildFinished = false := by
  simp [State.buildFinished, h]

/-- The code invariant speaks of the code table and of what the tree's codes are made of. -/
theorem codeInv_same {s t : State} (h : CodeInv s) (hc : t.codes = s.codes) (hv : t.codesValid = s.codesValid)
    (ht : t.tree = s.tree) (hr : t.rootIdx = s.rootIdx) (hn : ∀ i, t.node? i = s.node? i) : CodeInv t := by
  have hf : t.buildFinished = s.buildFinished := by rw [State.buildFinished, ht, State.buildFinished]
  constructor
  · rw [hv, hc]; exact h.invalid
  · rw [hv, hf, hc, generatedCodes_congr hn ht hr]; exact h.valid

/-- While no build has finished, what leaves the code table alone keeps the code invariant. -/
theorem codeInv_unfinished {s t : State} (h : CodeInv s) (hb : s.buildFinished = false) (hc : t.codes = s.codes)
    (hv : t.codesValid = s.codesValid) : CodeInv t := by
  have hs := h.invalid_of_unfinished hb
  exact codeInv_blank (hv.trans hs) (hc.trans (h.invalid hs))

theorem HdrEffect.codeInv {b : Byte} {s t : State} (ht : s.tree = .none) (h : CodeInv s) (he : HdrEffect b s t) :
    CodeInv t := by
  cases he <;> exact codeInv_unfinished h (buildFinished_of_none ht) rfl rfl

/-- Every change keeps the code invariant. -/
theorem Change.codeInv {s t : State} (hc : Change s t) (h : CodeInv s) : CodeInv t := by
  cases hc with
  | shows bs v => exact codeInv_same h rfl rfl rfl rfl fun _ => rfl
  | clear => exact codeInv_blank rfl rfl
  | entry b v ht hv => exact codeInv_same h rfl rfl rfl rfl fun _ => rfl
  | header b _ ht he => exact he.codeInv ht h
  | buildInit hc => exact codeInv_blank rfl rfl
  | merge a b rest hb => exact codeInv_unfinished h (buildFinished_of_building hb) (by simp) (by simp)
  | build _ hc hm => rw [mergeLoop_frame hm]; exact codeInv_blank rfl rfl
  | codes c hf hg =>
    refine ⟨nofun, fun _ => ⟨hf, ?_⟩⟩
    rw [← hg]; exact generatedCodes_congr (fun _ => rfl) rfl rfl
  | cursor bs d => exact codeInv_same h rfl rfl rfl rfl fun _ => rfl

/-- Settles O58: a build or a header byte finds or leaves the codes blank, and GEN_CODES writes the tree's own. -/
theorem stepKeepsCodeInv : Obligations.StepKeepsCodeInv := fun _ _ =>
  step_keeps (fun _ _ _ _ _ _ _ _ h => codeInv_same h rfl rfl rfl rfl fun _ => rfl)
    (fun _ _ => codeInv_blank rfl rfl) fun _ _ _ h he => he.change.codeInv h

/-- Settles O59: with nothing counted, queued, parsed or coded, each invariant is what reset sets (R50). -/
theorem resetMeetsTheInvariant : Obligations.ResetMeetsTheInvariant := by
  intro w v
  constructor
  · exact headerInv_unbuilt rfl (tableAt_zeroTable_le _) (Nat.zero_le _) nofun nofun
  · exact treeInv_none rfl rfl rfl rfl rfl rfl
  · exact codeInv_blank rfl rfl
  · rfl

end Sys2Proof.Machine
end

section
/-! A state that meets the invariant of the block gives no step that is a fault. -/

namespace Sys2Proof.Machine

/-- An answer that is no fault. -/
def NoFault (r : Result) : Prop := ∀ e, r ≠ .fault e

theorem NoFault.next {s : State} : NoFault (.next s) := fun _ => nofun

theorem NoFault.raise {c : ErrCode} {s : State} : NoFault (raise c s) := fun _ => raise_ne_fault

theorem NoFault.ite {p : Prop} [Decidable p] {r q : Result} (hr : NoFault r) (hq : NoFault q) :
    NoFault (if p then r else q) := by
  split
  · exact hr
  · exact hq

/-! ### The header parser -/

theorem hdrCommit_noFault (after : HdrState) (s : State) : NoFault (hdrCommit after s) := .ite .raise (.ite .raise .next)

theorem execHdrChar_noFault (b : Byte) (s : State) : NoFault (execHdrChar b s) := by
  refine .ite .raise ?_
  cases s.hp with
  | idle => exact .ite .next (.ite .next .raise)
  | sym => exact .ite (.ite .raise .next) (.ite .next .raise)
  | sepF => exact .ite (.ite .raise .next) .raise
  | freq => exact .ite (.ite .raise .next) (.ite (hdrCommit_noFault _ _) (.ite (hdrCommit_noFault _ _) .raise))
  | sepS => exact .ite .next .raise
  | done => exact .raise

/-! ### The builder -/

theorem mergeStep_noFault {s : State} (h : TreeInv s) (hf : ∀ b, (s.freqAt b).toNat ≤ s.freqMax) :
    NoFault (execMergeStep s) := by
  unfold execMergeStep
  split
  · exact .raise
  · rename_i hb
    obtain ⟨a, b, rest, _, _, hm⟩ := h.mergeOnce hf (not_not.1 hb)
    rw [hm]; exact .next

theorem build_noFault {s : State} (hf : ∀ b, (s.freqAt b).toNat ≤ s.freqMax) : NoFault (execBuild s) := by
  obtain ⟨t, hm, _⟩ := build_finishes hf
  refine .ite .raise ?_
  rw [hm]; exact .next

theorem genCodes_noFault {s : State} (h : TreeInv s) : NoFault (execGenCodes s) := by
  obtain ⟨c, hc⟩ := h.generatedCodes_ok
  refine .ite .raise ?_
  rw [hc]; exact .next

/-! ### The decoder -/

/-- With an internal root the decoder stands at an internal record (R192). -/
theorem TreeInv.cursor_internal {s : State} (h : TreeInv s) (hb : s.tree = .built)
    (hk : (s.nodeAt s.rootIdx).kind = .internal) :
    s.decCur.toNat < s.nodeCount.toNat ∧ (s.nodeAt s.decCur).kind = .internal := by
  rcases h.cursor hb with hd | hd
  · rw [hd]; exact ⟨(h.built_counts hb).2.2, hk⟩
  · exact hd

theorem childFor_eq_some {n : NodeRec} {b : Byte} {i : Idx} (h : childFor n b = some i) : i = n.left ∨ i = n.right := by
  unfold childFor at h
  split at h
  · cases h; exact .inl rfl
  · split at h
    · cases h; exact .inr rfl
    · cases h

theorem decMove_noFault {s : State} {i : Idx} (hi : i.toNat < s.nodeCount.toNat) : NoFault (decMove i s) := by
  unfold decMove
  rw [node?_of_lt hi]; dsimp only
  cases (s.nodeAt i).kind <;> exact .next

/-- From an internal record each payload character leads to an earlier record, so to a defined one (R24 (b)). -/
theorem decDescend_noFault {s : State} (h : TreeInv s) (hb : s.tree = .built) (b : Byte)
    (hc : s.decCur.toNat < s.nodeCount.toNat) (hk : (s.nodeAt s.decCur).kind = .internal) : NoFault (decDescend b s) := by
  have hm := h.isMerge (by rw [hb]; nofun) hc hk
  unfold decDescend
  rw [node?_of_lt hc]; dsimp only
  cases hn : childFor (s.nodeAt s.decCur) b with
  | none => exact .raise
  | some i =>
    apply decMove_noFault
    rcases childFor_eq_some hn with rfl | rfl
    · exact hm.left_lt.trans hc
    · exact hm.right_lt.trans hc

theorem decChar_noFault {s : State} (h : TreeInv s) (b : Byte) : NoFault (execDecChar b s) := by
  unfold execDecChar
  cases hb : s.tree with
  | none => exact .raise
  | building => exact .raise
  | empty => exact .raise
  | built =>
    dsimp only
    rw [node?_of_lt (h.built_counts hb).2.2]; dsimp only
    cases hk : (s.nodeAt s.rootIdx).kind with
    | leaf => exact .raise
    | internal =>
      obtain ⟨hc, hck⟩ := h.cursor_internal hb hk
      exact decDescend_noFault h hb b hc hck

theorem decSingle_noFault {s : State} (h : TreeInv s) : NoFault (execDecSingle s) := by
  unfold execDecSingle
  cases hb : s.tree with
  | none => exact .raise
  | building => exact .raise
  | empty => exact .next
  | built =>
    dsimp only
    rw [node?_of_lt (h.built_counts hb).2.2]; dsimp only
    cases (s.nodeAt s.rootIdx).kind with
    | leaf => exact .next
    | internal => exact .raise

/-! ### Every command -/

theorem exec_noFault {s : State} (hf : ∀ b, (s.freqAt b).toNat ≤ s.freqMax) (h : TreeInv s) (i : Instr) :
    NoFault (exec i s) := by
  cases i with
  | nop => exact .next
  | clear => exact .next
  | count b => exact .ite .raise (.ite .raise .next)
  | freqWr b => exact .ite .raise (.ite .raise .next)
  | freqRd b => exact .next
  | buildInit => exact .ite .raise .next
  | mergeStep => exact mergeStep_noFault h hf
  | build => exact build_noFault hf
  | nodeRd idx sel => exact .ite .raise .next
  | pqRd pos =>
    simp only [exec, execPqRd]
    cases s.pq[pos.toNat]? with
    | none => exact .raise
    | some i => exact .next
  | genCodes => exact genCodes_noFault h
  | codeInfo b => exact .ite .raise .next
  | codeRd b c => exact .ite .raise .next
  | hdrEnc => exact .ite .raise .next
  | hdrChar b => exact execHdrChar_noFault b s
  | encByte b => exact .ite .raise (.ite .raise .next)
  | decChar b => exact decChar_noFault h b
  | decEnd => exact .ite .raise (.ite .raise .next)
  | decSingle => exact decSingle_noFault h

/-- Settles O60: only a command can fault, and none does where FREQ is within its bound and the tree is one a build leaves. -/
theorem invariantStatesNeverFault : Obligations.InvariantStatesNeverFault := by
  intro s h e hstep
  obtain ⟨_, i, rest, _, _, hx⟩ := step_fault hstep
  have htree : TreeInv { s with host := rest } := treeInv_same h.tree (.inl rfl) rfl rfl rfl rfl rfl rfl (.inl rfl)
  exact exec_noFault (s := { s with host := rest }) h.header.freq_le htree i e hx

end Sys2Proof.Machine
end

section
/-! Node records from NODE_COUNT up are not observable (R27): two states that differ only there take every step alike. -/

namespace Sys2Proof.Machine

/-- Two answers that are alike: next states that differ only in undefined records, or the same stop. -/
inductive Alike : Result → Result → Prop where
  | next {s t : State} : SameDefined s t → Alike (.next s) (.next t)
  | fault (e : Fault) : Alike (.fault e) (.fault e)
  | refused (e : Refusal) : Alike (.refused e) (.refused e)

theorem Alike.ite_of {p : Prop} [Decidable p] {r r' q q' : Result} (hr : p → Alike r r') (hq : ¬ p → Alike q q') :
    Alike (if p then r else q) (if p then r' else q') := by
  split
  · exact hr ‹_›
  · exact hq ‹_›

theorem Alike.ite {p : Prop} [Decidable p] {r r' q q' : Result} (hr : Alike r r') (hq : Alike q q') :
    Alike (if p then r else q) (if p then r' else q') := .ite_of (fun _ => hr) fun _ => hq

theorem Alike.andThen {r r' : Result} {k : State → Result} (h : Alike r r')
    (hk : ∀ s t, SameDefined s t → Alike (k s) (k t)) : Alike (andThen r k) (andThen r' k) := by
  cases h with
  | next h => exact hk _ _ h
  | fault e => exact .fault e
  | refused e => exact .refused e

theorem Alike.elim {r q : Result} (h : Alike r q) :
    (∀ s, r = .next s → ∃ t, q = .next t ∧ SameDefined s t) ∧ (∀ e, r = .fault e → q = .fault e) ∧
      ∀ e, r = .refused e → q = .refused e := by
  cases h with
  | @next s t h =>
    exact ⟨fun _ e => ⟨t, rfl, Host.Outcome.next.inj e ▸ h⟩, fun _ e => (by cases e), fun _ e => (by cases e)⟩
  | fault f => exact ⟨fun _ e => (by cases e), fun _ => id, fun _ e => (by cases e)⟩
  | refused f => exact ⟨fun _ e => (by cases e), fun _ e => (by cases e), fun _ => id⟩

/-! ### States that differ only in undefined records -/

theorem SameDefined.sameTree {s t : State} (h : SameDefined s t) : SameTree s t := by
  obtain ⟨hrest, hrecs⟩ := h
  constructor
  case recs => exact hrecs
  all_goals rw [hrest]

theorem SameDefined.ite {p : Prop} [Decidable p] {s s' t t' : State} (hs : SameDefined s s') (ht : SameDefined t t') :
    SameDefined (if p then s else t) (if p then s' else t') := by
  split
  · exact hs
  · exact ht

/-- States with one tree that agree in what no tree is made of differ only in undefined records. -/
theorem SameTree.sameDefined {s t : State} (h : SameTree s t)
    (hrest : t = { s with node := t.node, nodeCount := t.nodeCount, pq := t.pq, tree := t.tree, rootIdx := t.rootIdx,
                          decCur := t.decCur }) : SameDefined s t := by
  refine ⟨?_, h.recs⟩
  rw [h.nodeCount, h.pq, h.tree, h.rootIdx, h.decCur] at hrest
  exact hrest

/-- The state with another node store in the place of its own. -/
def State.withStore (s : State) (v : Vector NodeRec Config.nodeCap) : State := { s with node := v }

@[simp] theorem State.withStore_pq (s : State) (v : Vector NodeRec Config.nodeCap) : (s.withStore v).pq = s.pq := rfl
@[simp] theorem State.withStore_rootIdx (s : State) (v : Vector NodeRec Config.nodeCap) :
    (s.withStore v).rootIdx = s.rootIdx := rfl
@[simp] theorem State.withStore_tree (s : State) (v : Vector NodeRec Config.nodeCap) : (s.withStore v).tree = s.tree := rfl
@[simp] theorem State.withStore_hp (s : State) (v : Vector NodeRec Config.nodeCap) : (s.withStore v).hp = s.hp := rfl
@[simp] theorem State.withStore_decCur (s : State) (v : Vector NodeRec Config.nodeCap) :
    (s.withStore v).decCur = s.decCur := rfl

/-- With no record defined, any two node stores differ only in undefined records. -/
theorem sameDefined_of_no_record {s : State} {v : Vector NodeRec Config.nodeCap} (hn : s.nodeCount = 0) :
    SameDefined s (s.withStore v) :=
  ⟨rfl, fun i hi => by rw [hn] at hi; exact absurd hi (Nat.not_lt_zero _)⟩

/-! ### The builder -/

theorem buildInit_sameDefined {s t : State} (h : SameDefined s t) : SameDefined s.buildInit t.buildInit := by
  refine (buildInit_same h.sameTree.freq h.sameTree.width).sameDefined ?_
  rw [h.rest]; rfl

theorem merged_sameDefined {s t : State} (h : SameDefined s t) {a b : Idx} {rest : List Idx} (hq : s.pq = a :: b :: rest)
    (hd : ∀ e ∈ s.pq, e.toNat < s.nodeCount.toNat) (hn : s.nodeCount.toNat < 511) :
    SameDefined (s.merged a b rest) (t.merged a b rest) := by
  refine (merged_same h.sameTree hq hd hn).sameDefined ?_
  have hs := merged_frame s a b rest
  have ht := merged_frame t a b rest
  rw [hs, ht, h.rest]

theorem SameTree.weightWidth {s t : State} (h : SameTree s t) : t.weightWidth = s.weightWidth := by
  rw [State.weightWidth, h.width, State.weightWidth]

/-- The checks of a merge read only queued records, and those only once they are known to be defined. -/
theorem mergeOnce_alike {s t : State} (h : SameDefined s t) : Alike (mergeOnce s) (mergeOnce t) := by
  unfold mergeOnce
  rw [h.sameTree.pq, h.sameTree.nodeCount, h.sameTree.weightWidth]
  split
  · rename_i a b rest hq
    split
    · exact .fault _
    · rename_i hall
      have hd : ∀ e ∈ s.pq, e.toNat < s.nodeCount.toNat := by simpa [BitVec.lt_def] using hall
      rw [h.recs a (hd a (by simp [hq])), h.recs b (hd b (by simp [hq]))]
      split
      · exact .fault _
      · rename_i hn
        have hlt : s.nodeCount.toNat < 511 := Nat.lt_of_le_of_ne (Nat.le_of_lt_succ s.nodeCount.isLt) hn
        exact .ite (.fault _) (.next (merged_sameDefined h hq hd hlt))
  · exact .fault _

theorem mergeLoop_alike (n : Nat) {s t : State} (h : SameDefined s t) : Alike (mergeLoop n s) (mergeLoop n t) := by
  induction n generalizing s t with
  | zero => exact .next h
  | succ n ih =>
    unfold mergeLoop
    rw [h.sameTree.tree]
    exact .ite ((mergeOnce_alike h).andThen fun _ _ => ih) (.next h)

/-! ### The commands -/

section
variable {s : State} {v : Vector NodeRec Config.nodeCap} (h : SameDefined s (s.withStore v))
include h

theorem raise_alike (c : ErrCode) : Alike (raise c s) (raise c (s.withStore v)) := by
  simp only [raise_eq]
  exact .next ⟨rfl, h.recs⟩

theorem setDataOut_alike (w : Word) : Alike (.next (s.setDataOut w)) (.next ((s.withStore v).setDataOut w)) :=
  .next ⟨rfl, h.recs⟩

theorem emit_alike (bs : List Byte) : Alike (.next (s.emit bs)) (.next ((s.withStore v).emit bs)) := .next ⟨rfl, h.recs⟩

theorem execBuildInit_alike : Alike (execBuildInit s) (execBuildInit (s.withStore v)) :=
  .ite (raise_alike h _) (.next (buildInit_sameDefined h))

theorem execMergeStep_alike : Alike (execMergeStep s) (execMergeStep (s.withStore v)) :=
  .ite (raise_alike h _) (mergeOnce_alike h)

theorem execBuild_alike : Alike (execBuild s) (execBuild (s.withStore v)) :=
  .ite (raise_alike h _) (mergeLoop_alike 255 (buildInit_sameDefined h))

theorem execNodeRd_alike (idx : Idx) (sel : BitVec 2) :
    Alike (execNodeRd idx sel s) (execNodeRd idx sel (s.withStore v)) := by
  refine .ite_of (fun _ => raise_alike h _) fun hn => ?_
  rw [h.recs idx (by simpa [BitVec.le_def] using (not_or.1 hn).1)]
  exact setDataOut_alike h _

theorem execPqRd_alike (pos : Idx) : Alike (execPqRd pos s) (execPqRd pos (s.withStore v)) := by
  simp only [execPqRd, State.withStore_pq]
  cases s.pq[pos.toNat]? with
  | none => exact raise_alike h _
  | some i => exact setDataOut_alike h _

theorem execGenCodes_alike : Alike (execGenCodes s) (execGenCodes (s.withStore v)) := by
  refine .ite (raise_alike h _) ?_
  rw [h.sameTree.generatedCodes]
  cases s.generatedCodes with
  | error e => exact .fault e
  | ok c => exact .next ⟨rfl, h.recs⟩

theorem hdrCommit_alike (after : HdrState) : Alike (hdrCommit after s) (hdrCommit after (s.withStore v)) :=
  .ite (raise_alike h _) (.ite (raise_alike h _) (.next ⟨rfl, h.recs⟩))

theorem execHdrChar_alike (b : Byte) : Alike (execHdrChar b s) (execHdrChar b (s.withStore v)) := by
  have hr := raise_alike h
  refine .ite (hr _) ?_
  rw [State.withStore_hp]
  cases s.hp with
  | idle => exact .ite (.next ⟨rfl, h.recs⟩) (.ite (.next ⟨rfl, h.recs⟩) (hr _))
  | sym => exact .ite (.ite (hr _) (.next ⟨rfl, h.recs⟩)) (.ite (.next ⟨rfl, h.recs⟩) (hr _))
  | sepF => exact .ite (.ite (hr _) (.next ⟨rfl, h.recs⟩)) (hr _)
  | freq =>
    exact .ite (.ite (hr _) (.next ⟨rfl, h.recs⟩))
      (.ite (hdrCommit_alike h _) (.ite (hdrCommit_alike h _) (hr _)))
  | sepS => exact .ite (.next ⟨rfl, h.recs⟩) (hr _)
  | done => exact hr _

theorem decMove_alike (i : Idx) : Alike (decMove i s) (decMove i (s.withStore v)) := by
  unfold decMove
  rw [h.sameTree.node?]
  cases s.node? i with
  | none => exact .fault _
  | some n =>
    dsimp only
    cases n.kind <;> exact .next ⟨rfl, h.recs⟩

theorem decDescend_alike (b : Byte) : Alike (decDescend b s) (decDescend b (s.withStore v)) := by
  unfold decDescend
  rw [h.sameTree.node?, State.withStore_decCur]
  cases s.node? s.decCur with
  | none => exact .fault _
  | some n =>
    dsimp only
    cases childFor n b with
    | none => exact raise_alike h _
    | some i => exact decMove_alike h i

theorem execDecChar_alike (b : Byte) : Alike (execDecChar b s) (execDecChar b (s.withStore v)) := by
  unfold execDecChar
  rw [h.sameTree.node?, State.withStore_tree, State.withStore_rootIdx]
  cases s.tree with
  | none => exact raise_alike h _
  | building => exact raise_alike h _
  | empty => exact raise_alike h _
  | built =>
    dsimp only
    cases s.node? s.rootIdx with
    | none => exact .fault _
    | some n =>
      dsimp only
      cases n.kind with
      | leaf => exact raise_alike h _
      | internal => exact decDescend_alike h b

theorem execDecSingle_alike : Alike (execDecSingle s) (execDecSingle (s.withStore v)) := by
  unfold execDecSingle
  rw [h.sameTree.node?, State.withStore_tree, State.withStore_rootIdx]
  cases s.tree with
  | none => exact raise_alike h _
  | building => exact raise_alike h _
  | empty => exact .next h
  | built =>
    dsimp only
    cases s.node? s.rootIdx with
    | none => exact .fault _
    | some n =>
      dsimp only
      cases n.kind with
      | leaf => exact emit_alike h _
      | internal => exact raise_alike h _

theorem exec_alike (i : Instr) : Alike (exec i s) (exec i (s.withStore v)) := by
  have hr := raise_alike h
  cases i with
  | nop => exact .next h
  | clear => exact .next (sameDefined_of_no_record (s := s.cleared) rfl)
  | count b => exact .ite (hr _) (.ite (hr _) (.next ⟨rfl, h.recs⟩))
  | freqWr b => exact .ite (hr _) (.ite (hr _) (.next ⟨rfl, h.recs⟩))
  | freqRd b => exact setDataOut_alike h _
  | buildInit => exact execBuildInit_alike h
  | mergeStep => exact execMergeStep_alike h
  | build => exact execBuild_alike h
  | nodeRd idx sel => exact execNodeRd_alike h idx sel
  | pqRd pos => exact execPqRd_alike h pos
  | genCodes => exact execGenCodes_alike h
  | codeInfo b => exact .ite (hr _) (setDataOut_alike h _)
  | codeRd b c => exact .ite (hr _) (setDataOut_alike h _)
  | hdrEnc => exact .ite (hr _) (emit_alike h _)
  | hdrChar b => exact execHdrChar_alike h b
  | encByte b => exact .ite (hr _) (.ite (hr _) (emit_alike h _))
  | decChar b => exact execDecChar_alike h b
  | decEnd => exact .ite (hr _) (.ite (hr _) (.next h))
  | decSingle => exact execDecSingle_alike h

/-! ### The host's accesses -/

theorem cmdWrite_alike (w : Word) : Alike (cmdWrite w s) (cmdWrite w (s.withStore v)) := by
  unfold cmdWrite
  refine .ite (.next h) ?_
  cases decode w with
  | error e => exact raise_alike h _
  | ok i => exact exec_alike h i

theorem writeReg_alike (off : Offset) (w : Word) : Alike (writeReg off w s) (writeReg off w (s.withStore v)) :=
  .ite (cmdWrite_alike h w) (.ite (.next ⟨rfl, h.recs⟩) (.next h))

theorem readReg_sameDefined (off : Offset) : SameDefined (readReg off s) (readReg off (s.withStore v)) :=
  .ite ⟨rfl, h.recs⟩ ⟨rfl, h.recs⟩

theorem hostStep_alike (e : HostEvent) : Alike (hostStep e s) (hostStep e (s.withStore v)) := by
  cases e with
  | write off size w => exact .ite (.refused _) (.ite (.next h) (writeReg_alike h off w))
  | read off size =>
    exact .ite (.refused _) (.ite (.next ⟨rfl, h.recs⟩) (.next (readReg_sameDefined h off)))
  | idle => exact .next h
  | reset => exact .next ⟨rfl, fun _ _ => rfl⟩
  | assertReset => exact .next ⟨rfl, fun _ _ => rfl⟩
  | releaseReset => exact .next (.ite ⟨rfl, fun _ _ => rfl⟩ h)

theorem step_alike : Alike (step s) (step (s.withStore v)) := by
  cases hh : s.host with
  | nil => rw [step_nil hh, step_nil (s := s.withStore v) hh]; exact .next h
  | cons e rest =>
    rw [step_cons hh, step_cons (s := s.withStore v) hh]
    exact hostStep_alike (s := { s with host := rest }) ⟨rfl, h.recs⟩ e

end

/-- Settles O53, from alike answers of every access; every read of a record is behind a check against NODE_COUNT, so the tree
invariant is not needed. -/
theorem undefinedRecordsAreNotObservable : Obligations.UndefinedRecordsAreNotObservable := by
  intro s t _ h
  have ht : t = s.withStore t.node := h.rest
  rw [ht] at h ⊢
  exact (step_alike h).elim

end Sys2Proof.Machine
end

section
/-! What the steps show of the block's outputs: who writes FREQ and DATA_OUT, that the output only grows, and what BUSY and
CONFIG read. -/

namespace Sys2Proof.Machine

/-! ### What a command leaves alone and what it appends -/

/-- No effect writes BUSY, FREQ_WIDTH or the record of the host's reads. -/
theorem Effect.untouched {i : Instr} {s t : State} (h : Effect i s t) :
    t.busy = s.busy ∧ t.freqWidth = s.freqWidth ∧ t.readLog = s.readLog := by
  by_cases hi : i = .clear
  · subst hi; cases h; exact ⟨rfl, rfl, rfl⟩
  · obtain ⟨_, _, hb, hw, _, hl, _⟩ := h.fields hi
    exact ⟨hb, hw, hl⟩

/-- A change only appends to OUT (R34). -/
theorem Change.out_extends {s t : State} (h : Change s t) : s.out <+: t.out := by
  cases h with
  | shows bs v => exact List.prefix_append _ _
  | clear => exact List.prefix_refl _
  | entry b v => exact List.prefix_refl _
  | header b _ ht he => cases he <;> exact List.prefix_refl _
  | buildInit => exact List.prefix_refl _
  | merge a b rest => rw [State.merged_out]
  | build _ hc hm => rw [mergeLoop_frame hm]; exact List.prefix_refl _
  | codes c => exact List.prefix_refl _
  | cursor bs d => exact List.prefix_append _ _

/-- The read-back commands, which are the ones that write DATA_OUT (R37). -/
def ReadsBack (i : Instr) : Prop :=
  (∃ b, i = .freqRd b) ∨ (∃ k e, i = .nodeRd k e) ∨ (∃ p, i = .pqRd p) ∨ (∃ b, i = .codeInfo b) ∨ ∃ b c, i = .codeRd b c

/-- DATA_OUT after an effect that is neither CLEAR's nor a read-back command's. -/
theorem Effect.dataOut_kept {i : Instr} {s t : State} (h : Effect i s t) (hi : i ≠ .clear) (hr : ¬ ReadsBack i) :
    t.dataOut = s.dataOut := by
  cases i with
  | clear => exact absurd rfl hi
  | freqRd b => exact absurd (.inl ⟨b, rfl⟩) hr
  | nodeRd k e => exact absurd (.inr (.inl ⟨k, e, rfl⟩)) hr
  | pqRd p => exact absurd (.inr (.inr (.inl ⟨p, rfl⟩))) hr
  | codeInfo b => exact absurd (.inr (.inr (.inr (.inl ⟨b, rfl⟩)))) hr
  | codeRd b c => exact absurd (.inr (.inr (.inr (.inr ⟨b, c, rfl⟩)))) hr
  | nop => cases h; rfl
  | count b => obtain ⟨_, _, _, rfl⟩ := h; rfl
  | freqWr b => obtain ⟨_, _, _, rfl⟩ := h; rfl
  | buildInit => obtain ⟨_, rfl⟩ := h; rfl
  | mergeStep =>
    obtain ⟨_, h⟩ := h
    obtain ⟨a, b, rest, _, _, _, _, rfl⟩ := mergeOnce_eq_next.1 h
    exact State.merged_dataOut s a b rest
  | build => rw [mergeLoop_frame h.2]; rfl
  | genCodes => obtain ⟨_, _, _, rfl⟩ := h; rfl
  | hdrEnc => obtain ⟨_, rfl⟩ := h; rfl
  | hdrChar b => obtain ⟨_, he⟩ := h; cases he <;> rfl
  | encByte b => obtain ⟨_, _, rfl⟩ := h; rfl
  | decChar b => obtain ⟨_, _, _, _, _, _, _, ⟨_, rfl⟩ | ⟨_, rfl⟩⟩ := h <;> rfl
  | decEnd => obtain ⟨_, _, rfl⟩ := h; rfl
  | decSingle => obtain ⟨_, rfl⟩ | ⟨_, _, _, rfl⟩ := h <;> rfl

/-! ### What a register access does -/

/-- Everything a register write that answers a next state can have done. -/
theorem writeReg_cases {off : Offset} {w : Word} {s t : State} (h : writeReg off w s = .next t) :
    (off = offCmd ∧ ∃ i, decode w = .ok i ∧ exec i s = .next t) ∨ ∃ e d, t = { s with err := e, dataIn := d } := by
  unfold writeReg at h
  split at h
  · rename_i hoff
    rcases cmdWrite_cases w s with ⟨_, h'⟩ | ⟨_, h'⟩ | ⟨i, hd, _, h'⟩ <;> rw [h'] at h
    · cases h; exact .inr ⟨_, _, rfl⟩
    · cases h; exact .inr ⟨_, _, rfl⟩
    · exact .inl ⟨hoff, i, hd, h⟩
  · split at h <;> cases h <;> exact .inr ⟨_, _, rfl⟩

@[simp] theorem readReg_freq (off : Offset) (s : State) : (readReg off s).freq = s.freq := by
  unfold readReg; dsimp only; split <;> rfl

@[simp] theorem readReg_dataOut (off : Offset) (s : State) : (readReg off s).dataOut = s.dataOut := by
  unfold readReg; dsimp only; split <;> rfl

@[simp] theorem regValue_outData (s : State) : s.regValue offOutData = s.outData := rfl

/-- The fields of what OUT_DATA reads with `b` in front (R44). -/
theorem outData_cons {s : State} {b : Byte} {bs : List Byte} (h : s.out = b :: bs) :
    s.outData.getLsbD 31 = true ∧ s.outData.extractLsb' 8 23 = 0 ∧ s.outData.extractLsb' 0 8 = b := by
  rw [State.outData, h]
  dsimp only
  refine ⟨by rw [BitVec.getLsbD_append]; rfl, ?_, ?_⟩
  · rw [BitVec.extractLsb'_append_eq_of_le (by decide), BitVec.extractLsb'_append_eq_of_add_le (by decide)]
    exact BitVec.extractLsb'_eq_self
  · rw [BitVec.extractLsb'_append_eq_of_add_le (by decide)]
    exact BitVec.extractLsb'_eq_self

/-- A read moves at most one byte, from the front of OUT to the end of what the host has (R44). -/
theorem readReg_output (off : Offset) (s : State) : (readReg off s).output = s.output := by
  unfold readReg State.output
  by_cases hoff : off = offOutData
  · subst hoff
    cases hout : s.out with
    | nil => simp [State.outData, hout, ReadRecord.outByte?]
    | cons b bs =>
      obtain ⟨hvalid, _, hbyte⟩ := outData_cons hout
      have hb : s.outData.setWidth 8 = b := by rw [← hbyte, BitVec.setWidth_eq_extractLsb' (by decide)]
      simp [ReadRecord.outByte?, hvalid, hb]
  · simp [hoff, ReadRecord.outByte?]

/-! ### Steps -/

/-- Settles O51: an error writes neither, an effect only if it is one of the named commands', and of the other accesses only the
reset events do. -/
theorem whoWritesFreqAndDataOut : Obligations.WhoWritesFreqAndDataOut := by
  constructor
  · intro i s t hi h
    rcases exec_cases h with hr | he
    · obtain ⟨e, rfl⟩ := hr.eq
      exact ⟨fun hf => absurd rfl hf, fun hd => absurd rfl hd⟩
    · refine ⟨he.freq_writers hi, fun hd => ?_⟩
      by_contra hr
      exact hd (he.dataOut_kept hi hr)
  · intro s t h hne
    have hsame : ¬ (t.freq = s.freq ∧ t.dataOut = s.dataOut) := fun hs => hne.elim (· hs.1) (· hs.2)
    rcases step_cases h with ⟨_, rfl⟩ | ⟨e, rest, hh, h⟩
    · exact absurd ⟨rfl, rfl⟩ hsame
    refine ⟨e, rest, hh, ?_⟩
    rcases h with ⟨rfl, rfl⟩ | ⟨rfl, _⟩ | ⟨rfl, _⟩ | ⟨rfl, _⟩ | ⟨rfl, _⟩ | ⟨off, v, rfl, _, _, rfl⟩ |
      ⟨off, rfl, _, _, rfl⟩ | ⟨off, rfl, _, _, rfl⟩ | ⟨off, v, rfl, _, _, h⟩
    · exact absurd ⟨rfl, rfl⟩ hsame
    · exact .inl rfl
    · exact .inr (.inl rfl)
    · exact .inr (.inr (.inl rfl))
    · exact .inr (.inr (.inl rfl))
    · exact absurd ⟨rfl, rfl⟩ hsame
    · exact absurd ⟨rfl, rfl⟩ hsame
    · exact absurd ⟨by simp, by simp⟩ hsame
    · rcases writeReg_cases h with ⟨rfl, i, hd, hx⟩ | ⟨_, _, rfl⟩
      · exact .inr (.inr (.inr ⟨v, i, rfl, hd, hx⟩))
      · exact absurd ⟨rfl, rfl⟩ hsame

/-- A command only extends the output. -/
theorem exec_output_extends {i : Instr} {s t : State} (h : exec i s = .next t) : s.output <+: t.output := by
  rcases exec_cases h with hr | he
  · obtain ⟨e, rfl⟩ := hr.eq; exact List.prefix_refl _
  · unfold State.output
    rw [he.untouched.2.2]
    exact (List.prefix_append_right_inj _).2 he.change.out_extends

/-- Settles O54: a read hands a byte over, a command appends, and nothing else outside reset touches either. -/
theorem outputOnlyGrows : Obligations.OutputOnlyGrows := by
  intro s t hr hreset hassert h
  rcases step_cases h with ⟨_, rfl⟩ | ⟨e, rest, hh, h⟩
  · exact List.prefix_refl _
  rcases h with ⟨rfl, rfl⟩ | ⟨rfl, _⟩ | ⟨rfl, _⟩ | ⟨rfl, hr', _⟩ | ⟨rfl, _, rfl⟩ | ⟨off, v, rfl, _, hr', _⟩ |
    ⟨off, rfl, _, hr', _⟩ | ⟨off, rfl, _, _, rfl⟩ | ⟨off, v, rfl, _, _, h⟩
  · exact List.prefix_refl _
  · exact absurd hh (hreset rest)
  · exact absurd hh (hassert rest)
  · rw [hr] at hr'; cases hr'
  · exact List.prefix_refl _
  · rw [hr] at hr'; cases hr'
  · rw [hr] at hr'; cases hr'
  · rw [readReg_output]; exact List.prefix_refl _
  · rcases writeReg_cases h with ⟨_, i, _, hx⟩ | ⟨_, _, rfl⟩
    · exact exec_output_extends (s := { s with host := rest }) hx
    · exact List.prefix_refl _

/-- Settles O55: reset leaves BUSY at 0 and FREQ_WIDTH as it is, and no effect writes either. -/
theorem busyStaysLowAndConfigIsHardwired : Obligations.BusyStaysLowAndConfigIsHardwired := by
  intro s t hb h
  refine step_keeps (P := fun u => u.busy = false ∧ u.config = s.config) (fun _ _ _ _ _ _ _ _ h => h)
    (fun _ h => ⟨rfl, h.2⟩) ?_ ⟨hb, rfl⟩ h
  rintro i u v ⟨hu, hc⟩ he
  obtain ⟨h1, h2, _⟩ := he.untouched
  rw [State.config, h2, h1]
  exact ⟨hu, hc⟩

end Sys2Proof.Machine
end

section
/-! What single accesses of the host do: a command word runs its command, a status register shows its fields, a read returns
its register, and a write outside CMD stores at most DATA_IN. -/

namespace Sys2Proof.Machine

/-! ### The words that run while in error -/

/-- The rows of NOP and of CLEAR fix every bit of their word (R86). -/
theorem row_of_nop_or_clear {r : Row} (hr : r ∈ opcodeMap) {w : Word} (h : r.build w = .nop ∨ r.build w = .clear) :
    r.mask = BitVec.allOnes 32 ∧ (r.pattern = 0x00000000 ∨ r.pattern = 0x01000000) := by
  revert r
  simp [opcodeMap]

/-- The words that decode to NOP or CLEAR are the two that a block in error runs (R216). -/
theorem word_of_nop_or_clear {w : Word} {i : Instr} (hd : decode w = .ok i) (hi : i = .nop ∨ i = .clear) :
    w = 0x00000000 ∨ w = 0x01000000 := by
  obtain ⟨r, hr, hm, rfl⟩ := row_of_decode hd
  obtain ⟨hmask, hp⟩ := row_of_nop_or_clear hr hi
  rw [hmask, BitVec.and_allOnes] at hm
  rwa [hm]

/-- Settles O5: the gate on ERR lets the command through, as its word is one of the two that run in error where ERR is set. -/
theorem stepRunsDecodedCommand : Obligations.StepRunsDecodedCommand := by
  intro s w i rest hh hr hd he
  rw [step_cmd hh hr]
  exact cmdWrite_run hd (he.imp_right (word_of_nop_or_clear hd))

/-! ### Status registers -/

/-- A bit is what the one-bit field there holds. -/
theorem getLsbD_of_extractLsb' {w i : Nat} {x : BitVec w} {b : Bool} (h : x.extractLsb' i 1 = BitVec.ofBool b) :
    x.getLsbD i = b := by
  have := congrArg (BitVec.getLsbD · 0) h
  simpa using this

/-- The fields of STATUS (R42). -/
theorem status_fields (s : State) :
    s.status.extractLsb' 0 4 = s.err.code ∧ s.status.extractLsb' 4 3 = s.hp.code ∧
    s.status.extractLsb' 7 2 = s.tree.code ∧ s.status.getLsbD 9 = s.codesValid ∧
    s.status.extractLsb' 10 9 = BitVec.ofNat 9 s.pq.length ∧ s.status.extractLsb' 19 9 = s.leafCount ∧
    s.status.extractLsb' 28 3 = 0 ∧ s.status.getLsbD 31 = s.busy := by
  unfold State.status
  refine ⟨?_, ?_, ?_, getLsbD_of_extractLsb' ?_, ?_, ?_, ?_, getLsbD_of_extractLsb' ?_⟩
  all_goals
    simp (disch := decide) only [BitVec.extractLsb'_append_eq_of_add_le, BitVec.extractLsb'_append_eq_of_le]
    exact BitVec.extractLsb'_eq_self

/-- The fields of TREEINFO (R43). -/
theorem treeInfo_fields (s : State) :
    s.treeInfo.extractLsb' 0 9 = s.nodeCount ∧ s.treeInfo.extractLsb' 9 7 = 0 ∧
    s.treeInfo.extractLsb' 16 9 = s.rootIdx ∧ s.treeInfo.extractLsb' 25 7 = 0 := by
  unfold State.treeInfo
  refine ⟨?_, ?_, ?_, ?_⟩
  all_goals
    simp (disch := decide) only [BitVec.extractLsb'_append_eq_of_add_le, BitVec.extractLsb'_append_eq_of_le]
    exact BitVec.extractLsb'_eq_self

/-- The fields of DECINFO (R45). -/
theorem decInfo_fields (s : State) :
    s.decInfo.extractLsb' 0 9 = s.decCur ∧ s.decInfo.extractLsb' 9 22 = 0 ∧ s.decInfo.getLsbD 31 = s.atRoot := by
  unfold State.decInfo
  refine ⟨?_, ?_, getLsbD_of_extractLsb' ?_⟩
  all_goals
    simp (disch := decide) only [BitVec.extractLsb'_append_eq_of_add_le, BitVec.extractLsb'_append_eq_of_le]
    exact BitVec.extractLsb'_eq_self

theorem atRoot_iff (s : State) : s.atRoot = true ↔ s.tree = .built ∧ s.decCur = s.rootIdx := by simp [State.atRoot]

/-- Settles O7: a queue of at most 256 entries fits the nine bits of PQ_SIZE. -/
theorem statusRegistersShowTheirFields : Obligations.StatusRegistersShowTheirFields := by
  refine ⟨fun s hq => ?_, by decide, by decide, by decide, by decide⟩
  obtain ⟨herr, hhp, htree, hvalid, hsize, hleaf, hzero, hbusy⟩ := status_fields s
  obtain ⟨hcount, ht1, hroot, ht2⟩ := treeInfo_fields s
  obtain ⟨hcur, hd, hat⟩ := decInfo_fields s
  have hsize : (s.status.extractLsb' 10 9).toNat = s.pq.length := by
    rw [hsize]; exact toNat_ofNat_idx (by omega)
  exact ⟨herr, hhp, htree, hvalid, hsize, hleaf, hzero, hbusy, hcount, ht1, hroot, ht2, hcur, hd, hat ▸ atRoot_iff s⟩

/-! ### Reads -/

theorem step_read {s : State} {off : Offset} {rest : List HostEvent} (hh : s.host = .read off 4 :: rest)
    (hr : s.inReset = false) (ha : off.toNat % 4 = 0) : step s = .next (readReg off { s with host := rest }) := by
  rw [step_cons hh]; exact hostStep_read hr ha

/-- A read of any other offset than OUT_DATA only records the value (R64). -/
theorem readReg_of_ne {off : Offset} (h : off ≠ offOutData) (s : State) : readReg off s = s.logRead off (s.regValue off) :=
  if_neg h

theorem outLevel_toNat (s : State) : s.outLevel.toNat = min s.out.length 0xFFFFFFFF :=
  BitVec.toNat_ofNat .. ▸ Nat.mod_eq_of_lt (by omega)

theorem config_toNat (s : State) : s.config.toNat = s.freqWidth.bits := by
  have := s.freqWidth.le
  rw [State.config, BitVec.toNat_ofNat, Nat.mod_eq_of_lt (by omega)]

/-- The reserved offsets read 0 (R61). -/
theorem regValue_reserved {off : Offset} (h : 0x24 ≤ off.toNat) (s : State) : s.regValue off = 0 := by
  have hne : ∀ o : Offset, o.toNat < 0x24 → off ≠ o := fun o ho e => by rw [e] at h; omega
  unfold State.regValue
  rw [if_neg (hne offDataIn (by decide)), if_neg (hne offDataOut (by decide)), if_neg (hne offStatus (by decide)),
    if_neg (hne offTreeInfo (by decide)), if_neg (hne offDecInfo (by decide)), if_neg (hne offOutData (by decide)),
    if_neg (hne offOutLevel (by decide)), if_neg (hne offConfig (by decide))]

/-- Settles O8, register by register. -/
theorem readsReturnTheRegister : Obligations.ReadsReturnTheRegister := by
  intro s off rest hh hr ha hne
  refine ⟨s.regValue off, ?_, ?_, ?_, ?_, ?_, ?_, ?_, ?_, ?_, fun h => regValue_reserved h s⟩
  · rw [step_read hh hr ha, readReg_of_ne hne]; rfl
  · rintro rfl; rfl
  · rintro rfl; rfl
  · rintro rfl; rfl
  · rintro rfl; rfl
  · rintro rfl; rfl
  · rintro rfl; rfl
  · rintro rfl; exact outLevel_toNat s
  · rintro rfl; exact config_toNat s

/-- Settles O9: the read shows the front of OUT and drops it. -/
theorem outDataReadTakesTheFirstByte : Obligations.OutDataReadTakesTheFirstByte := by
  intro s rest hh hr
  have hstep : step s = .next { s with host := rest, out := s.out.drop 1, readLog := s.readLog ++ [⟨0x18, s.outData⟩] } :=
    step_read hh hr (by decide)
  constructor
  · intro hout
    have hv : s.outData = 0 := by rw [State.outData, hout]
    rw [hstep, hv, hout, List.drop_nil, ← hout]
  · intro b bs hout
    exact ⟨s.outData, by rw [hstep, hout]; rfl, outData_cons hout⟩

/-! ### Writes -/

theorem step_write {s : State} {off : Offset} {w : Word} {rest : List HostEvent} (hh : s.host = .write off 4 w :: rest)
    (hr : s.inReset = false) (ha : off.toNat % 4 = 0) : step s = writeReg off w { s with host := rest } := by
  rw [step_cons hh]; exact hostStep_write w hr ha

/-- The read-only and the reserved offsets ignore a write (R61). -/
theorem writeReg_ignored {off : Offset} (hcmd : off ≠ offCmd) (hdata : off ≠ offDataIn) (w : Word) (s : State) :
    writeReg off w s = .next s := by
  rw [writeReg, if_neg hcmd, if_neg hdata]

/-- Settles O10: DATA_IN is the one other register a write reaches. -/
theorem writesOutsideCmd : Obligations.WritesOutsideCmd := by
  intro s off v rest hh hr ha
  rw [step_write hh hr ha]
  exact ⟨fun hoff => hoff ▸ rfl, fun hcmd hdata => writeReg_ignored hcmd hdata v _⟩

end Sys2Proof.Machine
end

section
/-! The accesses the model has no step for (R62). -/

namespace Sys2Proof.Machine

theorem aligned_eq_false {off : Offset} {size : Nat} (h : size ≠ 4 ∨ off.toNat % 4 ≠ 0) : aligned off size = false :=
  Bool.eq_false_iff.2 fun ha => not_and_or.2 h ((aligned_iff off size).1 ha)

theorem hostStep_write_unmodelled {off : Offset} {size : Nat} (h : aligned off size = false) (v : Word) (s : State) :
    hostStep (.write off size v) s = .refused .unmodelledAccess := by
  unfold hostStep; simp only [h]; rfl

theorem hostStep_read_unmodelled {off : Offset} {size : Nat} (h : aligned off size = false) (s : State) :
    hostStep (.read off size) s = .refused .unmodelledAccess := by
  unfold hostStep; simp only [h]; rfl

/-- Settles O11: size and alignment are checked before reset is, so the refusal is the same in reset. -/
theorem narrowOrMisalignedAccessIsRefused : Obligations.NarrowOrMisalignedAccessIsRefused := by
  intro s off size v rest h
  have ha : aligned off size = false := aligned_eq_false h
  constructor
  · intro hh; rw [step_cons hh]; exact hostStep_write_unmodelled ha v _
  · intro hh; rw [step_cons hh]; exact hostStep_read_unmodelled ha _

end Sys2Proof.Machine
end

section
/-! The encoding (R80 to R92): the rows of the opcode map by their formats, the words each row accepts, and from that decoder
and encoder as each other's inverse; the assembler's lines; and the words that are illegal or ignored. -/

namespace Sys2Proof

/-! ### One row decides a word -/

/-- Two rows that accept one word would share its OPC (R84, R86). -/
theorem opcodeMap_disjoint :
    opcodeMap.Pairwise fun r q => ∀ w, ¬ (w &&& r.mask = r.pattern ∧ w &&& q.mask = q.pattern) := by
  refine opcodeMap_distinct.imp_of_mem fun {r q} hr hq hne w => ?_
  rintro ⟨h1, h2⟩
  exact hne ((opc_of_accepts (opcodeMap_opc hr) h1).symm.trans (opc_of_accepts (opcodeMap_opc hq) h2))

/-- A row of the map decodes the words it accepts (R84). -/
theorem decode_of_row {r : Row} (hr : r ∈ opcodeMap) {w : Word} (h : w &&& r.mask = r.pattern) :
    decode w = .ok (r.build w) := by
  have hfind : opcodeMap.find? (fun r => r.accepts w) = some r :=
    find?_of_unique (opcodeMap_disjoint.imp fun hne => by simpa using hne w) hr (by simpa using h)
  rw [decode, hfind]

theorem decode_eq_ok_iff {w : Word} {i : Instr} :
    decode w = .ok i ↔ ∃ r ∈ opcodeMap, w &&& r.mask = r.pattern ∧ i = r.build w := by
  constructor
  · exact row_of_decode
  · rintro ⟨r, hr, h, rfl⟩
    exact decode_of_row hr h

/-! ### The fields of a word -/

theorem append_inj {n m : Nat} {x₁ x₂ : BitVec n} {y₁ y₂ : BitVec m} : x₁ ++ y₁ = x₂ ++ y₂ ↔ x₁ = x₂ ∧ y₁ = y₂ := by
  constructor
  · intro h
    have hx := congrArg (BitVec.extractLsb' m n) h
    have hy := congrArg (BitVec.extractLsb' 0 m) h
    simp only [BitVec.extractLsb'_append_eq_left, BitVec.extractLsb'_append_eq_right] at hx hy
    exact ⟨hx, hy⟩
  · rintro ⟨rfl, rfl⟩; rfl

theorem exists_append (n m : Nat) (w : BitVec (n + m)) : ∃ (x : BitVec n) (y : BitVec m), w = x ++ y :=
  ⟨_, _, BitVec.extractLsb'_append_extractLsb'.symm⟩

/-- The words of a format with one operand field, of `k` bits under `z` must-be-zero bits (R82, R84). -/
theorem and_mask_eq_iff_oneField {n z k : Nat} {opc : BitVec n} {w : BitVec (n + z + k)} :
    w &&& (BitVec.allOnes n ++ BitVec.allOnes z ++ 0#k) = opc ++ 0#z ++ 0#k ↔ ∃ f : BitVec k, w = opc ++ 0#z ++ f := by
  obtain ⟨x, f, rfl⟩ := exists_append (n + z) k w
  obtain ⟨o, mbz, rfl⟩ := exists_append n z x
  simp [append_inj]

/-- The words of a format with two operand fields, each under must-be-zero bits (R82, R84). -/
theorem and_mask_eq_iff_twoFields {n y j z k : Nat} {opc : BitVec n} {w : BitVec (n + y + j + z + k)} :
    w &&& (BitVec.allOnes n ++ BitVec.allOnes y ++ 0#j ++ BitVec.allOnes z ++ 0#k) = opc ++ 0#y ++ 0#j ++ 0#z ++ 0#k ↔
      ∃ (f : BitVec k) (g : BitVec j), w = opc ++ 0#y ++ g ++ 0#z ++ f := by
  obtain ⟨x, f, rfl⟩ := exists_append (n + y + j + z) k w
  obtain ⟨x, mbz, rfl⟩ := exists_append (n + y + j) z x
  obtain ⟨x, g, rfl⟩ := exists_append (n + y) j x
  obtain ⟨o, mbz', rfl⟩ := exists_append n y x
  simp [append_inj]

@[simp] theorem fieldB_wordB (opc b : Byte) : fieldB (wordB opc b) = b := BitVec.extractLsb'_append_eq_right

@[simp] theorem fieldB_wordBC (opc : Byte) (chunk : BitVec 3) (b : Byte) : fieldB (wordBC opc chunk b) = b :=
  BitVec.extractLsb'_append_eq_right

@[simp] theorem fieldChunk_wordBC (opc : Byte) (chunk : BitVec 3) (b : Byte) : fieldChunk (wordBC opc chunk b) = chunk := by
  unfold fieldChunk wordBC
  simp (disch := decide) only [BitVec.extractLsb'_append_eq_of_add_le, BitVec.extractLsb'_append_eq_of_le]
  exact BitVec.extractLsb'_eq_self

@[simp] theorem fieldIdx_wordI (opc : Byte) (pos : Idx) : fieldIdx (wordI opc pos) = pos :=
  BitVec.extractLsb'_append_eq_right

@[simp] theorem fieldIdx_wordIS (opc : Byte) (sel : BitVec 2) (idx : Idx) : fieldIdx (wordIS opc sel idx) = idx :=
  BitVec.extractLsb'_append_eq_right

@[simp] theorem fieldSel_wordIS (opc : Byte) (sel : BitVec 2) (idx : Idx) : fieldSel (wordIS opc sel idx) = sel := by
  unfold fieldSel wordIS
  simp (disch := decide) only [BitVec.extractLsb'_append_eq_of_add_le, BitVec.extractLsb'_append_eq_of_le]
  exact BitVec.extractLsb'_eq_self

/-! ### The rows by their formats: each accepts the words of its format with its OPC -/

/-- A row of format Z (R82). -/
def rowZ (opc : Byte) (i : Instr) : Row := ⟨wordZ opc, BitVec.allOnes 32, fun _ => i⟩

/-- A row of format B (R82). -/
def rowB (opc : Byte) (f : Byte → Instr) : Row :=
  ⟨wordB opc 0, BitVec.allOnes 8 ++ BitVec.allOnes 16 ++ 0#8, fun w => f (fieldB w)⟩

/-- A row of format BC (R82). -/
def rowBC (opc : Byte) (f : Byte → BitVec 3 → Instr) : Row :=
  ⟨wordBC opc 0 0, BitVec.allOnes 8 ++ BitVec.allOnes 5 ++ 0#3 ++ BitVec.allOnes 8 ++ 0#8,
    fun w => f (fieldB w) (fieldChunk w)⟩

/-- A row of format I (R82). -/
def rowI (opc : Byte) (f : Idx → Instr) : Row :=
  ⟨wordI opc 0, BitVec.allOnes 8 ++ BitVec.allOnes 15 ++ 0#9, fun w => f (fieldIdx w)⟩

/-- A row of format IS (R82). -/
def rowIS (opc : Byte) (f : Idx → BitVec 2 → Instr) : Row :=
  ⟨wordIS opc 0 0, BitVec.allOnes 8 ++ BitVec.allOnes 6 ++ 0#2 ++ BitVec.allOnes 7 ++ 0#9,
    fun w => f (fieldIdx w) (fieldSel w)⟩

/-- The opcode map from its OPC and format columns (R86). -/
theorem opcodeMap_eq : opcodeMap =
    [ rowZ 0x00 .nop, rowZ 0x01 .clear, rowB 0x08 .count, rowB 0x09 .freqWr, rowB 0x0A .freqRd,
      rowZ 0x10 .buildInit, rowZ 0x11 .mergeStep, rowZ 0x12 .build, rowIS 0x13 .nodeRd, rowI 0x14 .pqRd,
      rowZ 0x20 .genCodes, rowB 0x21 .codeInfo, rowBC 0x22 .codeRd, rowZ 0x30 .hdrEnc, rowB 0x31 .hdrChar,
      rowB 0x40 .encByte, rowB 0x41 .decChar, rowZ 0x42 .decEnd, rowZ 0x43 .decSingle ] := rfl

theorem rowZ_accepts {opc : Byte} {i : Instr} {w : Word} :
    w &&& (rowZ opc i).mask = (rowZ opc i).pattern ↔ w = wordZ opc := by
  simp only [rowZ, BitVec.and_allOnes]

theorem rowB_accepts {opc : Byte} {f : Byte → Instr} {w : Word} :
    w &&& (rowB opc f).mask = (rowB opc f).pattern ↔ ∃ b, w = wordB opc b :=
  and_mask_eq_iff_oneField (n := 8) (z := 16) (k := 8)

theorem rowBC_accepts {opc : Byte} {f : Byte → BitVec 3 → Instr} {w : Word} :
    w &&& (rowBC opc f).mask = (rowBC opc f).pattern ↔ ∃ b chunk, w = wordBC opc chunk b :=
  and_mask_eq_iff_twoFields (n := 8) (y := 5) (j := 3) (z := 8) (k := 8)

theorem rowI_accepts {opc : Byte} {f : Idx → Instr} {w : Word} :
    w &&& (rowI opc f).mask = (rowI opc f).pattern ↔ ∃ pos, w = wordI opc pos :=
  and_mask_eq_iff_oneField (n := 8) (z := 15) (k := 9)

theorem rowIS_accepts {opc : Byte} {f : Idx → BitVec 2 → Instr} {w : Word} :
    w &&& (rowIS opc f).mask = (rowIS opc f).pattern ↔ ∃ idx sel, w = wordIS opc sel idx :=
  and_mask_eq_iff_twoFields (n := 8) (y := 6) (j := 2) (z := 7) (k := 9)

/-! ### A command's word decodes to the command -/

theorem decode_wordZ {opc : Byte} {i : Instr} (hr : rowZ opc i ∈ opcodeMap) : decode (wordZ opc) = .ok i :=
  decode_of_row hr (rowZ_accepts.2 rfl)

theorem decode_wordB {opc : Byte} {f : Byte → Instr} (hr : rowB opc f ∈ opcodeMap) (b : Byte) :
    decode (wordB opc b) = .ok (f b) := by
  simpa [rowB] using decode_of_row hr (rowB_accepts.2 ⟨b, rfl⟩)

theorem decode_wordBC {opc : Byte} {f : Byte → BitVec 3 → Instr} (hr : rowBC opc f ∈ opcodeMap) (b : Byte)
    (chunk : BitVec 3) : decode (wordBC opc chunk b) = .ok (f b chunk) := by
  simpa [rowBC] using decode_of_row hr (rowBC_accepts.2 ⟨b, chunk, rfl⟩)

theorem decode_wordI {opc : Byte} {f : Idx → Instr} (hr : rowI opc f ∈ opcodeMap) (pos : Idx) :
    decode (wordI opc pos) = .ok (f pos) := by
  simpa [rowI] using decode_of_row hr (rowI_accepts.2 ⟨pos, rfl⟩)

theorem decode_wordIS {opc : Byte} {f : Idx → BitVec 2 → Instr} (hr : rowIS opc f ∈ opcodeMap) (idx : Idx)
    (sel : BitVec 2) : decode (wordIS opc sel idx) = .ok (f idx sel) := by
  simpa [rowIS] using decode_of_row hr (rowIS_accepts.2 ⟨idx, sel, rfl⟩)

/-- Each command's word is its row's format with its row's OPC, and the operands come back from the word's fields. -/
theorem decode_encode (i : Instr) : decode (encode i) = .ok i := by
  cases i with
  | nop => exact decode_wordZ (by simp [opcodeMap_eq])
  | clear => exact decode_wordZ (by simp [opcodeMap_eq])
  | count b => exact decode_wordB (f := .count) (by simp [opcodeMap_eq]) b
  | freqWr b => exact decode_wordB (f := .freqWr) (by simp [opcodeMap_eq]) b
  | freqRd b => exact decode_wordB (f := .freqRd) (by simp [opcodeMap_eq]) b
  | buildInit => exact decode_wordZ (by simp [opcodeMap_eq])
  | mergeStep => exact decode_wordZ (by simp [opcodeMap_eq])
  | build => exact decode_wordZ (by simp [opcodeMap_eq])
  | nodeRd idx sel => exact decode_wordIS (f := .nodeRd) (by simp [opcodeMap_eq]) idx sel
  | pqRd pos => exact decode_wordI (f := .pqRd) (by simp [opcodeMap_eq]) pos
  | genCodes => exact decode_wordZ (by simp [opcodeMap_eq])
  | codeInfo b => exact decode_wordB (f := .codeInfo) (by simp [opcodeMap_eq]) b
  | codeRd b chunk => exact decode_wordBC (f := .codeRd) (by simp [opcodeMap_eq]) b chunk
  | hdrEnc => exact decode_wordZ (by simp [opcodeMap_eq])
  | hdrChar b => exact decode_wordB (f := .hdrChar) (by simp [opcodeMap_eq]) b
  | encByte b => exact decode_wordB (f := .encByte) (by simp [opcodeMap_eq]) b
  | decChar b => exact decode_wordB (f := .decChar) (by simp [opcodeMap_eq]) b
  | decEnd => exact decode_wordZ (by simp [opcodeMap_eq])
  | decSingle => exact decode_wordZ (by simp [opcodeMap_eq])

/-- Settles O1, format by format: a command's row accepts its word and reads its operands back. -/
theorem decodeOfEncodeIsIdentity : Obligations.DecodeOfEncodeIsIdentity := decode_encode

/-! ### A command has one word -/

/-- The words a row accepts are the encodings of the commands it builds. -/
def Row.Encodes (r : Row) : Prop := ∀ w, w &&& r.mask = r.pattern → encode (r.build w) = w

theorem rowZ_encodes {opc : Byte} {i : Instr} (he : encode i = wordZ opc) : (rowZ opc i).Encodes := by
  intro w h
  rw [rowZ_accepts.1 h]; exact he

theorem rowB_encodes {opc : Byte} {f : Byte → Instr} (he : ∀ b, encode (f b) = wordB opc b) : (rowB opc f).Encodes := by
  intro w h
  obtain ⟨b, rfl⟩ := rowB_accepts.1 h
  simp [rowB, he]

theorem rowBC_encodes {opc : Byte} {f : Byte → BitVec 3 → Instr} (he : ∀ b chunk, encode (f b chunk) = wordBC opc chunk b) :
    (rowBC opc f).Encodes := by
  intro w h
  obtain ⟨b, chunk, rfl⟩ := rowBC_accepts.1 h
  simp [rowBC, he]

theorem rowI_encodes {opc : Byte} {f : Idx → Instr} (he : ∀ pos, encode (f pos) = wordI opc pos) : (rowI opc f).Encodes := by
  intro w h
  obtain ⟨pos, rfl⟩ := rowI_accepts.1 h
  simp [rowI, he]

theorem rowIS_encodes {opc : Byte} {f : Idx → BitVec 2 → Instr} (he : ∀ idx sel, encode (f idx sel) = wordIS opc sel idx) :
    (rowIS opc f).Encodes := by
  intro w h
  obtain ⟨idx, sel, rfl⟩ := rowIS_accepts.1 h
  simp [rowIS, he]

theorem opcodeMap_encodes : ∀ r ∈ opcodeMap, r.Encodes := by
  simp only [opcodeMap_eq, List.forall_mem_cons]
  exact ⟨rowZ_encodes rfl, rowZ_encodes rfl, rowB_encodes fun _ => rfl, rowB_encodes fun _ => rfl, rowB_encodes fun _ => rfl,
    rowZ_encodes rfl, rowZ_encodes rfl, rowZ_encodes rfl, rowIS_encodes fun _ _ => rfl, rowI_encodes fun _ => rfl,
    rowZ_encodes rfl, rowB_encodes fun _ => rfl, rowBC_encodes fun _ _ => rfl, rowZ_encodes rfl, rowB_encodes fun _ => rfl,
    rowB_encodes fun _ => rfl, rowB_encodes fun _ => rfl, rowZ_encodes rfl, rowZ_encodes rfl, List.forall_mem_nil _⟩

theorem encode_of_decode {w : Word} {i : Instr} (h : decode w = .ok i) : encode i = w := by
  obtain ⟨r, hr, hw, rfl⟩ := row_of_decode h
  exact opcodeMap_encodes r hr w hw

/-- Settles O2: rows of distinct OPC accept no common word, and each row accepts only the words of its commands. -/
theorem oneRowDecidesAWord : Obligations.OneRowDecidesAWord :=
  ⟨fun _ hr => opcodeMap_opc hr, opcodeMap_disjoint, fun _ _ => decode_eq_ok_iff, fun _ _ => encode_of_decode⟩

/-- Settles O3, by running the decoder on each word. -/
theorem exampleWordsDecode : Obligations.ExampleWordsDecode := by
  unfold Obligations.ExampleWordsDecode
  decide

/-! ### The assembler -/

theorem Source.assemble_eq_none {l : Source} (h : l.wf = false) : l.assemble = none :=
  if_neg (by simp [h])

theorem assemble_b (c : BCommand) {n : Nat} (hn : n < 256) :
    (Source.b c n).assemble = some (c.instr (BitVec.ofNat 8 n)) :=
  if_pos (by simp [Source.wf, hn])

theorem assemble_bc {n k : Nat} (hn : n < 256) (hk : k < 8) :
    (Source.bc n k).assemble = some (.codeRd (BitVec.ofNat 8 n) (BitVec.ofNat 3 k)) :=
  if_pos (by simp [Source.wf, hn, hk])

theorem assemble_i {n : Nat} (hn : n < 512) : (Source.i n).assemble = some (.pqRd (BitVec.ofNat 9 n)) :=
  if_pos (by simp [Source.wf, hn])

theorem assemble_is {n k : Nat} (hn : n < 512) (hk : k < 4) :
    (Source.is n k).assemble = some (.nodeRd (BitVec.ofNat 9 n) (BitVec.ofNat 2 k)) :=
  if_pos (by simp [Source.wf, hn, hk])

/-- An operand that fits its field is held there unchanged (R83). -/
theorem toNat_ofNat_of_fits {w n : Nat} (h : n < 2 ^ w) : (BitVec.ofNat w n).toNat = n :=
  BitVec.toNat_ofNat .. ▸ Nat.mod_eq_of_lt h

/-- Settles O4: a line with operands that fit is well-formed, any other is not, and no command's word is illegal. -/
theorem assemblerEmitsNoIllegalWord : Obligations.AssemblerEmitsNoIllegalWord := by
  refine ⟨⟨rfl, rfl, rfl, rfl, rfl, rfl, rfl, rfl, rfl⟩, ?_, ?_, ?_, ?_, ?_, ?_, ?_, ?_, fun _ i _ => decode_encode i⟩
  · intro n hn
    exact ⟨_, toNat_ofNat_of_fits hn, assemble_b _ hn, assemble_b _ hn, assemble_b _ hn, assemble_b _ hn,
      assemble_b _ hn, assemble_b _ hn, assemble_b _ hn⟩
  · exact fun c n hn => Source.assemble_eq_none (by simp [Source.wf, hn])
  · exact fun n k hn hk => ⟨_, _, toNat_ofNat_of_fits hn, toNat_ofNat_of_fits hk, assemble_bc hn hk⟩
  · exact fun n k h => Source.assemble_eq_none (by
      simp only [Source.wf, Bool.and_eq_false_iff, decide_eq_false_iff_not]; omega)
  · exact fun n hn => ⟨_, toNat_ofNat_of_fits hn, assemble_i hn⟩
  · exact fun n hn => Source.assemble_eq_none (by simp [Source.wf, hn])
  · exact fun n k hn hk => ⟨_, _, toNat_ofNat_of_fits hn, toNat_ofNat_of_fits hk, assemble_is hn hk⟩
  · exact fun n k h => Source.assemble_eq_none (by
      simp only [Source.wf, Bool.and_eq_false_iff, decide_eq_false_iff_not]; omega)

end Sys2Proof

namespace Sys2Proof.Machine

/-! ### Illegal and ignored words -/

/-- Settles O6: a word no row accepts is illegal, and the gate on ERR stands before the decoder. -/
theorem illegalAndIgnoredWords : Obligations.IllegalAndIgnoredWords := by
  intro s w rest hh hr
  rw [step_cmd hh hr]
  constructor
  · intro he hrow
    obtain ⟨e, hd⟩ := decode_error_of_no_row hrow
    exact cmdWrite_illegal he hd
  · exact fun he h0 h1 => cmdWrite_ignored he h0 h1

end Sys2Proof.Machine
end

section
/-! The control commands (40_control.md): NOP leaves everything, CLEAR leaves what R102 lists, and reset is CLEAR with an empty
OUT and a zero DATA_IN (R103). -/

namespace Sys2Proof.Machine

/-! ### NOP -/

theorem exec_nop (s : State) : exec .nop s = .next s := rfl

/-- Settles O17: NOP's word runs its command whatever ERR holds, and the command answers its own state. -/
theorem nopChangesNothing : Obligations.NopChangesNothing := by
  refine ⟨exec_nop, fun s rest hh hr => ?_⟩
  have hrun : step s = exec .nop { s with host := rest } :=
    stepRunsDecodedCommand s _ .nop rest hh hr (decode_encode .nop) (.inr (.inl rfl))
  rw [hrun, exec_nop]

/-! ### CLEAR -/

theorem exec_clear (s : State) : exec .clear s = .next s.cleared := rfl

@[simp] theorem State.cleared_freqAt (s : State) (b : Byte) : s.cleared.freqAt b = 0 := tableAt_zeroTable b

@[simp] theorem State.cleared_codeAt (s : State) (b : Byte) : s.cleared.codeAt b = ⟨false, 0, 0⟩ := codeOf_blank b

/-- BUSY is the one field of STATUS that CLEAR does not write (R42, R101). -/
theorem State.cleared_status {s : State} (hb : s.busy = false) : s.cleared.status = 0 := by
  simp [State.status, hb, TreeState.code, HdrState.code, ErrCode.code]

@[simp] theorem State.cleared_treeInfo (s : State) : s.cleared.treeInfo = 0 := by simp [State.treeInfo]

@[simp] theorem State.cleared_atRoot (s : State) : s.cleared.atRoot = false := rfl

@[simp] theorem State.cleared_decInfo (s : State) : s.cleared.decInfo = 0 := by simp [State.decInfo]

/-- Settles O18: the cleared state has blank tables, and its three status registers show only fields that CLEAR zeroes. -/
theorem clearDiscardsTheInputState : Obligations.ClearDiscardsTheInputState := fun s =>
  ⟨s.cleared, exec_clear s, rfl, fun b => ⟨s.cleared_freqAt b, s.cleared_codeAt b⟩,
    fun hb => ⟨State.cleared_status hb, s.cleared_treeInfo, s.cleared_decInfo⟩⟩

/-! ### CLEAR against reset -/

/-- A reset event gives the block at its reset values, reset not asserted (R240, R241). -/
theorem step_reset {s : State} {rest : List HostEvent} (hh : s.host = .reset :: rest) (hr : s.inReset = false) :
    step s = .next ({ s with host := rest } : State).resetBlock := by
  have hreset : hostStep .reset { s with host := rest } =
      .next { ({ s with host := rest } : State).resetBlock with inReset := false } := rfl
  rw [step_cons hh, hreset, ← hr]
  rfl

/-- In an idle block, reset is CLEAR with OUT and DATA_IN reset too; what it leaves in the node records is not defined (R103,
R27). -/
theorem resetBlock_eq_cleared {s : State} (hb : s.busy = false) :
    s.resetBlock = { s.cleared with out := [], dataIn := 0, node := s.resetBlock.node } := by
  dsimp only
  rw [State.cleared_busy, hb]
  rfl

/-- A cleared state with OUT drained is a clean-entry state, whatever DATA_IN and the node records hold (R244). -/
theorem cleanEntry_cleared (s : State) (d : Word) (n : Vector NodeRec Config.nodeCap) :
    CleanEntry { s.cleared with out := [], dataIn := d, node := n } :=
  ⟨rfl, rfl, rfl, rfl, rfl, rfl, s.cleared_freqAt, rfl⟩

/-- Settles O19: the reset step and CLEAR give one state but for OUT, DATA_IN and the records, and clean entry asks only for an
empty OUT of these. -/
theorem clearAgainstReset : Obligations.ClearAgainstReset := by
  intro s rest hb hr hh
  have hu := resetBlock_eq_cleared (s := { s with host := rest }) hb
  refine ⟨_, _, exec_clear _, step_reset hh hr, hu, ?_, cleanEntry_cleared _ s.dataIn s.node⟩
  rw [hu]
  exact cleanEntry_cleared _ 0 _

end Sys2Proof.Machine
end

section
/-! The frequency table commands (41_frequency.md): COUNT and FREQ_WR first ask for a writable table, then for a value that
fits, and then write one entry; FREQ_RD shows an entry. From COUNT's effect, a counted string sums to its length (R111). -/

namespace Sys2Proof.Machine

/-! ### The writable table -/

/-- The guard of COUNT and FREQ_WR (R22, R212). -/
theorem freqWritable_iff {s : State} : s.freqWritable = true ↔ s.tree = .none ∧ s.hp = .idle := by
  simp [State.freqWritable]

theorem freqWritable_eq_false {s : State} (h : s.tree ≠ .none ∨ s.hp ≠ .idle) : s.freqWritable = false := by
  rw [← Bool.not_eq_true, freqWritable_iff, not_and_or]
  exact h

theorem freqAt_setFreq_self (s : State) (b : Byte) (v : Word) : (s.setFreq b v).freqAt b = v := by
  rw [freqAt_setFreq, if_pos rfl]

theorem freqAt_setFreq_of_ne (s : State) {b c : Byte} (h : c ≠ b) (v : Word) : (s.setFreq b v).freqAt c = s.freqAt c := by
  rw [freqAt_setFreq, if_neg h]

/-! ### COUNT -/

theorem exec_count_sequence (b : Byte) {s : State} (h : s.freqWritable = false) :
    exec (.count b) s = raise .sequence s := by
  simp [exec, execCount, h]

theorem exec_count_overflow {b : Byte} {s : State} (h : s.freqWritable = true) (hm : (s.freqAt b).toNat = s.freqMax) :
    exec (.count b) s = raise .overflow s := by
  simp [exec, execCount, h, hm]

theorem exec_count_next {b : Byte} {s : State} (h : s.freqWritable = true) (hm : (s.freqAt b).toNat ≠ s.freqMax) :
    exec (.count b) s = .next (s.setFreq b (s.freqAt b + 1)) := by
  simp [exec, execCount, h, hm]

/-- An entry below FREQ_MAX does not wrap when it is counted, whatever FREQ_WIDTH is. -/
theorem freqAt_succ_toNat {s : State} {b : Byte} (hle : (s.freqAt b).toNat ≤ s.freqMax)
    (hne : (s.freqAt b).toNat ≠ s.freqMax) : (s.freqAt b + 1).toNat = (s.freqAt b).toNat + 1 := by
  have := freqMax_lt s
  exact BitVec.toNat_add_of_lt (by rw [show (1 : Word).toNat = 1 from rfl]; omega)

/-- Settles O20: the guards of COUNT in their order, then the write of one entry, which FREQ_MAX keeps from wrapping. -/
theorem countAddsOne : Obligations.CountAddsOne := by
  intro b s hs he
  refine ⟨fun h => ?_, fun ht hp hm => ?_, fun ht hp hm => ?_⟩
  · rw [exec_count_sequence b (freqWritable_eq_false h), raise_of_noError he]
  · rw [exec_count_overflow (freqWritable_iff.2 ⟨ht, hp⟩) hm, raise_of_noError he]
  · refine ⟨_, exec_count_next (freqWritable_iff.2 ⟨ht, hp⟩) hm, rfl, ?_, fun c hc => freqAt_setFreq_of_ne s hc _⟩
    rw [freqAt_setFreq_self, freqAt_succ_toNat (hs.freq_le b) hm]

/-! ### A counted string -/

/-- The sum of FREQ over all symbols (R111). -/
def State.freqSum (s : State) : Nat := (symbols.map fun b => (s.freqAt b).toNat).sum

theorem State.cleared_freqSum (s : State) : s.cleared.freqSum = 0 :=
  List.sum_eq_zero fun n hn => by
    obtain ⟨b, _, rfl⟩ := List.mem_map.1 hn
    rw [State.cleared_freqAt]; rfl

/-- A write to one entry changes the sum by what it changes the entry. -/
theorem freqSum_setFreq (s : State) (b : Byte) (v : Word) :
    (s.setFreq b v).freqSum + (s.freqAt b).toNat = s.freqSum + v.toNat := by
  have := sum_update (f := fun c => ((s.setFreq b v).freqAt c).toNat) (g := fun c => (s.freqAt c).toNat) symbols_nodup
    (mem_symbols b) fun c hc => congrArg BitVec.toNat (freqAt_setFreq_of_ne s hc v)
  rwa [freqAt_setFreq_self] at this

/-- No run without CLEAR takes an error away (R218). -/
theorem execAll_err {is : List Instr} {s t : State} (hi : .clear ∉ is) (h : execAll is s = .next t) (ht : t.err = .none) :
    s.err = .none := by
  by_contra hs
  refine execAll_induct (P := fun u => u.err ≠ .none) (fun i hmem u v hu hx hv => ?_) hs h ht
  exact hu (exec_err (fun e => hi (e ▸ hmem)) hx hv).1

theorem clear_not_mem_counts (bs : List Byte) : .clear ∉ bs.map Instr.count := by simp

/-- A string counted with no error adds its length to the sum, from any table within FREQ_MAX: no command of it has raised, so
each has added one to an entry. -/
theorem freqSum_execAll_count {bs : List Byte} {s t : State} (hs : ∀ b, (s.freqAt b).toNat ≤ s.freqMax)
    (h : execAll (bs.map .count) s = .next t) (ht : t.err = .none) : t.freqSum = s.freqSum + bs.length := by
  induction bs generalizing s with
  | nil => cases h; rw [List.length_nil, Nat.add_zero]
  | cons b bs ih =>
    obtain ⟨u, hu, h⟩ := andThen_eq_next.1 h
    obtain ⟨_, _, _, hne, rfl⟩ := exec_err (i := .count b) nofun hu (execAll_err (clear_not_mem_counts bs) h ht)
    have hrest := ih (setFreq_le hs b (freqAt_succ_le hne (hs b))) h
    have hone := freqSum_setFreq s b (s.freqAt b + 1)
    rw [freqAt_succ_toNat (hs b) hne] at hone
    rw [List.length_cons]
    omega

/-- Settles O21: CLEAR leaves the sum 0, and the counted string adds its length. -/
theorem countsSumToTheirNumber : Obligations.CountsSumToTheirNumber := by
  intro s t bs h ht
  rw [execAll_cons, exec_clear, andThen_next] at h
  have hsum := freqSum_execAll_count (fun b => by simp) h ht
  rwa [State.cleared_freqSum, Nat.zero_add] at hsum

/-! ### FREQ_WR -/

theorem exec_freqWr_sequence (b : Byte) {s : State} (h : s.freqWritable = false) :
    exec (.freqWr b) s = raise .sequence s := by
  simp [exec, execFreqWr, h]

theorem exec_freqWr_overflow (b : Byte) {s : State} (h : s.freqWritable = true) (hm : s.freqMax < s.dataIn.toNat) :
    exec (.freqWr b) s = raise .overflow s := by
  simp [exec, execFreqWr, State.latchedOperand, h, hm]

/-- A value within FREQ_MAX is written whole: `V[FREQ_WIDTH-1:0]` cuts nothing off (R112). -/
theorem exec_freqWr_next (b : Byte) {s : State} (h : s.freqWritable = true) (hm : s.dataIn.toNat ≤ s.freqMax) :
    exec (.freqWr b) s = .next (s.setFreq b s.dataIn) := by
  simp [exec, execFreqWr, State.latchedOperand, h, Nat.not_lt.2 hm, freqBits_of_le hm]

/-- Settles O22: the guards of FREQ_WR in their order, then the write of DATA_IN to one entry. -/
theorem freqWrWritesDataIn : Obligations.FreqWrWritesDataIn := by
  intro b s he
  refine ⟨fun h => ?_, fun ht hp hm => ?_, fun ht hp hm => ?_⟩
  · rw [exec_freqWr_sequence b (freqWritable_eq_false h), raise_of_noError he]
  · rw [exec_freqWr_overflow b (freqWritable_iff.2 ⟨ht, hp⟩) hm, raise_of_noError he]
  · exact ⟨_, exec_freqWr_next b (freqWritable_iff.2 ⟨ht, hp⟩) hm, rfl, freqAt_setFreq_self s b _,
      fun c hc => freqAt_setFreq_of_ne s hc _⟩

/-! ### FREQ_RD -/

/-- Settles O23: FREQ_RD has no guard, so it answers the same way in every TREE and HP state. -/
theorem freqRdReadsTheEntry : Obligations.FreqRdReadsTheEntry := fun _ _ => rfl

end Sys2Proof.Machine
end

section
/-! The tree builder (42_tree_builder.md): BUILD_INIT makes and queues the leaves, MERGE_STEP merges the two least nodes, and
BUILD does both until one node is left. The invariant of the tree then gives the shape of a finished build (R131), and that
a build reads nothing but FREQ its determinism (R129). -/

namespace Sys2Proof.Machine

/-! ### Read-back -/

theorem exec_nodeRd_badArgument {idx : Idx} {sel : BitVec 2} {s : State} (h : s.nodeCount.toNat ≤ idx.toNat ∨ sel = 3) :
    exec (.nodeRd idx sel) s = raise .badArgument s := if_pos h

theorem exec_nodeRd_next {idx : Idx} {sel : BitVec 2} {s : State} (hi : idx.toNat < s.nodeCount.toNat) (hs : sel ≠ 3) :
    exec (.nodeRd idx sel) s = .next (s.setDataOut ((s.nodeAt idx).word sel)) :=
  if_neg (not_or.2 ⟨Nat.not_le.2 hi, hs⟩)

theorem NodeRec.word_zero (n : NodeRec) : n.word 0 = n.weight.extractLsb' 0 32 := by
  have hword : n.word 0 = n.weight.setWidth 32 := rfl
  rw [hword, BitVec.setWidth_eq_extractLsb' (by decide)]

/-- A weight has 40 bits, so its part above the low word fits a word. -/
theorem NodeRec.word_one_toNat (n : NodeRec) : (n.word 1).toNat = n.weight.toNat / 2 ^ 32 := by
  have hword : n.word 1 = (n.weight >>> 32).setWidth 32 := rfl
  have hlt := n.weight.isLt
  rw [hword, BitVec.toNat_setWidth, BitVec.toNat_ushiftRight, Nat.shiftRight_eq_div_pow, Nat.mod_eq_of_lt (by omega)]

/-- The fields of the word that SEL = 2 selects (R127). -/
theorem NodeRec.word_two_fields (n : NodeRec) :
    (n.word 2).getLsbD 31 = true ∧ (n.word 2).extractLsb' 30 1 = n.kind.code ∧ (n.word 2).extractLsb' 26 4 = 0 ∧
      (n.word 2).extractLsb' 17 9 = n.right ∧ (n.word 2).extractLsb' 8 9 = n.left ∧
      (n.word 2).extractLsb' 0 8 = n.symbol := by
  have hword : n.word 2 = 1#1 ++ n.kind.code ++ 0#4 ++ n.right ++ n.left ++ n.symbol := rfl
  rw [hword]
  refine ⟨getLsbD_of_extractLsb' (b := true) ?_, ?_, ?_, ?_, ?_, ?_⟩
  all_goals
    simp (disch := decide) only [BitVec.extractLsb'_append_eq_of_add_le, BitVec.extractLsb'_append_eq_of_le]
    exact BitVec.extractLsb'_eq_self

/-- Settles O27: the two guards of NODE_RD are one error, and behind them each SEL shows its part of the record. -/
theorem nodeRdReadsTheRecord : Obligations.NodeRdReadsTheRecord := by
  intro idx sel s he
  refine ⟨fun h => ?_, fun hi hs => ⟨_, exec_nodeRd_next hi hs, ?_, ?_, ?_⟩⟩
  · rw [exec_nodeRd_badArgument h, raise_of_noError he]
  · rintro rfl; exact NodeRec.word_zero _
  · rintro rfl; exact NodeRec.word_one_toNat _
  · rintro rfl; exact NodeRec.word_two_fields _

theorem exec_pqRd_badArgument {pos : Idx} {s : State} (h : s.pq.length ≤ pos.toNat) :
    exec (.pqRd pos) s = raise .badArgument s := by
  simp [exec, execPqRd, h]

theorem exec_pqRd_next {pos : Idx} {s : State} (h : pos.toNat < s.pq.length) :
    exec (.pqRd pos) s = .next (s.setDataOut (s.pq[pos.toNat].setWidth 32)) := by
  simp [exec, execPqRd, h]

/-- Settles O28: a position is either past the queue's end or names an entry. -/
theorem pqRdReadsThePosition : Obligations.PqRdReadsThePosition := by
  intro pos s he
  refine ⟨fun h => ?_, fun h => exec_pqRd_next h⟩
  rw [exec_pqRd_badArgument h, raise_of_noError he]

/-! ### BUILD_INIT -/

theorem exec_buildInit_sequence {s : State} (h : s.headerClosed = false) : exec .buildInit s = raise .sequence s := by
  simp [exec, execBuildInit, h]

theorem exec_buildInit_next {s : State} (h : s.headerClosed = true) : exec .buildInit s = .next s.buildInit := by
  simp [exec, execBuildInit, h]

/-- The symbols with non-zero frequency, ascending: the ones that BUILD_INIT makes leaves of (R122). -/
def State.leafSymbols (s : State) : List Byte := symbols.filter fun b => s.freqAt b ≠ 0

theorem leaves_eq_map (s : State) :
    s.leaves = s.leafSymbols.map fun b => ⟨.leaf, b, (s.freqAt b).setWidth 40, 0, 0⟩ := by
  rw [State.leaves, listed_eq, List.map_map]
  rfl

theorem leafSymbols_length (s : State) : s.leafSymbols.length = s.leaves.length := by
  rw [leaves_eq_map, List.length_map]

theorem leafSymbols_length_lt (s : State) : s.leafSymbols.length < 512 := by
  have := leaves_length_le s
  rw [leafSymbols_length]; omega

theorem buildInit_nodeCount_eq (s : State) : s.buildInit.nodeCount = BitVec.ofNat 9 s.leafSymbols.length := by
  rw [leafSymbols_length]; rfl

theorem buildInit_tree_eq (s : State) : s.buildInit.tree = treeAfterInit s.leafSymbols.length := by
  rw [leafSymbols_length]; rfl

/-- BUILD_INIT writes the records of its leaves and no other. -/
theorem buildInit_nodeAt_of_le (s : State) {i : Idx} (h : s.leaves.length ≤ i.toNat) :
    s.buildInit.nodeAt i = s.nodeAt i := by
  have hle := leaves_length_le s
  have hw := writeNodes_at s.node 0 s.leaves i (by omega)
  rwa [dif_neg (by omega)] at hw

/-- Every record after BUILD_INIT (R122). -/
theorem buildInit_nodeAt_eq (s : State) (i : Idx) :
    s.buildInit.nodeAt i = if h : i.toNat < s.leafSymbols.length
      then ⟨.leaf, s.leafSymbols[i.toNat], (s.freqAt s.leafSymbols[i.toNat]).setWidth 40, 0, 0⟩ else s.nodeAt i := by
  split
  · rename_i h
    rw [buildInit_nodeAt s i (leafSymbols_length s ▸ h)]
    simp only [leaves_eq_map, List.getElem_map]
  · rename_i h
    exact buildInit_nodeAt_of_le s (leafSymbols_length s ▸ Nat.not_lt.1 h)

theorem buildInit_pq_perm (s : State) : s.buildInit.pq.Perm (indicesBelow s.leafSymbols.length) := by
  rw [leafSymbols_length]; exact (buildInit_queue s).1

/-- The fields that BUILD_INIT writes (R122). -/
theorem buildInit_frame (s : State) : s.buildInit = { s with
    node := s.buildInit.node, nodeCount := BitVec.ofNat 9 s.leafSymbols.length,
    leafCount := BitVec.ofNat 9 s.leafSymbols.length, pq := s.buildInit.pq, rootIdx := 0, decCur := 0, codesValid := false,
    codes := s.buildInit.codes, tree := s.buildInit.tree } := by
  rw [← buildInit_nodeCount_eq]; rfl

/-- Settles O24: the guard on the parser, and then the leaves by index, the queue they make and TREE by their number. -/
theorem buildInitMakesTheLeaves : Obligations.BuildInitMakesTheLeaves := by
  intro s he
  refine ⟨fun h => ?_, fun h => ⟨_, exec_buildInit_next h, buildInit_frame s, ?_, buildInit_nodeAt_eq s, buildInit_pq_perm s,
    (buildInit_queue s).2, codeOf_blank, fun h0 => ?_, fun h1 => ?_, fun h2 => ?_⟩⟩
  · rw [exec_buildInit_sequence h, raise_of_noError he]
  · rw [buildInit_nodeCount_eq]; exact toNat_ofNat_idx (leafSymbols_length_lt s)
  · rw [buildInit_tree_eq]; exact treeAfterInit_empty.2 h0
  · rw [buildInit_tree_eq]; exact treeAfterInit_built.2 h1
  · rw [buildInit_tree_eq]; exact treeAfterInit_building.2 h2

/-! ### MERGE_STEP -/

theorem exec_mergeStep_sequence {s : State} (h : s.tree ≠ .building) : exec .mergeStep s = raise .sequence s := if_pos h

theorem exec_mergeStep_building {s : State} (h : s.tree = .building) : exec .mergeStep s = mergeOnce s :=
  if_neg (not_not.2 h)

theorem repSymbol_of_weight_eq {f g : NodeRec} (h : g.weight = f.weight) : repSymbol f g = f.symbol := if_pos h

theorem repSymbol_of_weight_ne {f g : NodeRec} (h : g.weight ≠ f.weight) :
    (repSymbol f g).toNat = max f.symbol.toNat g.symbol.toNat := by
  rw [repSymbol, if_neg h]
  split
  · rename_i hle; exact (Nat.max_eq_right hle).symm
  · rename_i hlt; exact (Nat.max_eq_left (Nat.le_of_not_le hlt)).symm

/-- A sum of weights that fits WEIGHT_WIDTH does not wrap in the 40 bits it is held in. -/
theorem weight_add_toNat {s : State} {v w : Weight} (h : v.toNat + w.toNat < 2 ^ s.weightWidth) :
    (v + w).toNat = v.toNat + w.toNat := by
  have hwidth : s.weightWidth ≤ 40 := by have := s.freqWidth.le; unfold State.weightWidth; omega
  exact BitVec.toNat_add_of_lt (h.trans_le (Nat.pow_le_pow_right (by decide) hwidth))

theorem merged_nodeAt_new (s : State) (a b : Idx) (rest : List Idx) (hn : s.nodeCount.toNat < 511) :
    (s.merged a b rest).nodeAt s.nodeCount = mergedNode a b (s.nodeAt a) (s.nodeAt b) := by
  rw [merged_nodeAt s a b rest _ hn, if_pos rfl]

theorem merged_nodeAt_of_ne (s : State) (a b : Idx) (rest : List Idx) (hn : s.nodeCount.toNat < 511) {i : Idx}
    (hi : i ≠ s.nodeCount) : (s.merged a b rest).nodeAt i = s.nodeAt i := by
  rw [merged_nodeAt s a b rest _ hn, if_neg hi]

/-- A merge with other entries left goes on building and leaves the tree registers as they are (R124). -/
theorem merged_of_rest_ne_nil (s : State) (a b : Idx) {rest : List Idx} (h : rest ≠ []) :
    (s.merged a b rest).tree = s.tree ∧ (s.merged a b rest).rootIdx = s.rootIdx ∧ (s.merged a b rest).decCur = s.decCur := by
  obtain ⟨c, rest, rfl⟩ := List.exists_cons_of_ne_nil h
  exact merged_more s a b c rest

/-- Settles O25: under the invariants the merge meets no fault, and its record is the new one at NODE_COUNT. -/
theorem mergeStepMergesTheTwoLeast : Obligations.MergeStepMergesTheTwoLeast := by
  intro s hs ht he
  refine ⟨fun hb => ?_, fun hb => ?_⟩
  · rw [exec_mergeStep_sequence hb, raise_of_noError he]
  · obtain ⟨a, b, rest, hq, hw, hm⟩ := ht.mergeOnce hs.freq_le hb
    have hn := ht.nodeCount_lt hb
    refine ⟨a, b, rest, s.merged a b rest, hq, (exec_mergeStep_building hb).trans hm, merged_frame s a b rest, ?_,
      fun i => merged_nodeAt_of_ne s a b rest hn, ?_⟩
    · rw [State.merged_nodeCount, nodeCount_succ hn]
    rw [merged_nodeAt_new s a b rest hn]
    refine ⟨rfl, weight_add_toNat hw, rfl, rfl, repSymbol_of_weight_eq, repSymbol_of_weight_ne, merged_pq_perm s a b rest,
      (merged_treeInv ht hb hq hw).pq_sorted, ?_, fun hr => ?_⟩
    · rintro rfl
      obtain ⟨htree, hroot, hcur, _⟩ := merged_last s a b
      exact ⟨htree, hroot, hcur⟩
    · rw [← hb]; exact merged_of_rest_ne_nil s a b hr

/-! ### BUILD -/

theorem exec_build_sequence {s : State} (h : s.headerClosed = false) : exec .build s = raise .sequence s := by
  simp [exec, execBuild, h]

theorem exec_build_loop {s : State} (h : s.headerClosed = true) : exec .build s = mergeLoop 255 s.buildInit := by
  simp [exec, execBuild, h]

/-- The fields that BUILD writes: BUILD_INIT's, which the fields of a merge are among (R126). -/
theorem build_frame {n : Nat} {s t : State} (h : mergeLoop n s.buildInit = .next t) :
    t = { s with node := t.node, nodeCount := t.nodeCount, leafCount := t.leafCount, pq := t.pq, rootIdx := t.rootIdx,
                 decCur := t.decCur, codesValid := false, codes := t.codes, tree := t.tree } := by
  rw [mergeLoop_frame h]; rfl

/-- Settles O26: the loop finishes what BUILD_INIT leaves, and as many MERGE_STEP commands give the same state. -/
theorem buildIsInitThenMerges : Obligations.BuildIsInitThenMerges := by
  intro s hs he
  refine ⟨fun h => ?_, fun h => ?_⟩
  · rw [exec_build_sequence h, raise_of_noError he]
  · obtain ⟨t, hloop, _, htree, hmerges⟩ := build_finishes hs.freq_le
    refine ⟨t, (exec_build_loop h).trans hloop, htree, build_frame hloop, ?_⟩
    rw [← leafSymbols_length] at hmerges
    rw [execAll_cons, exec_buildInit_next h]
    exact hmerges

/-! ### A finished build -/

/-- What a BUILD leaves: a finished tree that meets the invariant, made of the leaves of the FREQ it started from, with the
decoder at its root (R35, R131). -/
structure BuildOf (s t : State) : Prop where
  inv : TreeInv t
  finished : t.tree = .empty ∨ t.tree = .built
  leaves : t.leaves = s.leaves
  leafCount : t.leafCount.toNat = s.leafSymbols.length
  cursor : t.tree = .built → t.decCur = t.rootIdx

theorem buildOf_of_exec {s t : State} (hs : HeaderInv s) (hc : s.headerClosed = true) (h : exec .build s = .next t) :
    BuildOf s t := by
  rw [exec_build_loop hc] at h
  obtain ⟨t', hloop, hinv, hfin, _⟩ := build_finishes hs.freq_le
  obtain rfl : t = t' := Host.Outcome.next.inj (h.symm.trans hloop)
  have hleaves : t.leaves = s.leaves := by rw [mergeLoop_frame h]; rfl
  refine ⟨hinv, hfin, hleaves, ?_, mergeLoop_cursor (fun _ => rfl) h⟩
  rw [hinv.leaf_count (by rcases hfin with hf | hf <;> rw [hf] <;> decide), hleaves, leafSymbols_length]

section
variable {s t : State} (h : BuildOf s t)
include h

theorem BuildOf.empty_of_no_leaf (hn : s.leafSymbols.length = 0) : t.tree = .empty := by
  refine h.finished.resolve_right fun hb => ?_
  have hpos := (h.inv.built_counts hb).1
  have := h.leafCount
  omega

theorem BuildOf.built_of_leaf (hn : 1 ≤ s.leafSymbols.length) : t.tree = .built := by
  refine h.finished.resolve_left fun he => ?_
  have hzero := (h.inv.empty_shape he).2.2
  have hcount := h.leafCount
  rw [hzero, show (0 : Idx).toNat = 0 from rfl] at hcount
  omega

/-- The first records are the leaves in ascending symbol order (R131). -/
theorem BuildOf.leaf (hb : t.tree = .built) {i : Idx} (hi : i.toNat < s.leafSymbols.length) :
    (t.nodeAt i).kind = .leaf ∧ some (t.nodeAt i).symbol = s.leafSymbols[i.toNat]? := by
  obtain ⟨_, hrec⟩ := h.inv.leaf_kind (by rw [hb]; decide) (h.leafCount ▸ hi)
  simp only [hrec, h.leaves, leaves_eq_map, List.getElem_map, List.getElem?_eq_getElem hi, and_self]

end

/-- A symbol with frequency zero adds nothing to the sum of FREQ, so the leaves weigh the whole of it. -/
theorem leaves_sum_eq_freqSum (s : State) : (s.leaves.map fun n => n.weight.toNat).sum = s.freqSum := by
  have hweights : (s.leaves.map fun n => n.weight.toNat) = s.leafSymbols.map fun b => (s.freqAt b).toNat := by
    rw [leaves_eq_map, List.map_map]
    exact List.map_congr_left fun b _ => BitVec.toNat_setWidth_of_le (by decide)
  have hskip : ∀ b ∈ symbols, decide (s.freqAt b ≠ 0) = ((s.freqAt b).toNat != 0) := fun b _ => by
    rw [Bool.eq_iff_iff]; simp [← BitVec.toNat_inj]
  have hsum := List.sum_filter_bne_zero (symbols.map fun b => (s.freqAt b).toNat)
  rw [List.filter_map] at hsum
  rw [hweights, State.leafSymbols, List.filter_congr hskip]
  exact hsum

/-- The root is the one queued node, so it has all of the queued weight, which merging keeps (R131). -/
theorem BuildOf.root_weight {s t : State} (h : BuildOf s t) (hb : t.tree = .built) :
    (t.nodeAt t.rootIdx).weight.toNat = s.freqSum := by
  have hsum := h.inv.pq_weight (by rw [hb]; decide)
  rw [h.inv.built_queue hb, h.leaves, leaves_sum_eq_freqSum] at hsum
  simpa using hsum

/-- Settles O29, from the invariant of a finished tree and the leaves it was built from. -/
theorem finishedBuildShape : Obligations.FinishedBuildShape := by
  intro s t hs _ hc hx
  have h := buildOf_of_exec hs hc hx
  refine ⟨fun h0 => ?_, fun h1 => ?_⟩
  · have ht := h.empty_of_no_leaf h0
    obtain ⟨hcount, hq, _⟩ := h.inv.empty_shape ht
    exact ⟨hcount, hq, ht⟩
  · have hb := h.built_of_leaf h1
    have hne : t.tree ≠ .none := by rw [hb]; decide
    obtain ⟨_, hcount, _⟩ := h.inv.built_counts hb
    have hroot := h.inv.built_root hb
    rw [h.leafCount] at hcount
    rw [hcount, Nat.sub_sub] at hroot
    refine ⟨hb, hcount, hroot, h.inv.built_queue hb, h.cursor hb, h.root_weight hb, fun i => h.leaf hb, fun i hge hlt => ?_⟩
    exact (h.inv.kind_internal_iff hne hlt).2 (h.leafCount ▸ hge)

/-- Settles O30: each record but the root has one parent, so the path up to the root exists and is the only one. -/
theorem everyLeafIsReachedOnce : Obligations.EveryLeafIsReachedOnce := by
  intro s i ht hb hi
  obtain ⟨path, hpath⟩ := ht.reached hb (hi.trans_le ht.leafCount_le_nodeCount)
  exact ⟨path, hpath, fun q hq => ht.path_unique (by rw [hb]; decide) hq hpath⟩

/-- Settles O31: BUILD_INIT leaves the same tree from the same FREQ, and each merge keeps two trees the same. -/
theorem buildIsDeterministic : Obligations.BuildIsDeterministic := by
  intro s s' t t' _ hf hw _ _ hc hc' hx hx'
  rw [exec_build_loop hc] at hx
  rw [exec_build_loop hc'] at hx'
  obtain ⟨u, hu, hsame⟩ := mergeLoop_same (buildInit_same hf.symm hw.symm) hx
  obtain rfl : t' = u := Host.Outcome.next.inj (hx'.symm.trans hu)
  exact ⟨hsame.nodeCount.symm, fun i hi => (hsame.recs i hi).symm, hsame.pq.symm, hsame.rootIdx.symm, hsame.tree?.symm⟩

end Sys2Proof.Machine
end

section
/-! The code generator: GEN_CODES records the path to each leaf; the codes so recorded are bounded in length, none goes on from
another, and together they use up the whole code space; CODE_INFO and CODE_RD show them. -/

namespace Sys2Proof.Machine

/-! ### Paths from the root of a finished tree -/

/-- The root of a tree with two or more leaves is the last record, and so an internal one (R131). -/
theorem TreeInv.root_kind_internal {s : State} (h : TreeInv s) (hb : s.tree = .built) (hn : 2 ≤ s.leafCount.toNat) :
    (s.nodeAt s.rootIdx).kind = .internal := by
  obtain ⟨_, hcount, hlt⟩ := h.built_counts hb
  have hroot := h.built_root hb
  exact (h.kind_internal_iff (by rw [hb]; decide) hlt).2 (by omega)

/-- The root stands n - 1 records above the leaves and n is at most 256, so no path from it is longer than 255 (R153). -/
theorem TreeInv.root_path_length_le {s : State} (h : TreeInv s) (hb : s.tree = .built) {q : List Bool} {i : Idx}
    (hq : s.follow q s.rootIdx = some i) : q.length ≤ 255 := by
  have hlen := h.follow_length (by rw [hb]; decide) hq
  obtain ⟨_, hcount, _⟩ := h.built_counts hb
  have hroot := h.built_root hb
  have hle := h.leafCount_le
  omega

/-- From the root, two paths to leaves of one symbol are one path: its leaf is one record, and that has one path (R130). -/
theorem TreeInv.leaf_path_unique {s : State} (h : TreeInv s) (hb : s.tree = .built) {q r : List Bool} {i j : Idx}
    (hq : s.follow q s.rootIdx = some i) (hi : (s.nodeAt i).kind = .leaf) (hr : s.follow r s.rootIdx = some j)
    (hj : (s.nodeAt j).kind = .leaf) (hs : (s.nodeAt i).symbol = (s.nodeAt j).symbol) : q = r := by
  have hne : s.tree ≠ .none := by rw [hb]; decide
  obtain ⟨_, _, hroot⟩ := h.built_counts hb
  obtain rfl := h.leaf_symbol_inj hne (h.follow_defined hne hroot hq) hi (h.follow_defined hne hroot hr) hj hs
  exact h.path_unique hne hq hr

/-- A path that begins with the path to a leaf leads to that leaf. -/
theorem follow_eq_of_leaf_path {s : State} {q r : List Bool} {i j k : Idx} (hq : s.follow q i = some j)
    (hj : (s.nodeAt j).kind = .leaf) (hr : s.follow r i = some k) (hqr : q <+: r) : k = j := by
  obtain ⟨u, rfl⟩ := hqr
  obtain ⟨j', hj', hu⟩ := follow_append.1 hr
  obtain rfl : j = j' := Option.some.inj (hq.symm.trans hj')
  exact (follow_leaf hj hu).2

/-! ### GEN_CODES -/

theorem buildFinished_iff {s : State} : s.buildFinished = true ↔ s.tree = .empty ∨ s.tree = .built := by
  simp [State.buildFinished]

theorem exec_genCodes_sequence {s : State} (h : s.buildFinished = false) : exec .genCodes s = raise .sequence s := by
  simp [exec, execGenCodes, h]

theorem exec_genCodes_next {s : State} {c : Vector CodeEntry Config.nsym} (h : s.buildFinished = true)
    (hg : s.generatedCodes = .ok c) : exec .genCodes s = .next { s with codes := c, codesValid := true } := by
  simp [exec, execGenCodes, h, hg]

/-- The empty tree has no codes (R155). -/
theorem generatedCodes_of_empty {s : State} (h : s.tree = .empty) : s.generatedCodes = .ok blankCodes :=
  if_neg (by rw [h]; decide)

/-- The symbol of a leaf gets the entry of the path to that leaf, which is the only one (R150, R152). -/
theorem TreeInv.generatedCodes_leaf {s : State} (h : TreeInv s) (hb : s.tree = .built) {c : Vector CodeEntry Config.nsym}
    (hg : s.generatedCodes = .ok c) {q : List Bool} {i : Idx} (hq : s.follow q s.rootIdx = some i)
    (hi : (s.nodeAt i).kind = .leaf) : codeOf c (s.nodeAt i).symbol = entryOfPath q := by
  rcases generatedCodes_spec hb hg (s.nodeAt i).symbol with ⟨r, j, hr, hj, hs, he⟩ | ⟨hno, _⟩
  · rw [he, h.leaf_path_unique hb hr hj hq hi hs]
  · exact absurd rfl (hno q i hq hi)

/-- A symbol that no leaf carries gets no code (R150). -/
theorem generatedCodes_of_no_leaf {s : State} (hb : s.tree = .built) {c : Vector CodeEntry Config.nsym}
    (hg : s.generatedCodes = .ok c) {b : Byte}
    (hno : ∀ q i, s.follow q s.rootIdx = some i → (s.nodeAt i).kind = .leaf → (s.nodeAt i).symbol ≠ b) :
    codeOf c b = ⟨false, 0, 0⟩ := by
  rcases generatedCodes_spec hb hg b with ⟨q, i, hq, hi, hs, _⟩ | ⟨_, he⟩
  · exact absurd hs (hno q i hq hi)
  · exact he

/-- Settles O32: the walk meets no fault, and what it records for a leaf's symbol is the entry of the leaf's only path. -/
theorem genCodesRecordsRootPaths : Obligations.GenCodesRecordsRootPaths := by
  intro s h he
  refine ⟨fun ht => ?_, fun ht => ?_, fun hb => ?_⟩
  · have hf : s.buildFinished = false := ht.elim buildFinished_of_none buildFinished_of_building
    rw [exec_genCodes_sequence hf, raise_of_noError he]
  · exact ⟨_, exec_genCodes_next (buildFinished_iff.2 (.inl ht)) (generatedCodes_of_empty ht), rfl, codeOf_blank⟩
  · obtain ⟨c, hg⟩ := h.generatedCodes_ok
    refine ⟨_, exec_genCodes_next (buildFinished_iff.2 (.inr hb)) hg, rfl, fun path i hp hi => ?_,
      fun b => generatedCodes_of_no_leaf hb hg⟩
    have hlen := h.root_path_length_le hb hp
    rw [codeAt_eq, h.generatedCodes_leaf hb hg hp hi]
    exact ⟨rfl, entryOfPath_len hlen, entryOfPath_bit hlen⟩

/-! ### Lengths, branching and Kraft's equality -/

/-- Settles O33: a code is as long as the path to its leaf, and that path is empty only where the root is a leaf. -/
theorem codeLengthsAreBounded : Obligations.CodeLengthsAreBounded := by
  intro s b h hv hb
  obtain ⟨ht, q, i, hq, hi, _, hle, he, _⟩ := valid_entry h.tree h.codes hv hb
  have hlen : (s.codeAt b).len.toNat = q.length := by rw [he, entryOfPath_len (h.tree.root_path_length_le ht hq)]
  refine ⟨fun hn => ⟨?_, hlen ▸ hle⟩, fun hn => ?_⟩
  · rw [hlen]
    refine List.length_pos_iff.2 ?_
    rintro rfl
    obtain rfl : s.rootIdx = i := Option.some.inj hq
    rw [h.tree.root_kind_internal ht hn] at hi
    cases hi
  · have hz : q.length = 0 := by omega
    exact BitVec.eq_of_toNat_eq (hlen.trans hz)

/-- Settles O36: a leaf has no path going on from it, so the codes of two leaves part. -/
theorem codesArePrefixFree : Obligations.CodesArePrefixFree := by
  intro s b c h hv hb hc hbc hpre
  obtain ⟨_, q, i, hq, hi, rfl, _, _, hpb⟩ := valid_entry h.tree h.codes hv hb
  obtain ⟨_, r, j, hr, _, rfl, _, _, hpc⟩ := valid_entry h.tree h.codes hv hc
  rw [hpb, hpc] at hpre
  rw [follow_eq_of_leaf_path hq hi hr hpre] at hbc
  exact hbc rfl

/-- The walk from the root starts in the blank table at depth 0, so it adds the whole of 2^255. -/
theorem TreeInv.generatedCodes_kraftSum {s : State} (h : TreeInv s) (hb : s.tree = .built)
    {c : Vector CodeEntry Config.nsym} (hg : s.generatedCodes = .ok c) : kraftSum c = 2 ^ 255 := by
  obtain ⟨_, hcount, hlt⟩ := h.built_counts hb
  have hroot := h.built_root hb
  have hle := h.leafCount_le
  rw [State.generatedCodes, if_pos hb] at hg
  have hsum := h.walk_kraft (by rw [hb]; decide) hlt (by rw [List.length_nil]; omega) hg fun _ _ _ _ => by rw [codeOf_blank]
  rwa [kraftSum_blank, Nat.zero_add] at hsum

/-- Settles O37: with a leaf the finished tree is not empty, and the code table is what the walk of it records. -/
theorem codesMeetKraftEquality : Obligations.CodesMeetKraftEquality := by
  intro s h hv hn
  obtain ⟨hf, hg⟩ := h.codes.valid hv
  have hb : s.tree = .built := by
    refine (buildFinished_iff.1 hf).resolve_left fun he => ?_
    obtain ⟨_, _, hzero⟩ := h.tree.empty_shape he
    rw [hzero] at hn
    exact absurd hn (by decide)
  exact h.tree.generatedCodes_kraftSum hb hg

/-! ### CODE_INFO and CODE_RD -/

theorem exec_codeInfo_sequence (b : Byte) {s : State} (h : s.codesValid = false) :
    exec (.codeInfo b) s = raise .sequence s := by
  simp [exec, execCodeInfo, h]

theorem exec_codeInfo_next (b : Byte) {s : State} (h : s.codesValid = true) :
    exec (.codeInfo b) s = .next (s.setDataOut (s.codeAt b).info) := by
  simp [exec, execCodeInfo, h]

/-- The fields of the word of CODE_INFO (R156). -/
theorem CodeEntry.info_fields (e : CodeEntry) :
    e.info.getLsbD 31 = e.valid ∧ e.info.extractLsb' 8 23 = 0 ∧ e.info.extractLsb' 0 8 = e.len := by
  unfold CodeEntry.info
  refine ⟨getLsbD_of_extractLsb' ?_, ?_, ?_⟩
  all_goals
    simp (disch := decide) only [BitVec.extractLsb'_append_eq_of_add_le, BitVec.extractLsb'_append_eq_of_le]
    exact BitVec.extractLsb'_eq_self

/-- Settles O34: the guard on CODES_VALID, and behind it the word with its three fields. -/
theorem codeInfoReadsPresenceAndLength : Obligations.CodeInfoReadsPresenceAndLength := by
  intro b s he
  refine ⟨fun h => ?_, fun h => ⟨_, exec_codeInfo_next b h, (s.codeAt b).info_fields⟩⟩
  rw [exec_codeInfo_sequence b h, raise_of_noError he]

theorem exec_codeRd_sequence (b : Byte) (c : BitVec 3) {s : State} (h : s.codesValid = false) :
    exec (.codeRd b c) s = raise .sequence s := by
  simp [exec, execCodeRd, h]

theorem exec_codeRd_next (b : Byte) (c : BitVec 3) {s : State} (h : s.codesValid = true) :
    exec (.codeRd b c) s = .next (s.setDataOut ((s.codeAt b).chunk c)) := by
  simp [exec, execCodeRd, h]

theorem CodeEntry.bitAt_eq_ite (e : CodeEntry) (k : Nat) :
    e.bitAt k = if k < e.len.toNat then e.bits.getLsbD k else false := by
  by_cases hk : k < e.len.toNat <;> simp [CodeEntry.bitAt, hk]

/-- Bit j of chunk c is code character 32c + j (R157, R69). -/
theorem CodeEntry.chunk_getLsbD (e : CodeEntry) (c : BitVec 3) {j : Nat} (hj : j < 32) :
    (e.chunk c).getLsbD j = e.bitAt (32 * c.toNat + j) := by
  rw [CodeEntry.chunk, ofBits_getLsbD, decide_eq_true hj, Bool.true_and, List.getD_eq_getElem _ _ (by simpa using hj),
    List.getElem_map, List.getElem_range]

/-- Settles O35: the guard on CODES_VALID, and behind it the chunk bit by bit. -/
theorem codeRdReadsAChunk : Obligations.CodeRdReadsAChunk := by
  intro b c s he
  refine ⟨fun h => ?_, fun h => ⟨_, exec_codeRd_next b c h, fun j hj => ?_⟩⟩
  · rw [exec_codeRd_sequence b c h, raise_of_noError he]
  · rw [CodeEntry.chunk_getLsbD _ c hj, CodeEntry.bitAt_eq_ite]

end Sys2Proof.Machine
end

section
/-! The header codec (44_header_codec.md): HDR_ENC writes the pairs of FREQ as decimal text, HDR_CHAR reads a header line byte
by byte, and what HDR_ENC wrote is read back as the same table (R180). -/

namespace Sys2Proof.Machine

/-! ### Decimal text -/

theorem isDigit_iff {b : Byte} : isDigit b = true ↔ 0x30 ≤ b.toNat ∧ b.toNat ≤ 0x39 := by
  simp [isDigit]

/-- A number below 10^m has at most m digits, with more fuel as well. -/
theorem digitsOf_length_le {n m v : Nat} (hm : 0 < m) (h : v < 10 ^ m) : (digitsOf n v).length ≤ m := by
  induction n generalizing m v with
  | zero => exact Nat.zero_le m
  | succ n ih =>
    obtain ⟨k, rfl⟩ : ∃ k, m = k + 1 := ⟨m - 1, by omega⟩
    unfold digitsOf
    split
    · simp
    · rename_i hv
      have hk : 0 < k := Nat.pos_of_ne_zero fun hk => hv (by simpa [hk] using h)
      have hrest := ih hk (Nat.div_lt_of_lt_mul (by rwa [← Nat.pow_succ']))
      rw [List.length_append, List.length_singleton]
      omega

/-- Settles O39: the digits are written from the last to the first, until a single one is left. -/
theorem decimalFormIsCanonical : Obligations.DecimalFormIsCanonical := by
  intro v hv
  refine ⟨fun c hc => isDigit_iff.1 (digitsOf_digits c hc), List.length_pos_of_ne_nil (digitsOf_ne_nil (by decide)),
    digitsOf_length, fun h => digitsOf_length_le (by decide) (by omega), digitsOf_head (by omega), ?_, ?_⟩
  · rintro rfl; rfl
  · rw [← valueFrom_eq_foldl]; exact digitsOf_value (by omega)

/-! ### HDR_ENC -/

theorem exec_hdrEnc_sequence {s : State} (h : s.headerClosed = false) : exec .hdrEnc s = raise .sequence s := by
  simp [exec, execHdrEnc, h]

theorem exec_hdrEnc_next {s : State} (h : s.headerClosed = true) :
    exec .hdrEnc s = .next (s.emit (headerText s.freq)) := by
  simp [exec, execHdrEnc, h]

theorem pairsText_eq_intercalate (ps : List (Byte × Word)) : pairsText ps = [charSp].intercalate (ps.map pairText) := by
  induction ps using pairsText.induct with
  | case1 => rfl
  | case2 p => simp [pairsText]
  | case3 p q ps ih => simp [pairsText, ih]

/-- Settles O38: the guard on the parser, and behind it the text of the listed pairs, which stand in symbol order. -/
theorem hdrEncAppendsTheHeader : Obligations.HdrEncAppendsTheHeader := by
  intro s he
  refine ⟨fun h => ?_, fun h => ⟨_, exec_hdrEnc_next h, ?_⟩⟩
  · rw [exec_hdrEnc_sequence h, raise_of_noError he]
  · rw [headerText, pairsText_eq_intercalate, listed_eq, List.map_map]; rfl

/-! ### The round trip -/

theorem execAll_clear_cons (is : List Instr) (s : State) : execAll (.clear :: is) s = execAll is s.cleared := by
  rw [execAll_cons, exec_clear, andThen_next]

/-- Settles O44: CLEAR puts the parser at its start and keeps FREQ_WIDTH, so the parser takes the line for the table it was
written from. -/
theorem headerRoundTrip : Obligations.HeaderRoundTrip := by
  intro s t hs he hc h
  obtain rfl : s.emit (headerText s.freq) = t := by rwa [exec_hdrEnc_next hc, Host.Outcome.next.injEq] at h
  obtain ⟨sym, hparse⟩ := parse_header (t := s.freq) (s := (s.emit (headerText s.freq)).cleared) rfl rfl rfl hs.freq_le
  exact ⟨headerText s.freq, _, rfl, (execAll_clear_cons _ _).trans hparse, rfl, rfl, fun _ => rfl⟩

/-! ### HDR_CHAR: the first byte and a symbol token -/

theorem exec_hdrChar_sequence (b : Byte) {s : State} (h : s.tree ≠ .none ∨ s.hp = .done) :
    exec (.hdrChar b) s = raise .sequence s := by
  rcases h with h | h <;> simp [exec, execHdrChar, h]

/-- `dv` of R172 as the word `B - 0x30`. -/
theorem ofNat_digitValue {b : Byte} (h : isDigit b = true) : BitVec.ofNat 32 (digitValue b) = b.setWidth 32 - 0x30 := by
  rw [isDigit_iff] at h
  unfold digitValue
  bv_omega

theorem hdrIdle_digit {b : Byte} (s : State) (hd : isDigit b = true) :
    hdrIdle b s = .next { s with freq := zeroTable, hacc := b.setWidth 32 - 0x30, hp := .sym } := by
  rw [hdrIdle, if_pos hd, ofNat_digitValue hd]

theorem hdrIdle_lf (s : State) : hdrIdle charLf s = .next { s with freq := zeroTable, hacc := 0, hp := .done } := rfl

theorem hdrIdle_malformed {b : Byte} (s : State) (hd : isDigit b = false) (hb : b ≠ charLf) :
    hdrIdle b s = raise .malformedHeader s := by
  simp [hdrIdle, hd, hb]

/-- Settles O40: behind the guards on the build and on the parser, the first byte is a digit, an LF or neither. -/
theorem hdrCharFirstByte : Obligations.HdrCharFirstByte := by
  intro b s he
  refine ⟨fun h => ?_, fun ht hp => ?_⟩
  · rw [exec_hdrChar_sequence b h, raise_of_noError he]
  · rw [execHdrChar_idle ht hp]
    refine ⟨fun hd => ⟨_, hdrIdle_digit s hd, rfl, tableAt_zeroTable⟩, ?_, fun hd hb => ?_⟩
    · rintro rfl
      exact ⟨_, hdrIdle_lf s, rfl, tableAt_zeroTable⟩
    · rw [hdrIdle_malformed s hd hb, raise_of_noError he]

theorem hdrSym_outOfRange {b : Byte} {s : State} (hd : isDigit b = true) (h : 255 < s.accumulate b) :
    hdrSym b s = raise .malformedHeader s := by
  simp [hdrSym, hd, h]

theorem hdrSym_digit {b : Byte} {s : State} (hd : isDigit b = true) (h : s.accumulate b ≤ 255) :
    hdrSym b s = .next { s with hacc := BitVec.ofNat 32 (s.accumulate b) } := by
  simp [hdrSym, hd, Nat.not_lt.2 h]

theorem hdrSym_sp (s : State) :
    hdrSym charSp s = .next { s with hsym := s.hacc.setWidth 8, hacc := 0, hp := .sepF } := rfl

theorem hdrSym_malformed {b : Byte} (s : State) (hd : isDigit b = false) (hb : b ≠ charSp) :
    hdrSym b s = raise .malformedHeader s := by
  simp [hdrSym, hd, hb]

/-- Settles O41: the byte is a digit, the SP that ends the token, or neither; the invariant bounds the token by 255, so HSYM
holds it whole. -/
theorem hdrCharInSymbol : Obligations.HdrCharInSymbol := by
  intro b s hs he ht hp
  rw [execHdrChar_sym ht hp]
  refine ⟨fun hd h => ?_, fun hd h => ?_, ?_, fun hd hb => ?_⟩
  · rw [hdrSym_outOfRange hd h, raise_of_noError he]
  · exact ⟨_, hdrSym_digit hd h, toNat_ofNat_of_fits (h.trans_lt (by decide))⟩
  · rintro rfl
    refine ⟨_, hdrSym_sp s, ?_⟩
    rw [BitVec.toNat_setWidth, Nat.mod_eq_of_lt (Nat.lt_succ_of_le (hs.sym_le hp))]
  · rw [hdrSym_malformed s hd hb, raise_of_noError he]

/-! ### HDR_CHAR: after a separator -/

theorem hdrSepF_digit {b : Byte} {s : State} (hd : isDigit b = true) (h : digitValue b ≤ s.freqMax) :
    hdrSepF b s = .next { s with hacc := b.setWidth 32 - 0x30, hp := .freq } := by
  rw [hdrSepF, if_pos hd, if_neg (Nat.not_lt.2 h), ofNat_digitValue hd]

theorem hdrSepF_overflow {b : Byte} {s : State} (hd : isDigit b = true) (h : s.freqMax < digitValue b) :
    hdrSepF b s = raise .overflow s := by
  simp [hdrSepF, hd, h]

theorem hdrSepS_digit {b : Byte} (s : State) (hd : isDigit b = true) :
    hdrSepS b s = .next { s with hacc := b.setWidth 32 - 0x30, hp := .sym } := by
  rw [hdrSepS, if_pos hd, ofNat_digitValue hd]

theorem hdrSepF_malformed {b : Byte} (s : State) (hd : isDigit b = false) : hdrSepF b s = raise .malformedHeader s := by
  simp [hdrSepF, hd]

theorem hdrSepS_malformed {b : Byte} (s : State) (hd : isDigit b = false) : hdrSepS b s = raise .malformedHeader s := by
  simp [hdrSepS, hd]

/-- Settles O42: only a digit starts a token, and a frequency token only a digit within FREQ_MAX. -/
theorem hdrCharAfterSeparator : Obligations.HdrCharAfterSeparator := by
  intro b s he ht
  refine ⟨fun hp hd h => ?_, fun hp hd h => ?_, fun hp hd => ?_, fun hp hd => ?_⟩
  · rw [execHdrChar_sepF ht hp, hdrSepF_digit hd h]
  · rw [execHdrChar_sepF ht hp, hdrSepF_overflow hd h, raise_of_noError he]
  · rw [execHdrChar_sepS ht hp, hdrSepS_digit s hd]
  · rcases hp with hp | hp
    · rw [execHdrChar_sepF ht hp, hdrSepF_malformed s hd, raise_of_noError he]
    · rw [execHdrChar_sepS ht hp, hdrSepS_malformed s hd, raise_of_noError he]

/-! ### HDR_CHAR: a frequency token and the pair commit -/

theorem hdrFreq_overflow {b : Byte} {s : State} (hd : isDigit b = true) (h : s.freqMax < s.accumulate b) :
    hdrFreq b s = raise .overflow s := by
  simp [hdrFreq, hd, h]

theorem hdrFreq_digit {b : Byte} {s : State} (hd : isDigit b = true) (h : s.accumulate b ≤ s.freqMax) :
    hdrFreq b s = .next { s with hacc := BitVec.ofNat 32 (s.accumulate b) } := by
  simp [hdrFreq, hd, Nat.not_lt.2 h]

/-- The byte that ends a frequency token commits the pair, and says where the parser goes on (R176). -/
theorem hdrFreq_separator {b : Byte} (s : State) (h : b = charSp ∨ b = charLf) :
    hdrFreq b s = hdrCommit (if b = charSp then .sepS else .done) s := by
  rcases h with rfl | rfl <;> rfl

theorem hdrFreq_malformed {b : Byte} (s : State) (hd : isDigit b = false) (hsp : b ≠ charSp) (hlf : b ≠ charLf) :
    hdrFreq b s = raise .malformedHeader s := by
  simp [hdrFreq, hd, hsp, hlf]

theorem hdrCommit_malformed (after : HdrState) {s : State} (h : s.hacc = 0 ∨ s.freqAt s.hsym ≠ 0) :
    hdrCommit after s = raise .malformedHeader s := by
  by_cases h0 : s.hacc = 0
  · rw [hdrCommit, if_pos h0]
  · rw [hdrCommit, if_neg h0, if_pos (h.resolve_left h0)]

/-- The commit of any token but 0, cut to FREQ_WIDTH bits (R177). -/
theorem hdrCommit_commits (after : HdrState) {s : State} (h0 : s.hacc ≠ 0) (hf : s.freqAt s.hsym = 0) :
    hdrCommit after s = .next { s.setFreq s.hsym (s.freqBits s.hacc) with hacc := 0, hp := after } := by
  rw [hdrCommit, if_neg h0, if_neg (not_not_intro hf)]

/-- Settles O43: the byte is a digit, one of the two that end the token and commit the pair, or neither. -/
theorem hdrCharInFrequency : Obligations.HdrCharInFrequency := by
  intro b s he ht hp
  rw [execHdrChar_freq ht hp]
  refine ⟨fun hd h => ?_, fun hd h => ?_, fun hb h => ?_, fun hb h0 hf => ?_, fun hd hsp hlf => ?_⟩
  · rw [hdrFreq_overflow hd h, raise_of_noError he]
  · exact ⟨_, hdrFreq_digit hd h, toNat_ofNat_of_fits (h.trans_lt (freqMax_lt s))⟩
  · rw [hdrFreq_separator s hb, hdrCommit_malformed _ h, raise_of_noError he]
  · have hself : ((s.setFreq s.hsym (s.freqBits s.hacc)).freqAt s.hsym).toNat = s.hacc.toNat % 2 ^ s.freqWidth.bits := by
      rw [freqAt_setFreq_self, freqBits_toNat]
    rw [hdrFreq_separator s hb]
    exact ⟨_, hdrCommit_commits _ h0 hf, rfl, hself, fun c hc => freqAt_setFreq_of_ne s hc _⟩
  · rw [hdrFreq_malformed s hd hsp hlf, raise_of_noError he]

end Sys2Proof.Machine
end

section
/-! The payload codec (45_payload.md): ENC_BYTE writes the path to a byte's leaf as characters, DEC_CHAR walks the tree along
them, and so the decode procedure gives back what the encode procedure was given (R193, R197). -/

namespace Sys2Proof.Machine

/-! ### ENC_BYTE -/

theorem exec_encByte_sequence (b : Byte) {s : State} (h : s.codesValid = false) :
    exec (.encByte b) s = raise .sequence s := by
  simp [exec, execEncByte, h]

theorem exec_encByte_noCode {b : Byte} {s : State} (h : s.codesValid = true) (hb : (s.codeAt b).valid = false) :
    exec (.encByte b) s = raise .noCode s := by
  simp [exec, execEncByte, h, hb]

theorem exec_encByte_next {b : Byte} {s : State} (h : s.codesValid = true) (hb : (s.codeAt b).valid = true) :
    exec (.encByte b) s = .next (s.emit (s.codeAt b).text) := by
  simp [exec, execEncByte, h, hb]

/-- Settles O45: the guards on CODES_VALID and on the entry, and behind them the characters of the code. -/
theorem encByteAppendsTheCode : Obligations.EncByteAppendsTheCode := by
  intro b s he
  refine ⟨fun h => ?_, fun h hb => ?_, fun h hb => ⟨_, exec_encByte_next h hb, rfl⟩⟩
  · rw [exec_encByte_sequence b h, raise_of_noError he]
  · rw [exec_encByte_noCode h hb, raise_of_noError he]

/-! ### DEC_CHAR -/

theorem exec_decChar_sequence (b : Byte) {s : State} (h : s.tree = .none ∨ s.tree = .building) :
    exec (.decChar b) s = raise .sequence s := by
  rcases h with h | h <;> simp [exec, execDecChar, h]

theorem exec_decChar_empty (b : Byte) {s : State} (h : s.tree = .empty) :
    exec (.decChar b) s = raise .corruptBitstream s := by
  simp [exec, execDecChar, h]

section
variable {s : State} (h : TreeInv s) (hb : s.tree = .built)
include h hb

theorem TreeInv.exec_decChar_leaf (b : Byte) (hk : (s.nodeAt s.rootIdx).kind = .leaf) :
    exec (.decChar b) s = raise .corruptBitstream s := by
  simp [exec, execDecChar, hb, node?_of_lt (h.built_counts hb).2.2, hk]

/-- A byte other than '0' and '1' selects no child (R192). -/
theorem TreeInv.exec_decChar_noBit {b : Byte} (hk : (s.nodeAt s.rootIdx).kind = .internal) (h0 : b ≠ charZero)
    (h1 : b ≠ charOne) : exec (.decChar b) s = raise .corruptBitstream s := by
  have hroot := node?_of_lt (h.built_counts hb).2.2
  have hcur := node?_of_lt (h.cursor_internal hb hk).1
  simp [exec, execDecChar, hb, hroot, hk, decDescend, hcur, childFor, h0, h1]

/-- The child of an internal record that a branch bit selects is a defined record (R24 (b)). -/
theorem TreeInv.child_defined (c : Bool) {i : Idx} (hi : i.toNat < s.nodeCount.toNat) (hk : (s.nodeAt i).kind = .internal) :
    (if c then (s.nodeAt i).right else (s.nodeAt i).left).toNat < s.nodeCount.toNat := by
  have hm := h.isMerge (by rw [hb]; decide) hi hk
  cases c with
  | false => exact hm.left_lt.trans hi
  | true => exact hm.right_lt.trans hi

end

/-- The two bytes that select a child are the characters of the branch bits (R193). -/
theorem exists_bitChar {b : Byte} (h : b = 0x30 ∨ b = 0x31) : ∃ c, b = bitChar c :=
  h.elim (fun h => ⟨false, h⟩) fun h => ⟨true, h⟩

/-- '0' selects the left child and '1' the right one, as the branch bits do (R193). -/
theorem ite_bitChar_eq_zero (c : Bool) (l r : Idx) : (if bitChar c = 0x30 then l else r) = if c then r else l := by
  cases c <;> rfl

/-- Settles O46: behind the guards on the build, on the root and on the byte, the cursor stands at an internal record, and the
character takes one branch of it. -/
theorem decCharDescends : Obligations.DecCharDescends := by
  intro b s h he
  refine ⟨fun ht => ?_, fun hbad => ?_, fun hb hk hbit => ?_⟩
  · rw [exec_decChar_sequence b ht, raise_of_noError he]
  · have hraise : exec (.decChar b) s = raise .corruptBitstream s := by
      obtain ht | ⟨hb, hbad⟩ := hbad
      · exact exec_decChar_empty b ht
      · cases hk : (s.nodeAt s.rootIdx).kind with
        | leaf => exact h.exec_decChar_leaf hb b hk
        | internal =>
          obtain ⟨h0, h1⟩ := hbad.resolve_left (by rw [hk]; decide)
          exact h.exec_decChar_noBit hb hk h0 h1
    rw [hraise, raise_of_noError he]
  · obtain ⟨c, rfl⟩ := exists_bitChar hbit
    obtain ⟨hcur, hcurk⟩ := h.cursor_internal hb hk
    refine ⟨_, rfl, ?_⟩
    rw [ite_bitChar_eq_zero]
    exact decChar_branch hb (h.built_counts hb).2.2 hk hcur rfl (h.child_defined hb c hcur hcurk)

/-! ### DEC_END and DEC_SINGLE -/

theorem buildFinished_eq_false {s : State} (h : s.tree = .none ∨ s.tree = .building) : s.buildFinished = false :=
  h.elim buildFinished_of_none buildFinished_of_building

theorem exec_decEnd_sequence {s : State} (h : s.buildFinished = false) : exec .decEnd s = raise .sequence s := by
  simp [exec, execDecEnd, h]

theorem exec_decEnd_corrupt {s : State} (hb : s.tree = .built) (hc : s.decCur ≠ s.rootIdx) :
    exec .decEnd s = raise .corruptBitstream s := by
  simp [exec, execDecEnd, State.buildFinished, hb, hc]

theorem exec_decEnd_next {s : State} (h : s.tree = .empty ∨ (s.tree = .built ∧ s.decCur = s.rootIdx)) :
    exec .decEnd s = .next s := by
  rcases h with h | ⟨hb, hc⟩
  · simp [exec, execDecEnd, State.buildFinished, h]
  · simp [exec, execDecEnd, State.buildFinished, hb, hc]

/-- Settles O48: the guard on the build, and behind it the cursor of a built tree is at the root or is not. -/
theorem decEndChecksTheBoundary : Obligations.DecEndChecksTheBoundary := by
  intro s he
  refine ⟨fun ht => ?_, fun hb hc => ?_, exec_decEnd_next⟩
  · rw [exec_decEnd_sequence (buildFinished_eq_false ht), raise_of_noError he]
  · rw [exec_decEnd_corrupt hb hc, raise_of_noError he]

theorem exec_decSingle_unfinished {s : State} (h : s.tree = .none ∨ s.tree = .building) :
    exec .decSingle s = raise .sequence s := by
  rcases h with h | h <;> simp [exec, execDecSingle, h]

theorem exec_decSingle_empty {s : State} (h : s.tree = .empty) : exec .decSingle s = .next s := by
  simp [exec, execDecSingle, h]

theorem TreeInv.exec_decSingle_internal {s : State} (h : TreeInv s) (hb : s.tree = .built)
    (hk : (s.nodeAt s.rootIdx).kind = .internal) : exec .decSingle s = raise .sequence s := by
  simp [exec, execDecSingle, hb, node?_of_lt (h.built_counts hb).2.2, hk]

theorem TreeInv.exec_decSingle_leaf {s : State} (h : TreeInv s) (hb : s.tree = .built)
    (hk : (s.nodeAt s.rootIdx).kind = .leaf) : exec .decSingle s =
      .next (s.emit (List.replicate (s.nodeAt s.rootIdx).weight.toNat (s.nodeAt s.rootIdx).symbol)) := by
  simp [exec, execDecSingle, hb, node?_of_lt (h.built_counts hb).2.2, hk]

/-- Settles O49: the state of the build, and for a built tree the kind of its root, decide what DEC_SINGLE does. -/
theorem decSingleRepeatsTheSymbol : Obligations.DecSingleRepeatsTheSymbol := by
  intro s h he
  refine ⟨fun ht => ?_, exec_decSingle_empty, fun hb hk => ⟨_, h.exec_decSingle_leaf hb hk, rfl⟩⟩
  have hraise : exec .decSingle s = raise .sequence s := by
    obtain ht | ht | ⟨hb, hk⟩ := ht
    · exact exec_decSingle_unfinished (.inl ht)
    · exact exec_decSingle_unfinished (.inr ht)
    · exact h.exec_decSingle_internal hb hk
  rw [hraise, raise_of_noError he]

/-! ### Decoding what spells a symbol -/

/-- The characters `w` are those of a path from the root to a leaf of symbol `b` (R152, R193). -/
def State.Spells (s : State) (b : Byte) (w : List Byte) : Prop :=
  ∃ q j, s.follow q s.rootIdx = some j ∧ (s.nodeAt j).kind = .leaf ∧ (s.nodeAt j).symbol = b ∧ w = q.map bitChar

/-- The decoder stands at the root of a finished tree of two or more leaves (R35, R192). -/
structure DecoderReady (s : State) : Prop where
  inv : TreeInv s
  built : s.tree = .built
  internal : (s.nodeAt s.rootIdx).kind = .internal
  cursor : s.decCur = s.rootIdx

theorem DecoderReady.of_two_leaves {s : State} (h : TreeInv s) (hb : s.tree = .built) (hn : 2 ≤ s.leafCount.toNat)
    (hc : s.decCur = s.rootIdx) : DecoderReady s := ⟨h, hb, h.root_kind_internal hb hn, hc⟩

theorem DecoderReady.emit {s : State} (h : DecoderReady s) (bs : List Byte) : DecoderReady (s.emit bs) :=
  ⟨treeInv_same h.inv (.inl rfl) rfl rfl rfl rfl rfl rfl (.inl rfl), h.built, h.internal, h.cursor⟩

/-- Output is no part of a tree. -/
theorem sameTree_emit (s : State) (bs : List Byte) : SameTree s (s.emit bs) :=
  ⟨rfl, rfl, rfl, rfl, rfl, rfl, rfl, rfl, fun _ _ => rfl⟩

/-- States with the same finished tree spell their symbols alike. -/
theorem SameTree.spells {s t : State} (h : SameTree s t) (hs : TreeInv s) (hb : s.tree = .built) {b : Byte} {w : List Byte}
    (hw : s.Spells b w) : t.Spells b w := by
  obtain ⟨q, j, hq, hk, hsym, rfl⟩ := hw
  have hrec := h.recs j (hs.follow_defined (by rw [hb]; decide) (hs.built_counts hb).2.2 hq)
  exact ⟨q, j, by rw [h.follow, h.rootIdx, hq], by rw [hrec, hk], by rw [hrec, hsym], rfl⟩

section
variable {s : State} (h : DecoderReady s)
include h

theorem DecoderReady.with_decCur_rootIdx : { s with decCur := s.rootIdx } = s :=
  congrArg (fun d => { s with decCur := d }) h.cursor.symm

/-- The characters that spell a symbol emit it and bring the decoder back to the root (R193). -/
theorem DecoderReady.decode_symbol {b : Byte} {w : List Byte} (hw : s.Spells b w) :
    execAll (w.map .decChar) s = .next (s.emit [b]) := by
  obtain ⟨q, j, hq, hk, rfl, rfl⟩ := hw
  have hne : q ≠ [] := by
    rintro rfl
    obtain rfl : s.rootIdx = j := Option.some.inj hq
    rw [h.internal] at hk
    cases hk
  have hrun := (dec_run h.inv h.built h.internal hq hne).1 hk
  rw [h.with_decCur_rootIdx] at hrun
  rw [hrun, State.emit, ← h.cursor]

/-- The first characters of those that spell a symbol, short of all of them, lead to an internal record and emit nothing
(R193). -/
theorem DecoderReady.decode_unfinished {b : Byte} {p w : List Byte} (hw : s.Spells b w) (hp : p <+: w) (hne : p ≠ w) :
    ∃ k, execAll (p.map .decChar) s = .next { s with decCur := k } := by
  obtain ⟨q, j, hq, hk, rfl, rfl⟩ := hw
  obtain ⟨q', hq', rfl⟩ := List.prefix_map_iff.1 hp
  obtain ⟨r, rfl⟩ := hq'
  obtain ⟨k, hk1, hk2⟩ := follow_append.1 hq
  cases r with
  | nil => exact absurd (by rw [List.append_nil]) hne
  | cons c r =>
    refine ⟨k, ?_⟩
    by_cases hnil : q' = []
    · subst hnil
      cases hk1
      rw [h.with_decCur_rootIdx]; rfl
    · have hrun := (dec_run h.inv h.built h.internal hk1 hnil).2 (follow_cons.1 hk2).2.1
      rwa [h.with_decCur_rootIdx] at hrun

/-- The spelled symbols of a text, one after another, emit the text (R193). -/
theorem DecoderReady.decode_text {text : List Byte} {code : Byte → List Byte} (hw : ∀ b ∈ text, s.Spells b (code b)) :
    execAll ((text.flatMap code).map .decChar) s = .next (s.emit text) := by
  induction text generalizing s with
  | nil => simp [State.emit]
  | cons b text ih =>
    have hrest : ∀ c ∈ text, (s.emit [b]).Spells c (code c) := fun c hc =>
      (sameTree_emit s [b]).spells h.inv h.built (hw c (List.mem_cons_of_mem _ hc))
    rw [List.flatMap_cons, List.map_append, execAll_append_of_next (h.decode_symbol (hw b List.mem_cons_self)),
      ih (h.emit [b]) hrest]
    simp [State.emit]

end

/-- A valid code spells its symbol (R150, R152). -/
theorem Inv.spells_codeAt {s : State} (h : Inv s) (hv : s.codesValid = true) {b : Byte} (hb : (s.codeAt b).valid = true) :
    s.tree = .built ∧ s.Spells b (s.codeAt b).text := by
  obtain ⟨ht, q, j, hq, hk, hsym, _, _, hpath⟩ := valid_entry h.tree h.codes hv hb
  exact ⟨ht, q, j, hq, hk, hsym, by rw [CodeEntry.text_eq, hpath]⟩

/-- Settles O47: a valid code spells its symbol, and the decoder walks the path that it spells. -/
theorem decodingACodeEmitsItsSymbol : Obligations.DecodingACodeEmitsItsSymbol := by
  intro s b h _ hv hn hc hb
  obtain ⟨ht, hw⟩ := h.spells_codeAt hv hb
  have hready := DecoderReady.of_two_leaves h.tree ht hn hc
  refine ⟨hready.decode_symbol hw, fun q hq hne => ?_⟩
  obtain ⟨k, hrun⟩ := hready.decode_unfinished hw hq hne
  exact ⟨_, hrun, rfl⟩

end Sys2Proof.Machine
end

section
/-! The round trip (R197): the header line is read back as the table it was written from, so the decoder builds the encoder's
tree, and in that tree the code of each byte of the text spells the byte. -/

namespace Sys2Proof.Machine

/-! ### The header line -/

/-- The pairs of a header are digits and SPs (R166, R167). -/
theorem mem_pairsText {ps : List (Byte × Word)} {c : Byte} (h : c ∈ pairsText ps) : isDigit c = true ∨ c = charSp := by
  have hdec : ∀ {v : Nat}, c ∈ decimal v → isDigit c = true := fun h => digitsOf_digits c h
  have hpair : ∀ {p : Byte × Word}, c ∈ pairText p → isDigit c = true ∨ c = charSp := fun {p} h => by
    rw [pairText, List.append_assoc, List.mem_append, List.singleton_append, List.mem_cons] at h
    exact h.elim (fun h => .inl (hdec h)) fun h => h.elim .inr fun h => .inl (hdec h)
  induction ps using pairsText.induct with
  | case1 => cases h
  | case2 p => exact hpair h
  | case3 p q ps ih =>
    rw [pairsText, List.append_assoc, List.mem_append, List.singleton_append, List.mem_cons] at h
    exact h.elim hpair fun h => h.elim .inr ih

/-- The one LF of a header line is its last byte (R165). -/
theorem charLf_not_mem_pairsText (ps : List (Byte × Word)) : charLf ∉ pairsText ps := fun h =>
  (mem_pairsText h).elim (by decide) (by decide)

/-! ### A build -/

/-- Within the bound of FREQ a build ends with no fault (R126). -/
theorem exists_build {s : State} (hs : HeaderInv s) (hc : s.headerClosed = true) :
    ∃ t, exec .build s = .next t ∧ BuildOf s t := by
  obtain ⟨t, hloop, _⟩ := build_finishes hs.freq_le
  have hx := (exec_build_loop hc).trans hloop
  exact ⟨t, hx, buildOf_of_exec hs hc hx⟩

/-- Two builds from the same FREQ leave the same tree (R129). -/
theorem build_same {s s' t : State} (hf : s'.freq = s.freq) (hw : s'.freqWidth = s.freqWidth) (hc : s.headerClosed = true)
    (hc' : s'.headerClosed = true) (hx : exec .build s = .next t) : ∃ t', exec .build s' = .next t' ∧ SameTree t t' := by
  rw [exec_build_loop hc] at hx
  rw [exec_build_loop hc']
  exact mergeLoop_same (buildInit_same hf hw) hx

/-- What a build leaves as it was, of what the procedures of R191 and R196 go on to use. -/
theorem build_kept {s t : State} (hc : s.headerClosed = true) (hx : exec .build s = .next t) :
    t.freq = s.freq ∧ t.headerClosed = true ∧ t.out = s.out ∧ t.err = s.err ∧ t.freqWidth = s.freqWidth := by
  rw [exec_build_loop hc] at hx
  rw [build_frame hx]
  exact ⟨rfl, hc, rfl, rfl, rfl⟩

/-! ### The codes of a finished tree -/

section
variable {s : State} (h : TreeInv s) (hfin : s.tree = .empty ∨ s.tree = .built)
include h hfin

/-- A symbol with a frequency has a leaf in a finished tree (R24 (d), R131). -/
theorem TreeInv.exists_leaf {b : Byte} (hb : s.freqAt b ≠ 0) :
    s.tree = .built ∧ ∃ q j, s.follow q s.rootIdx = some j ∧ (s.nodeAt j).kind = .leaf ∧ (s.nodeAt j).symbol = b := by
  have hne : s.tree ≠ .none := by rcases hfin with ht | ht <;> rw [ht] <;> decide
  have hmem : (⟨.leaf, b, (s.freqAt b).setWidth 40, 0, 0⟩ : NodeRec) ∈ s.leaves := mem_leaves.2 ⟨rfl, hb⟩
  obtain ⟨i, hi, hrec⟩ := List.mem_iff_getElem.1 hmem
  have hcount := h.leaf_count hne
  have hle := h.leafCount_le_nodeCount
  have hlt := leaves_length_le s
  have hnode := (h.leaf_recs hne i hi).trans hrec
  have ht : s.tree = .built := hfin.resolve_left fun ht => by
    obtain ⟨_, _, hzero⟩ := h.empty_shape ht
    rw [hzero, show (0 : Idx).toNat = 0 from rfl] at hcount
    omega
  obtain ⟨q, hq⟩ := h.reached ht (i := BitVec.ofNat 9 i) (by rw [toNat_ofNat_idx (by omega)]; omega)
  exact ⟨ht, q, _, hq, by rw [hnode], by rw [hnode]⟩

/-- GEN_CODES gives each symbol with a frequency a valid code, and that code spells the symbol (R150, R152). -/
theorem TreeInv.generatedCodes_spell {c : Vector CodeEntry Config.nsym} (hg : s.generatedCodes = .ok c) {b : Byte}
    (hb : s.freqAt b ≠ 0) : (codeOf c b).valid = true ∧ s.tree = .built ∧ s.Spells b (codeOf c b).text := by
  obtain ⟨ht, q, j, hq, hk, rfl⟩ := h.exists_leaf hfin hb
  have hentry := h.generatedCodes_leaf ht hg hq hk
  have htext : (codeOf c (s.nodeAt j).symbol).text = q.map bitChar := by
    rw [CodeEntry.text_eq, hentry, entryOfPath_path (h.root_path_length_le ht hq)]
  exact ⟨by rw [hentry, entryOfPath_valid], ht, q, j, hq, hk, rfl, htext⟩

end

/-! ### A tree of at most one leaf -/

/-- The root of a built tree of at most one leaf is that leaf (R131). -/
theorem TreeInv.root_kind_leaf {s : State} (h : TreeInv s) (hb : s.tree = .built) (hn : s.leafCount.toNat ≤ 1) :
    (s.nodeAt s.rootIdx).kind = .leaf := by
  obtain ⟨hpos, hcount, hlt⟩ := h.built_counts hb
  exact (h.kind_leaf_iff (by rw [hb]; decide) hlt).2 (by omega)

/-- The weight of a leaf is the frequency of its symbol (R122). -/
theorem TreeInv.leaf_weight_eq {s : State} (h : TreeInv s) (ht : s.tree ≠ .none) {i : Idx}
    (hi : i.toNat < s.nodeCount.toNat) (hk : (s.nodeAt i).kind = .leaf) :
    (s.nodeAt i).weight.toNat = (s.freqAt (s.nodeAt i).symbol).toNat := by
  obtain ⟨hlt, hrec⟩ := h.leaf_kind ht ((h.kind_leaf_iff ht hi).1 hk)
  exact leaf_weight (hrec ▸ List.getElem_mem hlt)

/-- Where the root is a leaf, only its symbol is spelled, and by no character (R154). -/
theorem State.Spells.of_root_leaf {s : State} {b : Byte} {w : List Byte} (hw : s.Spells b w)
    (hk : (s.nodeAt s.rootIdx).kind = .leaf) : w = [] ∧ (s.nodeAt s.rootIdx).symbol = b := by
  obtain ⟨q, j, hq, _, hsym, rfl⟩ := hw
  obtain ⟨rfl, rfl⟩ := follow_leaf hk hq
  exact ⟨rfl, hsym⟩

/-! ### The encode procedure -/

/-- The frequency table that a text counts to (R110, R111). -/
def IsCountOf (text : List Byte) (f : Vector Word Config.nsym) : Prop := ∀ b, (tableAt f b).toNat = text.count b

/-- A byte of the text has a frequency. -/
theorem IsCountOf.ne_zero {text : List Byte} {f : Vector Word Config.nsym} (h : IsCountOf text f) {b : Byte} (hb : b ∈ text) :
    tableAt f b ≠ 0 := fun h0 => by
  have hpos := List.count_pos_iff.2 hb
  rw [← h b, h0] at hpos
  exact absurd hpos (by decide)

/-- In the state `s`, the code of each byte of the text spells it in a built tree. -/
def SpellsText (s : State) (text : List Byte) (code : Byte → List Byte) : Prop :=
  ∀ b ∈ text, s.tree = .built ∧ s.Spells b (code b)

/-- States with the same finished tree spell a text alike. -/
theorem SpellsText.of_sameTree {s t : State} {text : List Byte} {code : Byte → List Byte} (h : SpellsText s text code)
    (hs : TreeInv s) (hst : SameTree s t) : SpellsText t text code := fun b hb => by
  obtain ⟨ht, hw⟩ := h b hb
  exact ⟨hst.tree.trans ht, hst.spells hs ht hw⟩

/-- A cleared block whose FREQ holds the table `f` (R101). -/
def State.clearedWith (s : State) (f : Vector Word Config.nsym) : State := { s.cleared with freq := f }

/-- CLEAR and the COUNT commands of a text that fits FREQ leave the table of its counts (R111). -/
theorem clear_count_text {s : State} {text : List Byte} (h : ∀ b, text.count b ≤ s.freqMax) :
    ∃ f, IsCountOf text f ∧ execAll ([Instr.clear] ++ text.map Instr.count) s = .next (s.clearedWith f) := by
  have hzero : ∀ b, (s.cleared.freqAt b).toNat + text.count b = text.count b := fun b => by
    rw [State.cleared_freqAt, show (0 : Word).toNat = 0 from rfl, Nat.zero_add]
  obtain ⟨f, hrun, hf⟩ := count_run (s := s.cleared) rfl rfl fun b => (hzero b).trans_le (h b)
  exact ⟨f, fun b => (hf b).trans (hzero b), (execAll_clear_cons _ s).trans hrun⟩

/-- From a build of the text's counts, GEN_CODES, HDR_ENC and ENC_BYTE emit the header and then the codes of the text, which
spell it (R191). -/
theorem encode_built {s t : State} {text : List Byte} {f : Vector Word Config.nsym} (ht : BuildOf s t)
    (hc : t.headerClosed = true) (hfreq : t.freq = f) (hf : IsCountOf text f) :
    ∃ c, SpellsText t text (fun b => (codeOf c b).text) ∧
      execAll ([Instr.genCodes, .hdrEnc] ++ text.map Instr.encByte) t = .next
        { t with codes := c, codesValid := true,
                 out := t.out ++ headerText f ++ text.flatMap fun b => (codeOf c b).text } := by
  subst hfreq
  obtain ⟨c, hg⟩ := ht.inv.generatedCodes_ok
  have hspell : ∀ b ∈ text, (codeOf c b).valid = true ∧ t.tree = .built ∧ t.Spells b (codeOf c b).text := fun b hb =>
    ht.inv.generatedCodes_spell ht.finished hg (hf.ne_zero hb)
  have hgen := exec_genCodes_next (buildFinished_iff.2 ht.finished) hg
  have hhdr := exec_hdrEnc_next (s := { t with codes := c, codesValid := true }) hc
  have henc := enc_run (s := ({ t with codes := c, codesValid := true } : State).emit (headerText t.freq)) rfl fun b hb =>
    (hspell b hb).1
  refine ⟨c, fun b hb => (hspell b hb).2, ?_⟩
  rw [List.cons_append, execAll_cons, hgen, andThen_next, List.singleton_append, execAll_cons, hhdr, andThen_next]
  exact henc

/-- The encode procedure of R191 counts the text, builds the tree `t` of the counts `f`, and emits the header of the counts and
then the text's codes, which spell it in that tree. -/
theorem encode_procedure {s : State} {text : List Byte} (h : ∀ b, text.count b ≤ s.freqMax) :
    ∃ f t c, IsCountOf text f ∧ exec .build (s.clearedWith f) = .next t ∧ BuildOf (s.clearedWith f) t ∧
      SpellsText t text (fun b => (codeOf c b).text) ∧
      execAll ([Instr.clear] ++ text.map Instr.count ++ [Instr.build, .genCodes, .hdrEnc] ++ text.map Instr.encByte) s = .next
        { t with codes := c, codesValid := true,
                 out := s.out ++ headerText f ++ text.flatMap fun b => (codeOf c b).text } := by
  obtain ⟨f, hf, hcount⟩ := clear_count_text h
  have hinv : HeaderInv (s.clearedWith f) :=
    headerInv_unbuilt rfl (fun b => (hf b).trans_le (h b)) (Nat.zero_le _) nofun nofun
  obtain ⟨t, hbuild, ht⟩ := exists_build hinv rfl
  obtain ⟨hfreq, hclosed, hout, _, _⟩ := build_kept rfl hbuild
  obtain ⟨c, hspell, hrun⟩ := encode_built ht hclosed hfreq hf
  rw [hout] at hrun
  refine ⟨f, t, c, hf, hbuild, ht, hspell, ?_⟩
  rw [List.append_assoc, execAll_append_of_next hcount, List.cons_append, execAll_cons, hbuild, andThen_next]
  exact hrun

/-! ### The decode procedure -/

/-- CLEAR and the header of a table `f` that fits FREQ leave a state `p` with that table, and BUILD leaves of it the tree that
it leaves of any other state with that table (R129, R180, R196). -/
theorem decode_header {s s' t : State} {f : Vector Word Config.nsym} (hf : ∀ b, (tableAt f b).toNat ≤ s.freqMax)
    (hfreq : s'.freq = f) (hw : s'.freqWidth = s.freqWidth) (hc : s'.headerClosed = true) (hx : exec .build s' = .next t) :
    ∃ p u, execAll ([Instr.clear] ++ (headerText f).map Instr.hdrChar ++ [Instr.build]) s = .next u ∧ BuildOf p u ∧
      SameTree t u ∧ u.out = s.out ∧ u.err = .none := by
  obtain ⟨sym, hparse⟩ := parse_header (t := f) (s := s.cleared) rfl rfl rfl hf
  have hinv : HeaderInv { s.cleared with freq := f, hsym := sym, hacc := 0, hp := .done } :=
    headerInv_unbuilt rfl hf (Nat.zero_le _) nofun nofun
  obtain ⟨u, hbuild, hsame⟩ := build_same (s' := { s.cleared with freq := f, hsym := sym, hacc := 0, hp := .done })
    hfreq.symm hw.symm hc rfl hx
  obtain ⟨_, _, hout, herr, _⟩ := build_kept rfl hbuild
  refine ⟨_, u, ?_, buildOf_of_exec hinv rfl hbuild, hsame, hout, herr⟩
  rw [List.append_assoc, List.singleton_append, execAll_clear_cons, execAll_append_of_next hparse, execAll_cons, hbuild,
    andThen_next, execAll_nil]

section
variable {s u : State} (hu : BuildOf s u) {text : List Byte}
include hu

/-- With at most one leaf, DEC_SINGLE gives the text: it is empty, or repeats the one symbol that has a frequency (R195). -/
theorem decode_single (hf : IsCountOf text u.freq) (hn : u.leafCount.toNat ≤ 1) :
    exec .decSingle u = .next (u.emit text) := by
  have hmem : ∀ b ∈ text, u.freqAt b ≠ 0 := fun b => hf.ne_zero
  rcases hu.finished with ht | ht
  · have hnil : text = [] := List.eq_nil_iff_forall_not_mem.2 fun b hb => by
      have hb := (hu.inv.exists_leaf hu.finished (hmem b hb)).1
      rw [ht] at hb; cases hb
    rw [exec_decSingle_empty ht, hnil, State.emit, List.append_nil]
  · have hk := hu.inv.root_kind_leaf ht hn
    have hone : ∀ b ∈ text, (u.nodeAt u.rootIdx).symbol = b := fun b hb => by
      obtain ⟨_, q, j, hq, _, hsym⟩ := hu.inv.exists_leaf hu.finished (hmem b hb)
      obtain ⟨_, rfl⟩ := follow_leaf hk hq
      exact hsym
    have hweight := hu.inv.leaf_weight_eq (by rw [ht]; decide) (hu.inv.built_counts ht).2.2 hk
    rw [State.freqAt, hf, List.count_eq_length.2 hone] at hweight
    rw [hu.inv.exec_decSingle_leaf ht hk, hweight, ← List.eq_replicate_of_mem fun b hb => (hone b hb).symm]

/-- With at most one leaf, no byte of the text has a character (R191). -/
theorem payload_eq_nil {code : Byte → List Byte} (hcode : SpellsText u text code) (hn : u.leafCount.toNat ≤ 1) :
    text.flatMap code = [] := by
  refine List.flatMap_eq_nil_iff.2 fun b hb => ?_
  obtain ⟨ht, hw⟩ := hcode b hb
  exact (hw.of_root_leaf (hu.inv.root_kind_leaf ht hn)).1

/-- With two or more leaves, the text's codes emit the text, and the payload ends on a code boundary (R193, R194). -/
theorem decode_payload {code : Byte → List Byte} (hcode : SpellsText u text code) (hn : 2 ≤ u.leafCount.toNat) :
    execAll ((text.flatMap code).map Instr.decChar ++ [Instr.decEnd]) u = .next (u.emit text) := by
  have ht : u.tree = .built := hu.finished.resolve_left fun ht => by
    obtain ⟨_, _, hzero⟩ := hu.inv.empty_shape ht
    rw [hzero] at hn
    exact absurd hn (by decide)
  have hready := DecoderReady.of_two_leaves hu.inv ht hn (hu.cursor ht)
  have hend := hready.emit text
  rw [execAll_append_of_next (hready.decode_text fun b hb => (hcode b hb).2), execAll_cons,
    exec_decEnd_next (.inr ⟨hend.built, hend.cursor⟩), andThen_next, execAll_nil]

end

/-- Settles O50: the decoder's build has the encoder's tree, in which the codes of the payload spell the text. -/
theorem encodeThenDecodeGivesTheTextBack : Obligations.EncodeThenDecodeGivesTheTextBack := by
  intro s text h
  obtain ⟨f, t, c, hf, hbuild, ht, hspell, hencode⟩ := encode_procedure h
  obtain ⟨hfreq, _, _, herr, hwidth⟩ := build_kept rfl hbuild
  have hmax : ∀ b, (tableAt f b).toNat ≤ t.freqMax := fun b => by
    rw [hf b, State.freqMax, hwidth]; exact h b
  obtain ⟨p, u, hdecode, hu, hsame, hout, huerr⟩ := decode_header (f := f)
    (s := { t with codes := c, codesValid := true, out := [] }) hmax rfl hwidth.symm rfl hbuild
  have huf : IsCountOf text u.freq := by rwa [hsame.freq, hfreq]
  have huspell := hspell.of_sameTree ht.inv hsame
  refine ⟨_, pairsText (listed f), _, u, u.emit text, hencode, herr, rfl, charLf_not_mem_pairsText _, hdecode, ?_, huerr,
    ?_⟩
  · split <;> rename_i hn
    · exact ⟨payload_eq_nil hu huspell hn, by rw [execAll_cons, decode_single hu huf hn, andThen_next, execAll_nil]⟩
    · exact decode_payload hu huspell (by omega)
  · rw [State.emit_out, hout, List.nil_append]

end Sys2Proof.Machine
end

section
/-! The exceptions (60_exceptions.md): a raised error changes ERR alone and is one of its command's codes (R214), SEQUENCE is
raised exactly where the table of R212 shuts the command out, and only CLEAR and reset end an error (R218). -/

namespace Sys2Proof.Machine

/-! ### Error entry -/

/-- From ERR = 0 an error is one of the command's codes, and nothing else of the state has changed (R214). -/
theorem Raised.of_noError {i : Instr} {s t : State} (h : Raised i s t) (he : s.err = .none) :
    t = { s with err := t.err } ∧ t.err ∈ mayRaise i := by
  obtain ⟨c, hc, h⟩ := h
  rw [raise_of_noError he] at h
  cases h
  exact ⟨rfl, hc⟩

/-- From ERR = 0 no effect sets ERR: CLEAR writes 0, and no other command writes it. -/
theorem Effect.err_none {i : Instr} {s t : State} (h : Effect i s t) (he : s.err = .none) : t.err = .none := by
  by_cases hi : i = .clear
  · subst hi; cases h; exact s.cleared_err
  · rw [(h.fields hi).1, he]

/-- Settles O14: a command has had its effect, which sets no error, or has raised one of its codes. -/
theorem errorsChangeOnlyErr : Obligations.ErrorsChangeOnlyErr := by
  intro i s t he h ht
  rcases exec_cases h with hr | heff
  · exact hr.of_noError he
  · exact absurd (heff.err_none he) ht

/-! ### SEQUENCE -/

theorem tree_of_unfinished {s : State} (h : s.buildFinished = false) : s.tree = .none ∨ s.tree = .building := by
  cases ht : s.tree with
  | none => exact .inl rfl
  | building => exact .inr rfl
  | empty => rw [buildFinished_iff.2 (.inl ht)] at h; cases h
  | built => rw [buildFinished_iff.2 (.inr ht)] at h; cases h

/-- A command that the table of R212 does not allow raises SEQUENCE. -/
theorem exec_eq_raise_sequence {i : Instr} {s : State} (h : TreeInv s) (ha : allowed i s = false) :
    exec i s = raise .sequence s := by
  cases i with
  | nop => cases ha
  | clear => cases ha
  | count b => exact exec_count_sequence b ha
  | freqWr b => exact exec_freqWr_sequence b ha
  | freqRd b => cases ha
  | buildInit => exact exec_buildInit_sequence ha
  | mergeStep => exact exec_mergeStep_sequence (beq_eq_false_iff_ne.1 ha)
  | build => exact exec_build_sequence ha
  | nodeRd idx sel => cases ha
  | pqRd pos => cases ha
  | genCodes => exact exec_genCodes_sequence ha
  | codeInfo b => exact exec_codeInfo_sequence b ha
  | codeRd b c => exact exec_codeRd_sequence b c ha
  | hdrEnc => exact exec_hdrEnc_sequence ha
  | hdrChar b => exact exec_hdrChar_sequence b (by simpa [allowed, imp_iff_not_or] using ha)
  | encByte b => exact exec_encByte_sequence b ha
  | decChar b => exact exec_decChar_sequence b (tree_of_unfinished ha)
  | decEnd => exact exec_decEnd_sequence ha
  | decSingle =>
    cases hf : s.buildFinished with
    | false => exact exec_decSingle_unfinished (tree_of_unfinished hf)
    | true =>
      obtain ⟨hb, hk⟩ : s.tree = .built ∧ (s.nodeAt s.rootIdx).kind = .internal := by simpa [allowed, hf] using ha
      exact h.exec_decSingle_internal hb hk

/-- `r` does not answer with SEQUENCE raised. -/
def NoSequence (r : Result) : Prop := ∀ t, r = .next t → t.err ≠ .sequence

theorem NoSequence.ite {p : Prop} [Decidable p] {r q : Result} (hr : NoSequence r) (hq : NoSequence q) :
    NoSequence (if p then r else q) := by
  split
  · exact hr
  · exact hq

/-- Behind a guard that holds, only the command's own arm counts. -/
theorem NoSequence.guard {g : Bool} (hg : g = true) {r q : Result} (hq : NoSequence q) :
    NoSequence (if !g then r else q) := by
  rwa [hg]

section
variable {s : State} (he : s.err = .none)
include he

theorem NoSequence.raise {c : ErrCode} (hc : c ≠ .sequence) : NoSequence (raise c s) := by
  rw [raise_of_noError he]
  rintro _ ⟨⟩
  exact hc

theorem NoSequence.of_err_kept {r : Result} (h : ∀ t, r = .next t → t.err = s.err) : NoSequence r := by
  intro t ht
  rw [h t ht, he]
  decide

theorem NoSequence.kept {t : State} (ht : t.err = s.err) : NoSequence (.next t) :=
  .of_err_kept he fun _ hu => by cases hu; exact ht

/-- A command that cannot raise SEQUENCE at all. -/
theorem exec_noSequence_of_not_mem {i : Instr} (hi : .sequence ∉ mayRaise i) : NoSequence (exec i s) := by
  intro t h ht
  have hmem := (errorsChangeOnlyErr i s t he h (by rw [ht]; decide)).2
  exact hi (ht ▸ hmem)

theorem mergeOnce_noSequence : NoSequence (mergeOnce s) :=
  .of_err_kept he fun t h => by
    obtain ⟨a, b, rest, _, _, _, _, rfl⟩ := mergeOnce_eq_next.1 h
    exact s.merged_err a b rest

theorem mergeLoop_noSequence (n : Nat) : NoSequence (mergeLoop n s) :=
  .of_err_kept he fun t h => by rw [mergeLoop_frame h]

theorem exec_hdrChar_noSequence (b : Byte) (ht : s.tree = .none) (hp : s.hp ≠ .done) : NoSequence (exec (.hdrChar b) s) := by
  have hmalformed : NoSequence (raise .malformedHeader s) := .raise he nofun
  have hoverflow : NoSequence (raise .overflow s) := .raise he nofun
  have hcommit (after : HdrState) : NoSequence (hdrCommit after s) := .ite hmalformed (.ite hmalformed (.kept he rfl))
  cases hs : s.hp with
  | idle => rw [execHdrChar_idle ht hs]; exact .ite (.kept he rfl) (.ite (.kept he rfl) hmalformed)
  | sym => rw [execHdrChar_sym ht hs]; exact .ite (.ite hmalformed (.kept he rfl)) (.ite (.kept he rfl) hmalformed)
  | sepF => rw [execHdrChar_sepF ht hs]; exact .ite (.ite hoverflow (.kept he rfl)) hmalformed
  | freq =>
    rw [execHdrChar_freq ht hs]
    exact .ite (.ite hoverflow (.kept he rfl)) (.ite (hcommit _) (.ite (hcommit _) hmalformed))
  | sepS => rw [execHdrChar_sepS ht hs]; exact .ite (.kept he rfl) hmalformed
  | done => exact absurd hs hp

/-- On a finished build a payload character is out of place or moves the cursor, whatever the tree is (R192). -/
theorem exec_decChar_noSequence (h : TreeInv s) (b : Byte) (hf : s.buildFinished = true) :
    NoSequence (exec (.decChar b) s) := by
  obtain ⟨_, hcorrupt, hmove⟩ := decCharDescends b s h he
  rw [← raise_of_noError he] at hcorrupt
  rcases buildFinished_iff.1 hf with ht | ht
  · rw [hcorrupt (.inl ht)]; exact .raise he nofun
  by_cases hbit : b = 0x30 ∨ b = 0x31
  · cases hk : (s.nodeAt s.rootIdx).kind with
    | leaf => rw [hcorrupt (.inr ⟨ht, .inl hk⟩)]; exact .raise he nofun
    | internal =>
      obtain ⟨nxt, _, hleaf, hinternal⟩ := hmove ht hk hbit
      cases hn : (s.nodeAt nxt).kind with
      | leaf => rw [hleaf hn]; exact .kept he rfl
      | internal => rw [hinternal hn]; exact .kept he rfl
  · rw [hcorrupt (.inr ⟨ht, .inr (not_or.1 hbit)⟩)]; exact .raise he nofun

/-- In a state that the table of R212 allows it in, no command raises SEQUENCE. -/
theorem exec_noSequence {i : Instr} (h : TreeInv s) (ha : allowed i s = true) : NoSequence (exec i s) := by
  cases i with
  | nop => exact exec_noSequence_of_not_mem he nofun
  | clear => exact exec_noSequence_of_not_mem he nofun
  | count b => exact .guard ha (.ite (.raise he nofun) (.kept he rfl))
  | freqWr b => exact .guard ha (.ite (.raise he nofun) (.kept he rfl))
  | freqRd b => exact exec_noSequence_of_not_mem he nofun
  | buildInit => rw [exec_buildInit_next ha]; exact .kept he s.buildInit_err
  | mergeStep => rw [exec_mergeStep_building (eq_of_beq ha)]; exact mergeOnce_noSequence he
  | build => rw [exec_build_loop ha]; exact mergeLoop_noSequence (s := s.buildInit) he 255
  | nodeRd idx sel => exact exec_noSequence_of_not_mem he (by simp [mayRaise])
  | pqRd pos => exact exec_noSequence_of_not_mem he (by simp [mayRaise])
  | genCodes =>
    obtain ⟨c, hc⟩ := h.generatedCodes_ok
    rw [exec_genCodes_next ha hc]; exact .kept he rfl
  | codeInfo b => rw [exec_codeInfo_next b ha]; exact .kept he (s.setDataOut_err _)
  | codeRd b c => rw [exec_codeRd_next b c ha]; exact .kept he (s.setDataOut_err _)
  | hdrEnc => rw [exec_hdrEnc_next ha]; exact .kept he (s.emit_err _)
  | hdrChar b =>
    obtain ⟨ht, hp⟩ : s.tree = .none ∧ s.hp ≠ .done := by simpa [allowed] using ha
    exact exec_hdrChar_noSequence he b ht hp
  | encByte b => exact .guard ha (.ite (.raise he nofun) (.kept he rfl))
  | decChar b => exact exec_decChar_noSequence he h b ha
  | decEnd => exact .guard ha (.ite (.raise he nofun) (.kept he rfl))
  | decSingle =>
    obtain ⟨hf, hk⟩ : s.buildFinished = true ∧ (s.tree ≠ .built ∨ (s.nodeAt s.rootIdx).kind ≠ .internal) := by
      simpa [allowed] using ha
    rcases buildFinished_iff.1 hf with ht | ht
    · rw [exec_decSingle_empty ht]; exact .kept he rfl
    · have hleaf : (s.nodeAt s.rootIdx).kind = .leaf := by
        cases hr : (s.nodeAt s.rootIdx).kind with
        | leaf => rfl
        | internal => exact absurd hr (hk.resolve_left (not_not.2 ht))
      rw [h.exec_decSingle_leaf ht hleaf]; exact .kept he rfl

end

/-- Settles O15: the guard of each command is its row of R212, and behind it no arm raises SEQUENCE. -/
theorem sequenceExactlyWhenNotAllowed : Obligations.SequenceExactlyWhenNotAllowed := fun _ _ h he =>
  ⟨fun ha => by rw [exec_eq_raise_sequence h ha, raise_of_noError he], exec_noSequence he h⟩

/-! ### The end of an error -/

@[simp] theorem readReg_err (off : Offset) (s : State) : (readReg off s).err = s.err := by
  unfold readReg; dsimp only; split <;> rfl

/-- The word of CLEAR is the only one that ends an error (R216, R218). -/
theorem cmdWrite_ends_error {w : Word} {s t : State} (he : s.err ≠ .none) (h : cmdWrite w s = .next t)
    (ht : t.err = .none) : w = 0x01000000 := by
  rcases cmdWrite_cases w s with ⟨_, hx⟩ | ⟨he', _⟩ | ⟨i, hd, _, hx⟩
  · rw [hx] at h; cases h; exact absurd ht he
  · exact absurd he' he
  · rw [hx] at h
    by_cases hi : i = .clear
    · subst hi; exact (encode_of_decode hd).symm
    · exact absurd (exec_err hi h ht).1 he

/-- A register write that ends an error is a CMD write: DATA_IN and the ignored offsets leave ERR as it is. -/
theorem writeReg_ends_error {off : Offset} {w : Word} {s t : State} (he : s.err ≠ .none) (h : writeReg off w s = .next t)
    (ht : t.err = .none) : off = offCmd ∧ w = 0x01000000 := by
  unfold writeReg at h
  split at h
  · exact ⟨‹_›, cmdWrite_ends_error he h ht⟩
  · split at h <;> cases h <;> exact absurd ht he

/-- Settles O16: of the accesses that are no reset event, only a register write writes ERR. -/
theorem onlyClearAndResetEndAnError : Obligations.OnlyClearAndResetEndAnError := by
  intro s t he h ht
  rcases step_cases h with ⟨_, rfl⟩ | ⟨e, rest, hh, h⟩
  · exact absurd ht he
  refine ⟨e, rest, hh, ?_⟩
  rcases h with ⟨_, rfl⟩ | ⟨rfl, _⟩ | ⟨rfl, _⟩ | ⟨rfl, _⟩ | ⟨rfl, _⟩ | ⟨_, _, _, _, _, rfl⟩ | ⟨_, _, _, _, rfl⟩ |
    ⟨off, _, _, _, rfl⟩ | ⟨off, w, rfl, _, _, h⟩
  · exact absurd ht he
  · exact .inl rfl
  · exact .inr (.inl rfl)
  · exact .inr (.inr (.inl rfl))
  · exact .inr (.inr (.inl rfl))
  · exact absurd ht he
  · exact absurd ht he
  · rw [readReg_err] at ht; exact absurd ht he
  · obtain ⟨rfl, rfl⟩ := writeReg_ends_error (s := { s with host := rest }) he h ht
    exact .inr (.inr (.inr rfl))

end Sys2Proof.Machine
end

section
/-! DATA_IN is the operand register of FREQ_WR alone (R66, R244): a host's write to it may stand before or behind any other
command. -/

namespace Sys2Proof.Machine

/-- The state with `v` in DATA_IN, which is what a host's write there leaves. -/
def State.withDataIn (s : State) (v : Word) : State := { s with dataIn := v }

/-- A write to DATA_IN (R40). -/
theorem writeReg_dataIn (s : State) (v : Word) : writeReg offDataIn v s = .next (s.withDataIn v) := rfl

@[simp] theorem State.withDataIn_self (s : State) : s.withDataIn s.dataIn = s := rfl

section
variable (s : State) (v : Word)

@[simp] theorem State.withDataIn_dataIn : (s.withDataIn v).dataIn = v := rfl
@[simp] theorem State.withDataIn_pq : (s.withDataIn v).pq = s.pq := rfl
@[simp] theorem State.withDataIn_rootIdx : (s.withDataIn v).rootIdx = s.rootIdx := rfl
@[simp] theorem State.withDataIn_tree : (s.withDataIn v).tree = s.tree := rfl
@[simp] theorem State.withDataIn_hp : (s.withDataIn v).hp = s.hp := rfl
@[simp] theorem State.withDataIn_decCur : (s.withDataIn v).decCur = s.decCur := rfl
@[simp] theorem State.withDataIn_node? (i : Idx) : (s.withDataIn v).node? i = s.node? i := rfl

end

/-- `q` is the answer `r` with `v` in DATA_IN: what `r` comes to if the host writes `v` there next. -/
def AnswersWith (v : Word) (r q : Result) : Prop := q = andThen r fun t => .next (t.withDataIn v)

section
variable {v : Word}

theorem AnswersWith.next (t : State) : AnswersWith v (.next t) (.next (t.withDataIn v)) := rfl

theorem AnswersWith.fault (e : Fault) : AnswersWith v (.fault e) (.fault e) := rfl

theorem AnswersWith.ite {p : Prop} [Decidable p] {r r' q q' : Result} (hr : AnswersWith v r r') (hq : AnswersWith v q q') :
    AnswersWith v (if p then r else q) (if p then r' else q') := by
  split
  · exact hr
  · exact hq

theorem AnswersWith.andThen {r r' : Result} {k : State → Result} (h : AnswersWith v r r')
    (hk : ∀ s, AnswersWith v (k s) (k (s.withDataIn v))) : AnswersWith v (andThen r k) (andThen r' k) := by
  cases h
  cases r with
  | next s => exact hk s
  | fault e => rfl
  | refused e => rfl

end

section
variable (s : State) (v : Word)

theorem raise_withDataIn (c : ErrCode) : AnswersWith v (raise c s) (raise c (s.withDataIn v)) := by
  simp only [raise_eq]; rfl

/-! ### The builder -/

theorem merged_withDataIn (a b : Idx) (rest : List Idx) :
    (s.withDataIn v).merged a b rest = (s.merged a b rest).withDataIn v := by
  unfold State.merged
  dsimp only [State.withDataIn, State.nodeAt]
  split <;> rfl

theorem mergeOnce_withDataIn : AnswersWith v (mergeOnce s) (mergeOnce (s.withDataIn v)) := by
  unfold mergeOnce
  rw [State.withDataIn_pq]
  split
  · exact .ite (.fault _) (.ite (.fault _) (.ite (.fault _) (merged_withDataIn s v .. ▸ .next _)))
  · exact .fault _

theorem mergeLoop_withDataIn (n : Nat) : AnswersWith v (mergeLoop n s) (mergeLoop n (s.withDataIn v)) := by
  induction n generalizing s with
  | zero => exact .next s
  | succ n ih => exact .ite ((mergeOnce_withDataIn s v).andThen ih) (.next s)

/-! ### The commands -/

theorem execPqRd_withDataIn (pos : Idx) : AnswersWith v (execPqRd pos s) (execPqRd pos (s.withDataIn v)) := by
  unfold execPqRd
  rw [State.withDataIn_pq]
  cases s.pq[pos.toNat]? with
  | none => exact raise_withDataIn s v _
  | some i => exact .next _

theorem execGenCodes_withDataIn : AnswersWith v (execGenCodes s) (execGenCodes (s.withDataIn v)) := by
  refine .ite (raise_withDataIn s v _) ?_
  rw [generatedCodes_congr (s.withDataIn_node? v) rfl rfl]
  cases s.generatedCodes with
  | error e => exact .fault e
  | ok c => exact .next _

theorem hdrCommit_withDataIn (after : HdrState) :
    AnswersWith v (hdrCommit after s) (hdrCommit after (s.withDataIn v)) :=
  .ite (raise_withDataIn s v _) (.ite (raise_withDataIn s v _) (.next _))

theorem execHdrChar_withDataIn (b : Byte) : AnswersWith v (execHdrChar b s) (execHdrChar b (s.withDataIn v)) := by
  have hr := raise_withDataIn s v
  refine .ite (hr _) ?_
  rw [State.withDataIn_hp]
  cases s.hp with
  | idle => exact .ite (.next _) (.ite (.next _) (hr _))
  | sym => exact .ite (.ite (hr _) (.next _)) (.ite (.next _) (hr _))
  | sepF => exact .ite (.ite (hr _) (.next _)) (hr _)
  | freq =>
    exact .ite (.ite (hr _) (.next _)) (.ite (hdrCommit_withDataIn s v _) (.ite (hdrCommit_withDataIn s v _) (hr _)))
  | sepS => exact .ite (.next _) (hr _)
  | done => exact hr _

theorem decMove_withDataIn (i : Idx) : AnswersWith v (decMove i s) (decMove i (s.withDataIn v)) := by
  unfold decMove
  rw [State.withDataIn_node?]
  cases s.node? i with
  | none => exact .fault _
  | some n =>
    dsimp only
    cases n.kind <;> exact .next _

theorem decDescend_withDataIn (b : Byte) : AnswersWith v (decDescend b s) (decDescend b (s.withDataIn v)) := by
  unfold decDescend
  rw [State.withDataIn_decCur, State.withDataIn_node?]
  cases s.node? s.decCur with
  | none => exact .fault _
  | some n =>
    dsimp only
    cases childFor n b with
    | none => exact raise_withDataIn s v _
    | some i => exact decMove_withDataIn s v i

theorem execDecChar_withDataIn (b : Byte) : AnswersWith v (execDecChar b s) (execDecChar b (s.withDataIn v)) := by
  unfold execDecChar
  rw [State.withDataIn_tree, State.withDataIn_rootIdx, State.withDataIn_node?]
  cases s.tree with
  | none => exact raise_withDataIn s v _
  | building => exact raise_withDataIn s v _
  | empty => exact raise_withDataIn s v _
  | built =>
    dsimp only
    cases s.node? s.rootIdx with
    | none => exact .fault _
    | some n =>
      dsimp only
      cases n.kind with
      | leaf => exact raise_withDataIn s v _
      | internal => exact decDescend_withDataIn s v b

theorem execDecSingle_withDataIn : AnswersWith v (execDecSingle s) (execDecSingle (s.withDataIn v)) := by
  unfold execDecSingle
  rw [State.withDataIn_tree, State.withDataIn_rootIdx, State.withDataIn_node?]
  cases s.tree with
  | none => exact raise_withDataIn s v _
  | building => exact raise_withDataIn s v _
  | empty => exact .next s
  | built =>
    dsimp only
    cases s.node? s.rootIdx with
    | none => exact .fault _
    | some n =>
      dsimp only
      cases n.kind with
      | leaf => exact .next _
      | internal => exact raise_withDataIn s v _

/-- Every command but FREQ_WR answers alike whether the host writes DATA_IN before it or behind it. -/
theorem exec_withDataIn {i : Instr} (hi : ∀ b, i ≠ .freqWr b) : AnswersWith v (exec i s) (exec i (s.withDataIn v)) := by
  have hr := raise_withDataIn s v
  cases i with
  | freqWr b => exact absurd rfl (hi b)
  | nop => exact .next s
  | clear => exact .next s.cleared
  | count b => exact .ite (hr _) (.ite (hr _) (.next _))
  | freqRd b => exact .next _
  | buildInit => exact .ite (hr _) (.next s.buildInit)
  | mergeStep => exact .ite (hr _) (mergeOnce_withDataIn s v)
  | build => exact .ite (hr _) (mergeLoop_withDataIn s.buildInit v 255)
  | nodeRd idx sel => exact .ite (hr _) (.next _)
  | pqRd pos => exact execPqRd_withDataIn s v pos
  | genCodes => exact execGenCodes_withDataIn s v
  | codeInfo b => exact .ite (hr _) (.next _)
  | codeRd b c => exact .ite (hr _) (.next _)
  | hdrEnc => exact .ite (hr _) (.next _)
  | hdrChar b => exact execHdrChar_withDataIn s v b
  | encByte b => exact .ite (hr _) (.ite (hr _) (.next _))
  | decChar b => exact execDecChar_withDataIn s v b
  | decEnd => exact .ite (hr _) (.ite (hr _) (.next s))
  | decSingle => exact execDecSingle_withDataIn s v

end

/-- No such command writes DATA_IN: it answers alike when the host first writes the value that DATA_IN already holds. -/
theorem exec_dataIn {i : Instr} (hi : ∀ b, i ≠ .freqWr b) {s t : State} (h : exec i s = .next t) : t.dataIn = s.dataIn := by
  have hsame : exec i s = andThen (exec i s) fun t => .next (t.withDataIn s.dataIn) := exec_withDataIn s s.dataIn hi
  rw [h, andThen_next] at hsame
  rw [Host.Outcome.next.inj hsame, State.withDataIn_dataIn]

/-- Settles O52: a write to DATA_IN commutes with every command but FREQ_WR. -/
theorem dataInIsReadOnlyByFreqWr : Obligations.DataInIsReadOnlyByFreqWr := by
  intro i s v hi
  have hx : exec i (s.withDataIn v) = andThen (exec i s) fun t => .next (t.withDataIn v) := exec_withDataIn s v hi
  refine ⟨fun t h => ⟨exec_dataIn hi h, ?_⟩, fun e h => ?_⟩
  · rw [h] at hx; exact hx
  · rw [h] at hx; exact hx

end Sys2Proof.Machine
end

section
/-! Reset (70_reset_and_hazards.md): what the registers read after it, and what its three events set. -/

namespace Sys2Proof.Machine

/-! ### What the registers read -/

/-- CLEAR finds nothing to discard after reset, whatever FREQ_WIDTH is and the node records hold (R101, R241). -/
theorem cleared_reset (w : Config.FreqWidth) (v : Vector NodeRec Config.nodeCap) :
    ({ State.reset with freqWidth := w, node := v } : State).cleared = { State.reset with freqWidth := w, node := v } := rfl

/-- Settles O12: the reset state is a cleared one, with DATA_IN and OUT reset too and CONFIG hardwired to FREQ_WIDTH. -/
theorem resetRegisterValues : Obligations.ResetRegisterValues := by
  refine ⟨fun w v => ?_, rfl⟩
  intro s
  have hs : s.cleared = s := cleared_reset w v
  have hstatus : s.status = 0 := hs ▸ State.cleared_status (s := s) rfl
  have htree : s.treeInfo = 0 := hs ▸ s.cleared_treeInfo
  have hdec : s.decInfo = 0 := hs ▸ s.cleared_decInfo
  have hfreq : ∀ b, s.freqAt b = 0 := hs ▸ s.cleared_freqAt
  have hcodes : ∀ b, s.codeAt b = ⟨false, 0, 0⟩ := hs ▸ s.cleared_codeAt
  exact ⟨rfl, rfl, rfl, hstatus, htree, hdec, rfl, rfl, config_toNat s, hfreq, hcodes, rfl, rfl⟩

/-! ### The three reset events, and the host's accesses while reset is asserted (R240) -/

theorem hostStep_reset (s : State) : hostStep .reset s = .next { s.resetBlock with inReset := false } := rfl

theorem hostStep_assertReset (s : State) : hostStep .assertReset s = .next { s.resetBlock with inReset := true } := rfl

theorem hostStep_releaseReset {s : State} (hr : s.inReset = true) :
    hostStep .releaseReset s = .next { s.resetBlock with inReset := false } := by simp [hostStep, hr]

theorem hostStep_releaseReset_unasserted {s : State} (hr : s.inReset = false) : hostStep .releaseReset s = .next s := by
  simp [hostStep, hr]

/-- While reset is asserted a write has no effect (R240). -/
theorem hostStep_write_inReset {off : Offset} (v : Word) {s : State} (hr : s.inReset = true) (ha : off.toNat % 4 = 0) :
    hostStep (.write off 4 v) s = .next s := by simp [hostStep, hr, ha]

/-- While reset is asserted a read returns some value and does nothing else (R240). -/
theorem hostStep_read_inReset {off : Offset} {s : State} (hr : s.inReset = true) (ha : off.toNat % 4 = 0) :
    hostStep (.read off 4) s = .next (readInReset off s) := by simp [hostStep, hr, ha]

/-- Settles O13, event by event and access by access. -/
theorem resetSetsTheResetState : Obligations.ResetSetsTheResetState := by
  intro s rest
  refine ⟨fun hh => ?_, fun hh => ?_, fun hh => ⟨fun hr => ?_, fun hr => ?_⟩, fun off v hr ha => ⟨fun hh => ?_, fun hh => ?_⟩⟩
  · exact ⟨_, (step_cons hh).trans (hostStep_reset _), rfl⟩
  · exact ⟨_, (step_cons hh).trans (hostStep_assertReset _), rfl⟩
  · exact ⟨_, (step_cons hh).trans (hostStep_releaseReset hr), rfl⟩
  · exact (step_cons hh).trans (hostStep_releaseReset_unasserted hr)
  · exact (step_cons hh).trans (hostStep_write_inReset v hr ha)
  · exact ⟨_, _, (step_cons hh).trans (hostStep_read_inReset hr ha)⟩

end Sys2Proof.Machine
end
